-- ==== Sys2Proof/Word.lean ====
section
/-! DEFINITION. The word types of the block and their plainest arithmetic (spec rules R11, R287):
bit 0 is the least significant bit, every value is unsigned. -/

namespace Sys2Proof

/-- R11: "Byte means 8 bits". -/
abbrev Byte := BitVec 8

/-- A 16-bit value: a port number (R60) or a cell (R110). -/
abbrev Half := BitVec 16

/-- The 32-bit operation word (R90). -/
abbrev Word := BitVec 32

/-- A word of the interrupted context (R22), as the unsigned number its bits stand for (R11). Its width `XLEN` is an open
parameter (R8), so no width stands in the type: a word of a machine is below `2 ^ XLEN` (log 9). -/
abbrev XWord := Nat

end Sys2Proof
end

