-- ==== Sys2Proof/Syntax.lean ====
section
/-! DEFINITION. The whole syntax: one constructor of `Instr` for every row of spec/opcode_table.json
(24 operation words, 7 controller bytes, 2 scancode bytes), the small name types their operands use, and the
units a program is made of. -/

namespace Sys2Proof

/-- R7, R19: controller index 0 is the master, 1 the slave. -/
inductive Ctrl where
  | master
  | slave
  deriving DecidableEq, Repr

/-- R42, R96: the three resources a lock guards. -/
inductive Resource where
  /-- lock 0, the Writer -/
  | writer
  /-- lock 1, the keyboard decoder -/
  | keyboard
  /-- lock 2, the controller pair -/
  | pic
  deriving DecidableEq, Repr

/-- R210: a key event is tagged press or release. -/
inductive KeyState where
  | press
  | release
  deriving DecidableEq, Repr

/-- R29: the position in the four-step initialisation sequence of a controller. -/
inductive InitStep where
  | uninit
  | waitIcw2
  | waitIcw3
  | waitIcw4
  | ready
  deriving DecidableEq, Repr

/-- R35: the two states of the decoder's first stage. -/
inductive DecStage where
  | idle
  | awaitingContinuation
  deriving DecidableEq, Repr

/-- R114: a key identity is an 8-bit number. -/
abbrev KeyId := Byte

/-- Every operation of the block (R119) and every byte encoding of its hardware interfaces
(spec/opcode_table.json, formats PICBYTE and SCANBYTE). -/
inductive Instr where
  /-- R280 -/
  | iow (port : Half) (data : Byte)
  /-- R281 -/
  | ior (port : Half)
  /-- R282 -/
  | mw16 (off : BitVec 12) (data : Half)
  /-- R283 -/
  | mr16 (off : BitVec 12)
  /-- R284 -/
  | mw8 (off : BitVec 12) (data : Byte)
  /-- R285 -/
  | mr8 (off : BitVec 12)
  /-- R177: a request on line `n` -/
  | irq (n : Fin 16)
  /-- R203 -/
  | key (b : Byte)
  /-- R295 -/
  | exc (v : Byte) (code : Byte)
  /-- R296 -/
  | inta
  /-- R297 -/
  | hrun
  /-- R290 -/
  | cli
  /-- R291 -/
  | sti
  /-- R292 -/
  | hlt
  /-- R293 -/
  | lock (r : Resource)
  /-- R294 -/
  | unlock (r : Resource)
  /-- R131 -/
  | build
  /-- R133 -/
  | activate
  /-- R185 -/
  | picinit (base : Byte)
  /-- R190 -/
  | ack (v : Byte)
  /-- R251 -/
  | wrbyte (b : Byte)
  /-- R255 -/
  | scroll
  /-- R211 -/
  | addbyte (b : Byte)
  /-- R215 -/
  | process (k : KeyId) (st : KeyState)
  /-- R104, R171: the first initialisation byte, at the command port of controller `c` -/
  | icw1 (c : Ctrl)
  /-- R105, R172: the vector offset `o ++ 000`, at the data port of controller `c` in state `WaitICW2` -/
  | icw2 (c : Ctrl) (o : BitVec 5)
  /-- R106, R173: the cascade wiring byte at the master's data port -/
  | icw3Master
  /-- R106, R173: the cascade wiring byte at the slave's data port -/
  | icw3Slave
  /-- R107, R174: the mode byte at the data port of controller `c` -/
  | icw4 (c : Ctrl)
  /-- R108, R176: the end-of-interrupt command at the command port of controller `c` -/
  | eoi (c : Ctrl)
  /-- R109, R175: the mask byte at the data port of a `Ready` controller `c` -/
  | ocw1 (c : Ctrl) (m : Byte)
  /-- R113, R211: a scancode byte of `EXT_PREFIX` met in state `Idle` -/
  | scanPrefix (b : Byte)
  /-- R113, R211: a terminal scancode byte: the release bit and the key code -/
  | scanKey (release : Bool) (code : BitVec 7)
  deriving DecidableEq, Repr

/-- What a program is made of: operation words (R16, R90), and the bytes of the hardware's own interfaces with the
place each one arrives at (R102, R103, R113). The byte units are the model's own addition (log 2). -/
inductive BusUnit where
  /-- a 32-bit operation word -/
  | opWord (w : Word)
  /-- a byte written to the command port of a controller -/
  | command (c : Ctrl) (b : Byte)
  /-- a byte written to the data port of a controller -/
  | data (c : Ctrl) (b : Byte)
  /-- a byte given to the decoder's first stage -/
  | scan (b : Byte)
  deriving DecidableEq, Repr

/-- Why a unit is no instruction. -/
inductive Reject where
  /-- R91, R99: class 0x0 or 0xA to 0xF -/
  | illegalClass
  /-- R99: a sub-operation its class does not list -/
  | illegalSub
  /-- R99: a must-be-0 field that is not 0 -/
  | mustBeZero
  /-- R99: an operand the word format forbids (`LOCK` 3 and up, a code without the double-fault vector) -/
  | badOperand
  /-- R102, R103: a controller byte that is not admitted -/
  | notAdmitted
  /-- R105, R172: a vector offset whose low three bits are not 0 -/
  | badOffset
  deriving DecidableEq, Repr

end Sys2Proof
end

