-- ==== Sys2Proof/Config.lean ====
section
/-! DEFINITION. The parameters of the block: the constants the source fixes (rule R7), the open parameters (rule R8)
as the fields of one structure, the constraints among them (rule R9), and the free values, which have no body. -/

namespace Sys2Proof

namespace Config

/-- R7: entries in the vector table. -/
abbrev nVec : Nat := 256

/-- R7: the highest vector reserved for CPU-defined exceptions. -/
def excTop : Nat := 31

/-- R7: the breakpoint vector. -/
def vecBp : Byte := 3#8

/-- R7: the double-fault vector. -/
def vecDf : Byte := 8#8

/-- R7: request lines of one controller. -/
abbrev nLine : Nat := 8

/-- R7: cells per row. -/
def fbCols : Nat := 80

/-- R7: rows. -/
def fbRows : Nat := 25

/-- R7: bytes per cell. -/
def cellBytes : Nat := 2

/-- R61: the size of the display memory region, `25 * 80 * 2 = 4000` bytes. -/
def fbBytes : Nat := fbRows * fbCols * cellBytes

/-- R7: palette size. -/
abbrev nColour : Nat := 16

/-- R45, R44: the byte that offset `o` of the display memory holds at reset. "a model treats the initial `fb` as a launch
parameter, an arbitrary array of 2000 cells, and never as zeros or blanks". A FREE VALUE (log 12). -/
opaque freeCellByte : Nat → Byte

/-- R204: "the result is an arbitrary byte (a draw: the model must admit every value)", the `n`-th draw of a run.
A FREE VALUE (log 13). -/
opaque freeKbdByte : Nat → Byte

end Config

/-- R8 (`ModRole`), R225: the part a key plays for the modifier state. -/
inductive ModRole where
  | lshift
  | rshift
  | lctrl
  | rctrl
  | caps
  | noRole
  deriving DecidableEq, Repr

/-- R215: what the second stage yields: a printable or control character, or a raw key symbol. -/
inductive DecodedKey where
  | unicode (ch : Char)
  | rawKey (k : KeyId)
  deriving DecidableEq, Repr

/-- R8 (`Layout`): the four results of one key, by the shift and caps state. -/
structure LayoutRow where
  plain : DecodedKey
  shifted : DecodedKey
  capsed : DecodedKey
  shiftCaps : DecodedKey
  deriving DecidableEq, Repr

/-- R8: every parameter the source leaves open, and `ALT_STACK_OK` (R36). "A model takes every one of these as a
configuration field." A table is a list of pairs in which the first pair with a key counts (log 18). -/
structure Config where
  /-- `IRQ_BASE` (R7: "configurable") -/
  irqBase : Byte
  /-- `FB_BASE` -/
  fbBase : Nat
  /-- `KBD_PORT` -/
  kbdPort : Half
  /-- `PIC1_CMD` -/
  pic1Cmd : Half
  /-- `PIC1_DATA` -/
  pic1Data : Half
  /-- `PIC2_CMD` -/
  pic2Cmd : Half
  /-- `PIC2_DATA` -/
  pic2Data : Half
  /-- `CASCADE_LINE` -/
  cascadeLine : Fin 8
  /-- `ICW1_INIT` -/
  icw1Init : Byte
  /-- `ICW4_MODE` -/
  icw4Mode : Byte
  /-- `EOI_CMD` -/
  eoiCmd : Byte
  /-- `PRINT_LO` -/
  printLo : Byte
  /-- `PRINT_HI` -/
  printHi : Byte
  /-- `NEWLINE` -/
  newline : Byte
  /-- `PLACEHOLDER` -/
  placeholder : Byte
  /-- `BLANK_CHAR` -/
  blankChar : Byte
  /-- `INIT_COLOR` -/
  initColor : Byte
  /-- `HEARTBEAT` -/
  heartbeat : Byte
  /-- `DF_STACK_INDEX` -/
  dfStackIndex : Nat
  /-- `DF_CODE` -/
  dfCode : XWord
  /-- `XLEN` (log 9) -/
  xlen : Nat
  /-- `IF_BIT` -/
  ifBit : Nat
  /-- `ALT_STACK_OK` (R36) -/
  altStackOk : Bool
  /-- `EXT_PREFIX` -/
  extPrefix : List Byte
  /-- `KeyMap1` -/
  keyMap1 : List (BitVec 7 × KeyId)
  /-- `KeyMapExt` -/
  keyMapExt : List (BitVec 7 × KeyId)
  /-- `ModRole` -/
  modRole : List (KeyId × ModRole)
  /-- `Layout` -/
  layout : List (KeyId × LayoutRow)
  /-- `KeyName` -/
  keyName : List (KeyId × List Byte)
  deriving DecidableEq, Repr

end Sys2Proof
end

