-- ==== Sys2Proof/Machine/Profile.lean ====
section
/-! DEFINITION. The constraints among the parameters (rule R9), the two device vectors (rule R7), and the default
profile (rule R8's default column, rules R225 to R229): the values of a PC-compatible machine, every one of them
"[from general knowledge, not in source]" (log 8). -/

namespace Sys2Proof

namespace Config

/-- R114: the KeyId of a key found in `KeyMap1` at code `c` is `c`, in `KeyMapExt` at code `c` it is `0x80 | c`. -/
def keysNumbered (cfg : Config) : Bool :=
  cfg.keyMap1.all (fun p => p.2 == 0#1 ++ p.1) && cfg.keyMapExt.all (fun p => p.2 == 1#1 ++ p.1)

/-- R9: the constraints among the parameters, with what R102 asks of the two command bytes: bit 4 of `ICW1_INIT` is 1,
bits 4:3 of `EOI_CMD` are 00 (log 17); and R8: `IF_BIT` lies in `0..XLEN-1` and `DF_CODE` has `XLEN` bits
(log 9); and R114's numbering of the keys. -/
def valid (cfg : Config) : Bool :=
  decide (cfg.ifBit < cfg.xlen ∧ cfg.dfCode < 2 ^ cfg.xlen) &&
  decide (32 ≤ cfg.irqBase.toNat ∧ cfg.irqBase.toNat ≤ 240 ∧ cfg.irqBase.toNat % 8 = 0) &&
  decide ([cfg.pic1Cmd, cfg.pic1Data, cfg.pic2Cmd, cfg.pic2Data, cfg.kbdPort].Nodup) &&
  decide (cfg.printLo.toNat ≤ cfg.printHi.toNat) &&
  decide (cfg.newline.toNat < cfg.printLo.toNat ∨ cfg.printHi.toNat < cfg.newline.toNat) &&
  decide (cfg.fbBase % 2 = 0) &&
  decide (cfg.cascadeLine ≠ 0 ∧ cfg.cascadeLine ≠ 1) &&
  cfg.icw1Init.getLsbD 4 && !cfg.eoiCmd.getLsbD 4 && !cfg.eoiCmd.getLsbD 3 && cfg.keysNumbered

/-- R7: `VEC_TIMER = IRQ_BASE + 0`. -/
def vecTimer (cfg : Config) : Byte := cfg.irqBase

/-- R7, conflict C1: `VEC_KEYBOARD = IRQ_BASE + 1`. -/
def vecKeyboard (cfg : Config) : Byte := cfg.irqBase + 1#8

end Config

namespace Profile

/-- R226: scancode set 1, single-byte codes; the KeyId equals the code (R114). -/
def keyMap1 : List (BitVec 7 × KeyId) :=
  [(0x01#7, 0x01#8), (0x02#7, 0x02#8), (0x03#7, 0x03#8), (0x04#7, 0x04#8), (0x05#7, 0x05#8), (0x06#7, 0x06#8),
   (0x07#7, 0x07#8), (0x08#7, 0x08#8), (0x09#7, 0x09#8), (0x0A#7, 0x0A#8), (0x0B#7, 0x0B#8), (0x0C#7, 0x0C#8),
   (0x0D#7, 0x0D#8), (0x0E#7, 0x0E#8), (0x0F#7, 0x0F#8), (0x10#7, 0x10#8), (0x11#7, 0x11#8), (0x12#7, 0x12#8),
   (0x13#7, 0x13#8), (0x14#7, 0x14#8), (0x15#7, 0x15#8), (0x16#7, 0x16#8), (0x17#7, 0x17#8), (0x18#7, 0x18#8)] ++
  [(0x19#7, 0x19#8), (0x1A#7, 0x1A#8), (0x1B#7, 0x1B#8), (0x1C#7, 0x1C#8), (0x1D#7, 0x1D#8), (0x1E#7, 0x1E#8),
   (0x1F#7, 0x1F#8), (0x20#7, 0x20#8), (0x21#7, 0x21#8), (0x22#7, 0x22#8), (0x23#7, 0x23#8), (0x24#7, 0x24#8),
   (0x25#7, 0x25#8), (0x26#7, 0x26#8), (0x27#7, 0x27#8), (0x28#7, 0x28#8), (0x29#7, 0x29#8), (0x2A#7, 0x2A#8),
   (0x2B#7, 0x2B#8), (0x2C#7, 0x2C#8), (0x2D#7, 0x2D#8), (0x2E#7, 0x2E#8), (0x2F#7, 0x2F#8), (0x30#7, 0x30#8)] ++
  [(0x31#7, 0x31#8), (0x32#7, 0x32#8), (0x33#7, 0x33#8), (0x34#7, 0x34#8), (0x35#7, 0x35#8), (0x36#7, 0x36#8),
   (0x37#7, 0x37#8), (0x38#7, 0x38#8), (0x39#7, 0x39#8), (0x3A#7, 0x3A#8), (0x3B#7, 0x3B#8), (0x3C#7, 0x3C#8),
   (0x3D#7, 0x3D#8), (0x3E#7, 0x3E#8), (0x3F#7, 0x3F#8), (0x40#7, 0x40#8), (0x41#7, 0x41#8), (0x42#7, 0x42#8),
   (0x43#7, 0x43#8), (0x44#7, 0x44#8), (0x45#7, 0x45#8), (0x46#7, 0x46#8), (0x47#7, 0x47#8), (0x48#7, 0x48#8)] ++
  [(0x49#7, 0x49#8), (0x4A#7, 0x4A#8), (0x4B#7, 0x4B#8), (0x4C#7, 0x4C#8), (0x4D#7, 0x4D#8), (0x4E#7, 0x4E#8),
   (0x4F#7, 0x4F#8), (0x50#7, 0x50#8), (0x51#7, 0x51#8), (0x52#7, 0x52#8), (0x53#7, 0x53#8), (0x57#7, 0x57#8),
   (0x58#7, 0x58#8)]

/-- R227: the codes that follow the 0xE0 byte; the KeyId is `0x80 | code` (R114). -/
def keyMapExt : List (BitVec 7 × KeyId) :=
  [(0x1C#7, 0x9C#8), (0x1D#7, 0x9D#8), (0x35#7, 0xB5#8), (0x38#7, 0xB8#8), (0x47#7, 0xC7#8), (0x48#7, 0xC8#8),
   (0x49#7, 0xC9#8), (0x4B#7, 0xCB#8), (0x4D#7, 0xCD#8), (0x4F#7, 0xCF#8), (0x50#7, 0xD0#8), (0x51#7, 0xD1#8),
   (0x52#7, 0xD2#8), (0x53#7, 0xD3#8), (0x5B#7, 0xDB#8), (0x5C#7, 0xDC#8), (0x5D#7, 0xDD#8)]

/-- R226, R227, R229: the names of the keys, as spelled there. -/
def keyNames : List (KeyId × String) :=
  [(0x01#8, "Escape"), (0x02#8, "Key1"), (0x03#8, "Key2"), (0x04#8, "Key3"),
   (0x05#8, "Key4"), (0x06#8, "Key5"), (0x07#8, "Key6"), (0x08#8, "Key7"),
   (0x09#8, "Key8"), (0x0A#8, "Key9"), (0x0B#8, "Key0"), (0x0C#8, "Minus"),
   (0x0D#8, "Equals"), (0x0E#8, "Backspace"), (0x0F#8, "Tab"), (0x10#8, "Q")] ++
  [(0x11#8, "W"), (0x12#8, "E"), (0x13#8, "R"), (0x14#8, "T"),
   (0x15#8, "Y"), (0x16#8, "U"), (0x17#8, "I"), (0x18#8, "O"),
   (0x19#8, "P"), (0x1A#8, "BracketLeft"), (0x1B#8, "BracketRight"), (0x1C#8, "Enter"),
   (0x1D#8, "LControl"), (0x1E#8, "A"), (0x1F#8, "S"), (0x20#8, "D")] ++
  [(0x21#8, "F"), (0x22#8, "G"), (0x23#8, "H"), (0x24#8, "J"),
   (0x25#8, "K"), (0x26#8, "L"), (0x27#8, "Semicolon"), (0x28#8, "Quote"),
   (0x29#8, "Backtick"), (0x2A#8, "LShift"), (0x2B#8, "Backslash"), (0x2C#8, "Z"),
   (0x2D#8, "X"), (0x2E#8, "C"), (0x2F#8, "V"), (0x30#8, "B")] ++
  [(0x31#8, "N"), (0x32#8, "M"), (0x33#8, "Comma"), (0x34#8, "Period"),
   (0x35#8, "Slash"), (0x36#8, "RShift"), (0x37#8, "NumpadMultiply"), (0x38#8, "LAlt"),
   (0x39#8, "Space"), (0x3A#8, "CapsLock"), (0x3B#8, "F1"), (0x3C#8, "F2"),
   (0x3D#8, "F3"), (0x3E#8, "F4"), (0x3F#8, "F5"), (0x40#8, "F6")] ++
  [(0x41#8, "F7"), (0x42#8, "F8"), (0x43#8, "F9"), (0x44#8, "F10"),
   (0x45#8, "NumLock"), (0x46#8, "ScrollLock"), (0x47#8, "Numpad7"), (0x48#8, "Numpad8"),
   (0x49#8, "Numpad9"), (0x4A#8, "NumpadMinus"), (0x4B#8, "Numpad4"), (0x4C#8, "Numpad5"),
   (0x4D#8, "Numpad6"), (0x4E#8, "NumpadPlus"), (0x4F#8, "Numpad1"), (0x50#8, "Numpad2")] ++
  [(0x51#8, "Numpad3"), (0x52#8, "Numpad0"), (0x53#8, "NumpadPeriod"), (0x57#8, "F11"),
   (0x58#8, "F12"), (0x9C#8, "NumpadEnter"), (0x9D#8, "RControl"), (0xB5#8, "NumpadSlash"),
   (0xB8#8, "RAlt"), (0xC7#8, "Home"), (0xC8#8, "ArrowUp"), (0xC9#8, "PageUp"),
   (0xCB#8, "ArrowLeft"), (0xCD#8, "ArrowRight"), (0xCF#8, "End"), (0xD0#8, "ArrowDown")] ++
  [(0xD1#8, "PageDown"), (0xD2#8, "Insert"), (0xD3#8, "Delete"), (0xDB#8, "LWin"),
   (0xDC#8, "RWin"), (0xDD#8, "Menu")]

/-- R229: a key's name as its ASCII bytes, "with no separator before or after". -/
def nameBytes (s : String) : List Byte := s.toList.map fun ch => BitVec.ofNat 8 ch.toNat

/-- R225: "every other KeyId is `NoRole`". -/
def modRole : List (KeyId × ModRole) :=
  [(0x2A#8, .lshift), (0x36#8, .rshift), (0x1D#8, .lctrl), (0x9D#8, .rctrl), (0x3A#8, .caps)]

/-- The character with code point `n`. -/
def chr (n : Nat) : DecodedKey := .unicode (Char.ofNat n)

/-- R228(a): a letter key, `upper` "when `shift xor caps` is true", the lower-case letter otherwise. -/
def letterRow (lower upper : Nat) : LayoutRow := ⟨chr lower, chr upper, chr upper, chr lower⟩

/-- R228(b): a key with two symbols; "`caps` has no effect on them". -/
def symbolRow (plain shifted : Nat) : LayoutRow := ⟨chr plain, chr shifted, chr plain, chr shifted⟩

/-- R228(c): a key with one character whatever the modifiers. -/
def oneRow (n : Nat) : LayoutRow := ⟨chr n, chr n, chr n, chr n⟩

/-- R228(a). -/
def letters : List (KeyId × LayoutRow) :=
  [(0x10#8, letterRow 0x71 0x51), (0x11#8, letterRow 0x77 0x57), (0x12#8, letterRow 0x65 0x45), (0x13#8, letterRow 0x72 0x52),
   (0x14#8, letterRow 0x74 0x54), (0x15#8, letterRow 0x79 0x59), (0x16#8, letterRow 0x75 0x55), (0x17#8, letterRow 0x69 0x49),
   (0x18#8, letterRow 0x6F 0x4F), (0x19#8, letterRow 0x70 0x50), (0x1E#8, letterRow 0x61 0x41), (0x1F#8, letterRow 0x73 0x53),
   (0x20#8, letterRow 0x64 0x44), (0x21#8, letterRow 0x66 0x46), (0x22#8, letterRow 0x67 0x47), (0x23#8, letterRow 0x68 0x48)] ++
  [(0x24#8, letterRow 0x6A 0x4A), (0x25#8, letterRow 0x6B 0x4B), (0x26#8, letterRow 0x6C 0x4C), (0x2C#8, letterRow 0x7A 0x5A),
   (0x2D#8, letterRow 0x78 0x58), (0x2E#8, letterRow 0x63 0x43), (0x2F#8, letterRow 0x76 0x56), (0x30#8, letterRow 0x62 0x42),
   (0x31#8, letterRow 0x6E 0x4E), (0x32#8, letterRow 0x6D 0x4D)]

/-- R228(b). -/
def symbols : List (KeyId × LayoutRow) :=
  [(0x02#8, symbolRow 0x31 0x21), (0x03#8, symbolRow 0x32 0x40), (0x04#8, symbolRow 0x33 0x23), (0x05#8, symbolRow 0x34 0x24),
   (0x06#8, symbolRow 0x35 0x25), (0x07#8, symbolRow 0x36 0x5E), (0x08#8, symbolRow 0x37 0x26), (0x09#8, symbolRow 0x38 0x2A),
   (0x0A#8, symbolRow 0x39 0x28), (0x0B#8, symbolRow 0x30 0x29), (0x0C#8, symbolRow 0x2D 0x5F), (0x0D#8, symbolRow 0x3D 0x2B),
   (0x1A#8, symbolRow 0x5B 0x7B), (0x1B#8, symbolRow 0x5D 0x7D), (0x27#8, symbolRow 0x3B 0x3A), (0x28#8, symbolRow 0x27 0x22)] ++
  [(0x29#8, symbolRow 0x60 0x7E), (0x2B#8, symbolRow 0x5C 0x7C), (0x33#8, symbolRow 0x2C 0x3C), (0x34#8, symbolRow 0x2E 0x3E),
   (0x35#8, symbolRow 0x2F 0x3F)]

/-- R228(c). -/
def ones : List (KeyId × LayoutRow) :=
  [(0x01#8, oneRow 0x1B), (0x0E#8, oneRow 0x08), (0x0F#8, oneRow 0x09), (0x1C#8, oneRow 0x0A),
   (0x37#8, oneRow 0x2A), (0x39#8, oneRow 0x20), (0x47#8, oneRow 0x37), (0x48#8, oneRow 0x38),
   (0x49#8, oneRow 0x39), (0x4A#8, oneRow 0x2D), (0x4B#8, oneRow 0x34), (0x4C#8, oneRow 0x35),
   (0x4D#8, oneRow 0x36), (0x4E#8, oneRow 0x2B), (0x4F#8, oneRow 0x31), (0x50#8, oneRow 0x32)] ++
  [(0x51#8, oneRow 0x33), (0x52#8, oneRow 0x30), (0x53#8, oneRow 0x2E), (0x9C#8, oneRow 0x0A),
   (0xB5#8, oneRow 0x2F), (0xD3#8, oneRow 0x7F)]

end Profile

/-- R8: "Default profile: the assignment of every open parameter of rule R8 to its default" (R19), with `ALT_STACK_OK`
true (spec/95_test_vectors.md). -/
def defaultProfile : Config where
  irqBase := 32#8
  fbBase := 0xB8000
  kbdPort := 0x60#16
  pic1Cmd := 0x20#16
  pic1Data := 0x21#16
  pic2Cmd := 0xA0#16
  pic2Data := 0xA1#16
  cascadeLine := 2
  icw1Init := 0x11#8
  icw4Mode := 0x01#8
  eoiCmd := 0x20#8
  printLo := 0x20#8
  printHi := 0x7E#8
  newline := 0x0A#8
  placeholder := 0xFE#8
  blankChar := 0x20#8
  initColor := 0x0E#8
  heartbeat := 0x2E#8
  dfStackIndex := 0
  dfCode := 0
  xlen := 64
  ifBit := 9
  altStackOk := true
  extPrefix := [0xE0#8]
  keyMap1 := Profile.keyMap1
  keyMapExt := Profile.keyMapExt
  modRole := Profile.modRole
  layout := Profile.letters ++ Profile.symbols ++ Profile.ones
  keyName := Profile.keyNames.map fun kn => (kn.1, Profile.nameBytes kn.2)

end Sys2Proof
end

