-- ==== Sys2Proof/WellFormed.lean ====
section
/-! DEFINITION. Which terms of `Instr` are instructions: the operand constraints of rule R99 that the operand types do not
already carry, and the place of the two scancode byte forms (rule R113). -/

namespace Sys2Proof

/-- R96, R99: `code` "must be 0 unless `v = VEC_DF`". -/
def excCodeOk (v code : Byte) : Bool := v == Config.vecDf || code == 0#8

/-- The constraints on an instruction's operands. A line above 15, a lock above 2, an offset of more than 12 bits and a
key state other than press and release cannot be written (their types have no such value). -/
def Instr.wf (cfg : Config) : Instr → Bool
  | .exc v code => excCodeOk v code
  | .scanPrefix b => cfg.extPrefix.contains b
  | .iow _ _ => true
  | .ior _ => true
  | .mw16 _ _ => true
  | .mr16 _ => true
  | .mw8 _ _ => true
  | .mr8 _ => true
  | .irq _ => true
  | .key _ => true
  | .inta => true
  | .hrun => true
  | .cli => true
  | .sti => true
  | .hlt => true
  | .lock _ => true
  | .unlock _ => true
  | .build => true
  | .activate => true
  | .picinit _ => true
  | .ack _ => true
  | .wrbyte _ => true
  | .scroll => true
  | .addbyte _ => true
  | .process _ _ => true
  | .icw1 _ => true
  | .icw2 _ _ => true
  | .icw3Master => true
  | .icw3Slave => true
  | .icw4 _ => true
  | .eoi _ => true
  | .ocw1 _ _ => true
  | .scanKey _ _ => true

end Sys2Proof
end

