-- ==== Sys2Proof/Decode.lean ====
section
/-! DEFINITION. The decoder (rules R90 to R99 for the operation word, R102, R103, R113 for the hardware's bytes), total on
every unit and rejecting by name; after it the encoder, written from the same tables. -/

namespace Sys2Proof

/-! The fields of an operation word (R92, R93, R94), "taken from the word's bits as they stand" (R98). -/

/-- R90: "Bits 31:28 are the class `K`." -/
def fieldK (w : Word) : BitVec 4 := w.extractLsb' 28 4

/-- R92, R93: bits 27:24. -/
def fieldSub (w : Word) : BitVec 4 := w.extractLsb' 24 4

/-- R92: bits 23:8. -/
def fieldPort (w : Word) : Half := w.extractLsb' 8 16

/-- R92: bits 7:0; R93: `a1`. -/
def fieldLow (w : Word) : Byte := w.extractLsb' 0 8

/-- R93: bits 15:8, `a2`; R94: `data[15:8]`. -/
def fieldA2 (w : Word) : Byte := w.extractLsb' 8 8

/-- R93: bits 23:16, "must be 0". -/
def fieldMbz (w : Word) : Byte := w.extractLsb' 16 8

/-- R94: bits 27:16. -/
def fieldOff (w : Word) : BitVec 12 := w.extractLsb' 16 12

/-- R94: bits 15:0. -/
def fieldData (w : Word) : Half := w.extractLsb' 0 16

/-- `i` when the condition the word format asks for holds, otherwise the rejection `r`. -/
def acceptIf (ok : Bool) (r : Reject) (i : Instr) : Except Reject Instr := if ok then .ok i else .error r

/-- R96: 0 writer, 1 keyboard, 2 controller pair, "3 to 255 illegal". -/
def resourceOfByte (b : Byte) : Option Resource :=
  if b = 0#8 then some .writer else if b = 1#8 then some .keyboard else if b = 2#8 then some .pic else none

/-- R96: the operand of `LOCK` and `UNLOCK`. -/
def withResource (b : Byte) (f : Resource → Instr) : Except Reject Instr :=
  match resourceOfByte b with
  | some r => .ok (f r)
  | none => .error .badOperand

/-- R92: class 0x1. -/
def decodeIow (w : Word) : Except Reject Instr :=
  acceptIf (fieldSub w == 0#4) .mustBeZero (.iow (fieldPort w) (fieldLow w))

/-- R92: class 0x2, "`data` must be 0". -/
def decodeIor (w : Word) : Except Reject Instr :=
  acceptIf (fieldSub w == 0#4 && fieldLow w == 0#8) .mustBeZero (.ior (fieldPort w))

/-- R94: class 0x4, "`data` must be 0". -/
def decodeMr16 (w : Word) : Except Reject Instr :=
  acceptIf (fieldData w == 0#16) .mustBeZero (.mr16 (fieldOff w))

/-- R94: class 0x5, "`data[15:8]` must be 0". -/
def decodeMw8 (w : Word) : Except Reject Instr :=
  acceptIf (fieldA2 w == 0#8) .mustBeZero (.mw8 (fieldOff w) (fieldLow w))

/-- R94: class 0x6, "`data` must be 0". -/
def decodeMr8 (w : Word) : Except Reject Instr :=
  acceptIf (fieldData w == 0#16) .mustBeZero (.mr8 (fieldOff w))

/-- R93: an operation that uses neither `a1` nor `a2`. -/
def sNone (w : Word) (i : Instr) : Except Reject Instr :=
  acceptIf (fieldMbz w == 0#8 && fieldA2 w == 0#8 && fieldLow w == 0#8) .mustBeZero i

/-- R93: an operation that uses `a1` only. -/
def sOne (w : Word) (f : Byte → Instr) : Except Reject Instr :=
  acceptIf (fieldMbz w == 0#8 && fieldA2 w == 0#8) .mustBeZero (f (fieldLow w))

/-- R95: `IRQ`, "line `n`, 0 to 15; `a1[7:4]` must be 0". -/
def decodeIrq (w : Word) : Except Reject Instr :=
  acceptIf (fieldMbz w == 0#8 && fieldA2 w == 0#8 && (fieldLow w).extractLsb' 4 4 == 0#4) .mustBeZero
    (.irq ((fieldLow w).extractLsb' 0 4).toFin)

/-- R95: class 0x7, device events. -/
def decodeDevice (w : Word) : Except Reject Instr :=
  match fieldSub w with
  | 0x0#4 => decodeIrq w
  | 0x1#4 => sOne w .key
  | _ => .error .illegalSub

/-- R96: `EXC v, code`. -/
def decodeExc (w : Word) : Except Reject Instr :=
  if fieldMbz w == 0#8 then acceptIf (excCodeOk (fieldLow w) (fieldA2 w)) .badOperand (.exc (fieldLow w) (fieldA2 w))
  else .error .mustBeZero

/-- R96: `LOCK r`, `UNLOCK r`. -/
def decodeLock (w : Word) (f : Resource → Instr) : Except Reject Instr :=
  if fieldMbz w == 0#8 && fieldA2 w == 0#8 then withResource (fieldLow w) f else .error .mustBeZero

/-- R96: class 0x8, CPU events. -/
def decodeCpu (w : Word) : Except Reject Instr :=
  match fieldSub w with
  | 0x0#4 => decodeExc w
  | 0x1#4 => sNone w .inta
  | 0x2#4 => sNone w .hrun
  | 0x3#4 => sNone w .cli
  | 0x4#4 => sNone w .sti
  | 0x5#4 => sNone w .hlt
  | 0x6#4 => decodeLock w .lock
  | 0x7#4 => decodeLock w .unlock
  | _ => .error .illegalSub

/-- R97: `PROCESS k, st`, "`st`: 0 press, 1 release; `a2[7:1]` must be 0". -/
def decodeProcess (w : Word) : Except Reject Instr :=
  acceptIf (fieldMbz w == 0#8 && (fieldA2 w).extractLsb' 1 7 == 0#7) .mustBeZero
    (.process (fieldLow w) (if (fieldA2 w).getLsbD 0 then .release else .press))

/-- R97: class 0x9, contract commands. -/
def decodeContract (w : Word) : Except Reject Instr :=
  match fieldSub w with
  | 0x0#4 => sNone w .build
  | 0x1#4 => sNone w .activate
  | 0x2#4 => sOne w .picinit
  | 0x3#4 => sOne w .ack
  | 0x4#4 => sOne w .wrbyte
  | 0x5#4 => sNone w .scroll
  | 0x6#4 => sOne w .addbyte
  | 0x7#4 => decodeProcess w
  | _ => .error .illegalSub

/-- R91, R99: "A decoder is total: every 32-bit word is either exactly one operation or illegal." -/
def decodeWord (w : Word) : Except Reject Instr :=
  match fieldK w with
  | 0x1#4 => decodeIow w
  | 0x2#4 => decodeIor w
  | 0x3#4 => .ok (.mw16 (fieldOff w) (fieldData w))
  | 0x4#4 => decodeMr16 w
  | 0x5#4 => decodeMw8 w
  | 0x6#4 => decodeMr8 w
  | 0x7#4 => decodeDevice w
  | 0x8#4 => decodeCpu w
  | 0x9#4 => decodeContract w
  | _ => .error .illegalClass

/-! The bytes of the hardware's own interfaces (Part B of spec/30_encoding.md). -/

/-- What the meaning of a hardware byte depends on (R100, R103, R113): the parameters, the position of each controller in
its initialisation sequence, the decoder's state. -/
structure DecodeCtx where
  cfg : Config
  masterInit : InitStep
  slaveInit : InitStep
  stage : DecStage
  deriving DecidableEq, Repr

/-- The position of controller `c`. -/
def DecodeCtx.init (x : DecodeCtx) : Ctrl → InitStep
  | .master => x.masterInit
  | .slave => x.slaveInit

/-- The context with controller `c` at position `p`. -/
def DecodeCtx.withInit (x : DecodeCtx) (c : Ctrl) (p : InitStep) : DecodeCtx :=
  match c with
  | .master => { x with masterInit := p }
  | .slave => { x with slaveInit := p }

/-- R106: the wiring byte of a controller: `1 << CASCADE_LINE` to the master, `CASCADE_LINE` to the slave. -/
def icw3Byte (cfg : Config) : Ctrl → Byte
  | .master => 1#8 <<< cfg.cascadeLine.val
  | .slave => BitVec.ofNat 8 cfg.cascadeLine.val

/-- R102: a byte written to a command port: "Any other byte than the two admitted values is `stop(R_PICCMD)`." -/
def decodeCommand (cfg : Config) (c : Ctrl) (b : Byte) : Except Reject Instr :=
  if b = cfg.icw1Init then .ok (.icw1 c) else if b = cfg.eoiCmd then .ok (.eoi c) else .error .notAdmitted

/-- R106: the third byte of controller `c`. -/
def icw3Of : Ctrl → Instr
  | .master => .icw3Master
  | .slave => .icw3Slave

/-- R103: a byte written to a data port, by the position of the controller in its sequence. -/
def decodeData (x : DecodeCtx) (c : Ctrl) (b : Byte) : Except Reject Instr :=
  match x.init c with
  | .uninit => .error .notAdmitted
  | .waitIcw2 => acceptIf (b.extractLsb' 0 3 == 0#3) .badOffset (.icw2 c (b.extractLsb' 3 5))
  | .waitIcw3 => acceptIf (b == icw3Byte x.cfg c) .notAdmitted (icw3Of c)
  | .waitIcw4 => acceptIf (b == x.cfg.icw4Mode) .notAdmitted (.icw4 c)
  | .ready => .ok (.ocw1 c b)

/-- R113: a scancode byte by the decoder's state; "in state `Idle`: if `b` is in `EXT_PREFIX` it is a prefix". -/
def decodeScan (x : DecodeCtx) (b : Byte) : Instr :=
  match x.stage with
  | .idle => if x.cfg.extPrefix.contains b then .scanPrefix b else .scanKey (b.getLsbD 7) (b.extractLsb' 0 7)
  | .awaitingContinuation => .scanKey (b.getLsbD 7) (b.extractLsb' 0 7)

/-- The instruction a unit of the program is, or why it is none. Total. -/
def decode (x : DecodeCtx) : BusUnit → Except Reject Instr
  | .opWord w => decodeWord w
  | .command c b => decodeCommand x.cfg c b
  | .data c b => decodeData x c b
  | .scan b => .ok (decodeScan x b)

/-! Programs stored in bytes. -/

/-- R90: "when a program is stored in bytes the word is little-endian". -/
def wordOfBytes (b0 b1 b2 b3 : Byte) : Word := b3 ++ b2 ++ b1 ++ b0

/-- The operation words a list of bytes holds, four bytes a word; `none` where the last word is cut short. -/
def unitsOfBytes : List Byte → Option (List BusUnit)
  | [] => some []
  | b0 :: b1 :: b2 :: b3 :: rest => (unitsOfBytes rest).map (.opWord (wordOfBytes b0 b1 b2 b3) :: ·)
  | _ => none

/-! The encoder. -/

/-- R92: format P. -/
def packP (k : BitVec 4) (port : Half) (data : Byte) : Word := k ++ 0#4 ++ port ++ data

/-- R93: format S. -/
def packS (k sub : BitVec 4) (a2 a1 : Byte) : Word := k ++ sub ++ 0#8 ++ a2 ++ a1

/-- R94: format M. -/
def packM (k : BitVec 4) (off : BitVec 12) (data : Half) : Word := k ++ off ++ data

/-- R96: the number of a resource. -/
def resourceByte : Resource → Byte
  | .writer => 0#8
  | .keyboard => 1#8
  | .pic => 2#8

/-- R97: the `a2` operand of `PROCESS`. -/
def keyStateByte : KeyState → Byte
  | .press => 0#8
  | .release => 1#8

/-- R105: the vector offset of ICW2, `o` in bits 7:3. -/
def offsetByte (o : BitVec 5) : Byte := o ++ 0#3

/-- R113: the release bit above the key code. -/
def scanByte (release : Bool) (code : BitVec 7) : Byte := BitVec.ofBool release ++ code

/-- The unit that stands for an instruction: its operation word (R92 to R97), or its byte and the place it arrives at
(R102 to R109, R113). -/
def encode (cfg : Config) : Instr → BusUnit
  | .iow port data => .opWord (packP 0x1#4 port data)
  | .ior port => .opWord (packP 0x2#4 port 0#8)
  | .mw16 off data => .opWord (packM 0x3#4 off data)
  | .mr16 off => .opWord (packM 0x4#4 off 0#16)
  | .mw8 off data => .opWord (packM 0x5#4 off (0#8 ++ data))
  | .mr8 off => .opWord (packM 0x6#4 off 0#16)
  | .irq n => .opWord (packS 0x7#4 0x0#4 0#8 (BitVec.ofNat 8 n.val))
  | .key b => .opWord (packS 0x7#4 0x1#4 0#8 b)
  | .exc v code => .opWord (packS 0x8#4 0x0#4 code v)
  | .inta => .opWord (packS 0x8#4 0x1#4 0#8 0#8)
  | .hrun => .opWord (packS 0x8#4 0x2#4 0#8 0#8)
  | .cli => .opWord (packS 0x8#4 0x3#4 0#8 0#8)
  | .sti => .opWord (packS 0x8#4 0x4#4 0#8 0#8)
  | .hlt => .opWord (packS 0x8#4 0x5#4 0#8 0#8)
  | .lock r => .opWord (packS 0x8#4 0x6#4 0#8 (resourceByte r))
  | .unlock r => .opWord (packS 0x8#4 0x7#4 0#8 (resourceByte r))
  | .build => .opWord (packS 0x9#4 0x0#4 0#8 0#8)
  | .activate => .opWord (packS 0x9#4 0x1#4 0#8 0#8)
  | .picinit base => .opWord (packS 0x9#4 0x2#4 0#8 base)
  | .ack v => .opWord (packS 0x9#4 0x3#4 0#8 v)
  | .wrbyte b => .opWord (packS 0x9#4 0x4#4 0#8 b)
  | .scroll => .opWord (packS 0x9#4 0x5#4 0#8 0#8)
  | .addbyte b => .opWord (packS 0x9#4 0x6#4 0#8 b)
  | .process k st => .opWord (packS 0x9#4 0x7#4 (keyStateByte st) k)
  | .icw1 c => .command c cfg.icw1Init
  | .icw2 c o => .data c (offsetByte o)
  | .icw3Master => .data .master (icw3Byte cfg .master)
  | .icw3Slave => .data .slave (icw3Byte cfg .slave)
  | .icw4 c => .data c cfg.icw4Mode
  | .eoi c => .command c cfg.eoiCmd
  | .ocw1 c m => .data c m
  | .scanPrefix b => .scan b
  | .scanKey release code => .scan (scanByte release code)

/-- R103, R113: the contexts in which an instruction's own byte is read as that instruction. An operation word is read the
same in every context (R100: "The operation word has neither"). -/
def readableIn (x : DecodeCtx) : Instr → Bool
  | .icw2 c _ => x.init c == .waitIcw2
  | .icw3Master => x.init .master == .waitIcw3
  | .icw3Slave => x.init .slave == .waitIcw3
  | .icw4 c => x.init c == .waitIcw4
  | .ocw1 c _ => x.init c == .ready
  | .scanPrefix _ => x.stage == .idle
  | .scanKey r k => x.stage == .awaitingContinuation || !x.cfg.extPrefix.contains (scanByte r k)
  | .iow _ _ => true
  | .ior _ => true
  | .mw16 _ _ => true
  | .mr16 _ => true
  | .mw8 _ _ => true
  | .mr8 _ => true
  | .irq _ => true
  | .key _ => true
  | .exc _ _ => true
  | .inta => true
  | .hrun => true
  | .cli => true
  | .sti => true
  | .hlt => true
  | .lock _ => true
  | .unlock _ => true
  | .build => true
  | .activate => true
  | .picinit _ => true
  | .ack _ => true
  | .wrbyte _ => true
  | .scroll => true
  | .addbyte _ => true
  | .process _ _ => true
  | .icw1 _ => true
  | .eoi _ => true

/-! The host's reading of a table row. A byte row of the table has no context of its own: these two say which place and
which context the model reads such a byte in (log 3). -/

/-- The place a byte of the table arrives at: the exact-valued rows first, in the table's order, then the rows with
operand bits. -/
def tableByteUnit (cfg : Config) (b : Byte) : BusUnit :=
  if b = cfg.icw1Init || b = cfg.eoiCmd then .command .master b
  else if b = icw3Byte cfg .master then .data .master b
  else if b = icw3Byte cfg .slave then .data .slave b
  else if b = cfg.icw4Mode then .data .master b
  else if cfg.extPrefix.contains b then .scan b
  else .data .master b

/-- The context that makes the byte the row's instruction. -/
def tableByteCtx (b : Byte) (x : DecodeCtx) : DecodeCtx :=
  if b = x.cfg.icw1Init || b = x.cfg.eoiCmd then x
  else if b = icw3Byte x.cfg .master then x.withInit .master .waitIcw3
  else if b = icw3Byte x.cfg .slave then x.withInit .slave .waitIcw3
  else if b = x.cfg.icw4Mode then x.withInit .master .waitIcw4
  else if x.cfg.extPrefix.contains b then { x with stage := .idle }
  else if b.extractLsb' 0 3 = 0#3 then x.withInit .master .waitIcw2
  else x.withInit .master .ready

/-- The unit that holds the bits `w` of a table row of `nbits` bits. -/
def tableUnit (cfg : Config) (nbits w : Nat) : BusUnit :=
  if nbits ≤ 8 then tableByteUnit cfg (BitVec.ofNat 8 w) else .opWord (BitVec.ofNat 32 w)

/-- The context a table row of `nbits` bits with bits `w` is read in, from the context `x`. -/
def tableCtx (nbits w : Nat) (x : DecodeCtx) : DecodeCtx :=
  if nbits ≤ 8 then tableByteCtx (BitVec.ofNat 8 w) x else x

/-- The context right after reset, under the default profile (R44). -/
def resetCtx : DecodeCtx := ⟨defaultProfile, .uninit, .uninit, .idle⟩

/-- The instruction the decoder reads from a table row's bits. -/
def decodeTableWord (nbits w : Nat) : Option Instr :=
  (decode (tableCtx nbits w resetCtx) (tableUnit defaultProfile nbits w)).toOption

end Sys2Proof
end

