-- ==== Sys2Proof/Machine/ContextWord.lean ====
section
/-! DEFINITION. Operations on the words of the interrupted context (rules R11, R22, R287(f)), whose width `XLEN` is a parameter
(log 9). -/

namespace Sys2Proof.Machine

open Sys2Proof

/-- R287(f): `w` with bit `i` set to `b`. -/
def setWordBit (w : XWord) (i : Nat) (b : Bool) : XWord := if w.testBit i = b then w else w ^^^ 2 ^ i

/-- R11: `zext_XLEN` of a byte. -/
def zextByte (b : Byte) : XWord := b.toNat

/-- R11: bits 7:0 of a word. -/
def lowByte (w : XWord) : Byte := BitVec.ofNat 8 w

end Sys2Proof.Machine
end

