-- ==== Sys2Proof/Machine/State.lean ====
section
/-! DEFINITION. The machine state `S` of rule R20 as plain data, the reasons a step can stop (rules R14, R322), and the
reset state (rule R44). -/

namespace Sys2Proof.Machine

open Sys2Proof

/-! ## The CPU interface -/

/-- R22: "A Frame is the triple `(ip, sp, flags)`." -/
structure Frame where
  ip : XWord
  sp : XWord
  flags : XWord
  deriving DecidableEq, Repr

/-- R26: the five handlers a table entry can name. -/
inductive HandlerId where
  | unhandled
  | breakpoint
  | doubleFault
  | timer
  | keyboard
  deriving DecidableEq, Repr

/-- R24: the entered handler, its saved Frame, and the fault-specific code (present only for vector `VEC_DF`). -/
structure Entered where
  handler : HandlerId
  frame : Frame
  code : Option XWord
  deriving DecidableEq, Repr

/-- R22, R23, R24: the CPU as the block sees it. -/
structure Cpu where
  ip : XWord
  sp : XWord
  flags : XWord
  handler : Option Entered
  halted : Bool
  waiting : Bool
  deriving DecidableEq, Repr

/-! ## The sub-blocks -/

/-- R26: a vector table entry, "the pair `(handler, stack)`". -/
structure Entry where
  handler : HandlerId
  stack : Option Nat
  deriving DecidableEq, Repr

/-- R28 to R33: one interrupt controller. -/
structure Pic where
  offset : Byte
  init : InitStep
  irr : Byte
  isr : Byte
  imr : Byte
  icw3 : Byte
  icw4 : Byte
  deriving DecidableEq, Repr

/-- R35: the KeyboardState. -/
structure Decoder where
  stage : DecStage
  lshift : Bool
  rshift : Bool
  lctrl : Bool
  rctrl : Bool
  caps : Bool
  deriving DecidableEq, Repr

/-- R34, R35: the keyboard sub-block. -/
structure Kbd where
  obuf : Option Byte
  dec : Decoder
  deriving DecidableEq, Repr

/-- R41: the writer. -/
structure Writer where
  col : Nat
  color : Byte
  deriving DecidableEq, Repr

/-- R42: a lock. -/
inductive LockState where
  | free
  | heldByMainline
  deriving DecidableEq, Repr

/-- R42: the three locks. -/
structure Locks where
  writer : LockState
  kbd : LockState
  pic : LockState
  deriving DecidableEq, Repr

/-- R40, R60, R61: the display memory region, the only memory the block decodes: the bytes written since reset, by
physical address, addresses strictly rising. An address that is not listed has not been written since reset (log 12). -/
abbrev Memory := List Host.Cell

/-- The canonical form of a memory: addresses strictly rising. What an unlisted address reads as is `none` ("not written
since reset"), which no entry equals, so the second half of the form holds of every list. -/
abbrev Memory.wf (m : Memory) : Prop := m.Pairwise fun x y => x.1 < y.1

/-! ## Logs, stops, results -/

/-- R37: a diagnostics record. The code of a double fault is the saved code of rule R24 (log 16). -/
inductive DiagRecord where
  | breakpointReport (frame : Frame)
  | doubleFaultReport (frame : Frame) (code : Option XWord)
  deriving DecidableEq, Repr

/-- R38: one port transaction. -/
inductive IoEvent where
  /-- `Out(port, byte)` -/
  | output (port : Half) (b : Byte)
  /-- `In(port, byte)` -/
  | input (port : Half) (b : Byte)
  deriving DecidableEq, Repr

/-- R322: the stop reasons. -/
inductive StopReason where
  /-- trap entry finds `H_UNHANDLED` at vector `v` (R154) -/
  | fUnhandled (v : Byte)
  /-- double-fault entry with `ALT_STACK_OK` false (R153) -/
  | fTriple
  /-- trap entry while `idt_active` is false (R135) -/
  | rNoTable
  /-- `STI` before the table is active and both controllers `Ready`; `ACTIVATE` with `IF = 1` (R291, R133) -/
  | rBootOrder
  /-- `BUILD` after activation (R132) -/
  | rTableActive
  /-- `ACTIVATE` before `BUILD` (R133) -/
  | rNotBuilt
  /-- ICW1 to a controller that is not `Uninit` (R171) -/
  | rReinit
  /-- a controller byte or access the model does not admit; `ACK` before both controllers are `Ready` (R170 to R178, R190) -/
  | rPicCmd
  /-- a vector base or offset that breaks rule R9 (R172, R186) -/
  | rBase
  /-- `IRQ` on `CASCADE_LINE` or on line 1 (R177) -/
  | rLine
  /-- port not in the map, or write to `KBD_PORT` (R71, R204) -/
  | rPort
  /-- display-memory access out of range or misaligned (R63 to R66, R68) -/
  | rMem
  /-- illegal operation word (R99) -/
  | rEnc
  /-- `PROCESS` with a KeyId no table produces (R215) -/
  | rKeyId
  /-- `UNLOCK` of a lock that is `Free` (R294) -/
  | rLock
  deriving DecidableEq, Repr

/-- R322: "`kind` fault: the hardware itself would misbehave. `kind` refusal: the spec gives the situation no meaning". -/
inductive StopKind where
  | fault
  | refusal
  deriving DecidableEq, Repr

/-- R210: "A KeyEvent is the pair `(k, st)`". -/
structure KeyEvent where
  key : KeyId
  st : KeyState
  deriving DecidableEq, Repr

/-- R14, R391: the value a step returns to its issuer. -/
inductive Result where
  /-- of `IOR` and `MR8` -/
  | byte (b : Byte)
  /-- of `MR16` -/
  | half (h : Half)
  /-- of `ADDBYTE` -/
  | keyEvent (e : Option KeyEvent)
  /-- of `PROCESS` -/
  | decoded (d : Option DecodedKey)
  deriving DecidableEq, Repr

/-- R14, R390(c): why an operation is not enabled. -/
inductive Blocked where
  /-- a mainline operation while a handler is entered (R24, R286) -/
  | handlerEntered
  /-- any CPU operation after the double-fault halt (R24, R152) -/
  | halted
  /-- a mainline operation while the CPU waits in `HLT` (R292) -/
  | waiting
  /-- an operation or handler body that needs a lock mainline holds (R298) -/
  | lockHeld (r : Resource)
  /-- `KEY` while the keyboard buffer is full (R203) -/
  | bufferFull
  /-- `INTA` with `IF = 0` (R296) -/
  | interruptsMasked
  /-- `INTA` with nothing to deliver (R296) -/
  | noInterrupt
  /-- `HRUN` with no handler entered (R297) -/
  | noHandler
  /-- `HRUN` with the default entry entered, which never happens (R154, R297) -/
  | unhandledEntered
  deriving DecidableEq, Repr

/-- Why the machine goes no further. All are safe: no claim follows from a step that does not happen. -/
inductive Fault where
  /-- raised by every step from a state stopped for a reason of kind fault (R39, R322). Safe. -/
  | stopped (r : StopReason)
  /-- raised by an operation that is not enabled: R14's third outcome, a stuck state (log 5). Safe. -/
  | notEnabled (why : Blocked)
  /-- raised by a step when every unit of the program has been applied: the run has ended (R390, log 6). Safe. -/
  | programEnd
  deriving DecidableEq, Repr

/-- What has no meaning. All are safe. -/
inductive Refusal where
  /-- raised by the arm of an instruction that has no meaning yet. Safe. -/
  | notModelled (mnemonic : String)
  /-- raised by every step from a state stopped for a reason of kind refusal (R39, R322). Safe. -/
  | stopped (r : StopReason)
  deriving DecidableEq, Repr

/-! ## The state record -/

/-- R20: the machine state `S`, every field of its table, and after them the model's own fields: the parameters of the step
relation (`cfg`, `prog`), the counter of the free values, and the value the last step returned (log 1, 7, 8, 13). -/
structure State where
  cpu : Cpu
  ivt : Vector Entry 256
  ivtBuilt : Bool
  idtActive : Bool
  master : Pic
  slave : Pic
  kbd : Kbd
  mem : Memory
  writer : Writer
  locks : Locks
  diag : List DiagRecord
  iolog : List IoEvent
  stop : Option StopReason
  cfg : Config
  prog : List BusUnit
  draws : Nat
  result : Option Result
  deriving DecidableEq, Repr

/-! ## Reset -/

/-- R44: the values "unspecified" at reset, "an arbitrary value, fixed at reset, over which every claim must quantify": the
context words, the flag bits other than `IF`, the table before `BUILD`, the controllers' registers. (The display memory's
are `Config.freeCellByte`.) -/
structure Launch where
  ip : XWord
  sp : XWord
  flags : XWord
  ivt : Vector Entry 256
  master : Pic
  slave : Pic
  deriving DecidableEq, Repr

/-- R22: a word has `XLEN` bits. -/
def fitsXlen (cfg : Config) (w : XWord) : Prop := w < 2 ^ cfg.xlen

/-- R22: the launch values of the context words have `XLEN` bits. -/
def Launch.wordsFit (cfg : Config) (l : Launch) : Prop :=
  fitsXlen cfg l.ip ∧ fitsXlen cfg l.sp ∧ fitsXlen cfg l.flags

/-- The flags word with bit `IF_BIT` at 0 (R44). -/
def flagsAtReset (cfg : Config) (flags : XWord) : XWord := setWordBit flags cfg.ifBit false

/-- R44: the reset state of the machine with parameters `cfg`, for the launch values `l`; no program is loaded. -/
def State.atReset (cfg : Config) (l : Launch) : State where
  cpu :=
    { ip := l.ip
      sp := l.sp
      flags := flagsAtReset cfg l.flags
      handler := none
      halted := false
      waiting := false }
  ivt := l.ivt
  ivtBuilt := false
  idtActive := false
  master := { l.master with init := .uninit }
  slave := { l.slave with init := .uninit }
  kbd :=
    { obuf := none
      dec :=
        { stage := .idle
          lshift := false
          rshift := false
          lctrl := false
          rctrl := false
          caps := false } }
  mem := []
  writer := { col := 0, color := cfg.initColor }
  locks := { writer := .free, kbd := .free, pic := .free }
  diag := []
  iolog := []
  stop := none
  cfg := cfg
  prog := []
  draws := 0
  result := none

/-- A controller's registers in the launch values the model names: all zero (log 10). -/
def Pic.zero : Pic := ⟨0#8, .uninit, 0#8, 0#8, 0#8, 0#8, 0#8⟩

/-- The launch values the model names where rule R44 says unspecified (log 10). -/
def Launch.zero : Launch where
  ip := 0
  sp := 0
  flags := 0
  ivt := Vector.replicate 256 ⟨.unhandled, none⟩
  master := Pic.zero
  slave := Pic.zero

/-- The machine right after reset: R44's table under the default profile. -/
def State.reset : State := State.atReset defaultProfile Launch.zero

end Sys2Proof.Machine
end

