-- ==== Sys2Proof/Machine/Flags.lean ====
section
/-! DEFINITION. Single bits (rule R287(f)) and the one flag the block has, the interrupt-enable flag `IF` (rule R23). -/

namespace Sys2Proof.Machine

open Sys2Proof

/-- R287(f): `v` with bit `i` set to `b`. -/
def setBit (v : BitVec w) (i : Nat) (b : Bool) : BitVec w :=
  if b then v ||| (1#w <<< i) else v &&& ~~~(1#w <<< i)

/-- R23: `IF` is bit `IF_BIT` of a flags word. -/
def flagIF (cfg : Config) (flags : XWord) : Bool := flags.testBit cfg.ifBit

/-- R23: the flags word with `IF` at `b`; "the other bits of `cpu.flags` are carried unchanged". -/
def withIF (cfg : Config) (flags : XWord) (b : Bool) : XWord := setWordBit flags cfg.ifBit b

/-- R23: the interrupt-enable flag of the CPU. -/
def State.IF (s : State) : Bool := flagIF s.cfg s.cpu.flags

/-- R290, R291: the state with `IF` at `b`. -/
def State.setIF (s : State) (b : Bool) : State :=
  { s with cpu := { s.cpu with flags := withIF s.cfg s.cpu.flags b } }

end Sys2Proof.Machine
end

