-- ==== Sys2Proof/Machine/Operands.lean ====
section
/-! DEFINITION. What the operands of an operation stand for (rules R98, R287): addresses of cells and bytes, ports and lines
of the controllers, cells and attributes, character bytes. -/

namespace Sys2Proof.Machine

open Sys2Proof

/-! ## Addresses of the display memory -/

/-- R61: `CellAddr(r, c) = FB_BASE + 2 * (r * FB_COLS + c)`. -/
def cellAddr (cfg : Config) (r c : Nat) : Nat := cfg.fbBase + Config.cellBytes * (r * Config.fbCols + c)

/-- R94: "`off` is the byte offset from `FB_BASE`; the address is `FB_BASE + off`". -/
def offAddr (cfg : Config) (off : BitVec 12) : Nat := cfg.fbBase + off.toNat

/-- R65, R66: `FB_BASE <= addr <= FB_BASE + 3999`. -/
def byteInRegion (cfg : Config) (addr : Nat) : Bool :=
  decide (cfg.fbBase ≤ addr ∧ addr ≤ cfg.fbBase + (Config.fbBytes - 1))

/-- R63, R64: `FB_BASE <= addr`, `addr + 1 <= FB_BASE + 3999`, and `addr - FB_BASE` even. -/
def halfInRegion (cfg : Config) (addr : Nat) : Bool :=
  decide (cfg.fbBase ≤ addr ∧ addr + 1 ≤ cfg.fbBase + (Config.fbBytes - 1) ∧ (addr - cfg.fbBase) % 2 = 0)

/-! ## Cells and attributes -/

/-- R110: the character byte, bits 7:0 of a cell. -/
def cellChar (v : Half) : Byte := v.extractLsb' 0 8

/-- R110: the attribute byte, bits 15:8 of a cell. -/
def cellAttr (v : Half) : Byte := v.extractLsb' 8 8

/-- R67, R287(e): `attribute ++ character`. -/
def mkCell (attr ch : Byte) : Half := attr ++ ch

/-- R111: "attribute byte = `(background << 4) | foreground`". -/
def mkAttr (bg fg : BitVec 4) : Byte := bg ++ fg

/-- R111: bits 3:0 of the attribute, the foreground colour index. -/
def attrForeground (a : Byte) : BitVec 4 := a.extractLsb' 0 4

/-- R111: bits 7:4 of the attribute, the background colour index. -/
def attrBackground (a : Byte) : BitVec 4 := a.extractLsb' 4 4

/-! ## Ports and lines of the controllers -/

/-- R161: the command port of a controller. -/
def cmdPort (cfg : Config) : Ctrl → Half
  | .master => cfg.pic1Cmd
  | .slave => cfg.pic2Cmd

/-- R161: the data port of a controller. -/
def dataPort (cfg : Config) : Ctrl → Half
  | .master => cfg.pic1Data
  | .slave => cfg.pic2Data

/-- R160: line `n` belongs to `pic[n div 8]`. -/
def lineCtrl (n : Fin 16) : Ctrl := if n.val < Config.nLine then .master else .slave

/-- R160: line `n` is input `n mod 8` of its controller. -/
def lineInput (n : Fin 16) : Fin 8 := ⟨n.val % 8, Nat.mod_lt _ (by decide)⟩

/-- R162: `Vector(c, i) = pic[c].offset + i`, 8 bits. -/
def lineVector (offset : Byte) (i : Fin 8) : Byte := offset + BitVec.ofNat 8 i.val

/-- R190: "integers, no wrap": `offset <= v` and `v < offset + 8`. -/
def inRange (offset v : Byte) : Bool := decide (offset.toNat ≤ v.toNat ∧ v.toNat < offset.toNat + 8)

/-- R186: `base >= 32`, `base <= 240`, `base mod 8 = 0`. -/
def baseOk (base : Byte) : Bool := decide (32 ≤ base.toNat ∧ base.toNat ≤ 240 ∧ base.toNat % 8 = 0)

/-- R172: `b[2:0] = 0` and `b >= 32`. -/
def offsetOk (b : Byte) : Bool := b.extractLsb' 0 3 == 0#3 && decide (32 ≤ b.toNat)

/-- The eight inputs of a controller, highest priority first (R164). -/
def inputs : List (Fin 8) := [0, 1, 2, 3, 4, 5, 6, 7]

/-- R176, R179: "the smallest `i` with bit `i` set". -/
def lowestSet (v : Byte) : Option (Fin 8) := inputs.find? fun i => v.getLsbD i.val

/-! ## Bytes of a character -/

/-- The byte with value `n`. -/
def byteOf (n : Nat) : Byte := BitVec.ofNat 8 n

/-- R205: "the UTF-8 encoding of the character `ch`, one to four bytes". -/
def utf8 (ch : Char) : List Byte :=
  let n := ch.toNat
  if n < 0x80 then [byteOf n]
  else if n < 0x800 then [byteOf (0xC0 + n / 64), byteOf (0x80 + n % 64)]
  else if n < 0x10000 then [byteOf (0xE0 + n / 4096), byteOf (0x80 + n / 64 % 64), byteOf (0x80 + n % 64)]
  else
    [byteOf (0xF0 + n / 262144), byteOf (0x80 + n / 4096 % 64), byteOf (0x80 + n / 64 % 64), byteOf (0x80 + n % 64)]

end Sys2Proof.Machine
end

