-- ==== Sys2Proof/Machine/Ops.lean ====
section
/-! DEFINITION. The named operations every meaning is written with: updates of one piece of the state, the three outcomes of
rule R14 and the enabling conditions, the display memory primitives of rule R13, taking an exception (rule R330) and
returning from one (rule R333). -/

namespace Sys2Proof.Machine

open Sys2Proof

/-- The outcome of a step (R14). -/
abbrev Out := Host.Outcome State Fault Refusal

namespace State

/-! ## Reading and writing one piece of the state -/

/-- R12: `pic[c]`. -/
def pic (s : State) : Ctrl → Pic
  | .master => s.master
  | .slave => s.slave

/-- R12: `pic[c] <- p`. -/
def setPic (s : State) (c : Ctrl) (p : Pic) : State :=
  match c with
  | .master => { s with master := p }
  | .slave => { s with slave := p }

/-- R42: the lock of resource `r`. -/
def lock (s : State) : Resource → LockState
  | .writer => s.locks.writer
  | .keyboard => s.locks.kbd
  | .pic => s.locks.pic

/-- R293, R294: lock `r` becomes `v`. -/
def setLock (s : State) (r : Resource) (v : LockState) : State :=
  match r with
  | .writer => { s with locks := { s.locks with writer := v } }
  | .keyboard => { s with locks := { s.locks with kbd := v } }
  | .pic => { s with locks := { s.locks with pic := v } }

/-- R38: `iolog <- iolog ++ [e]`. -/
def pushLog (s : State) (e : IoEvent) : State := { s with iolog := s.iolog ++ [e] }

/-- R37: `diag <- diag ++ [d]`. -/
def pushDiag (s : State) (d : DiagRecord) : State := { s with diag := s.diag ++ [d] }

/-- R14, R327: `stop(reason)`: "everything the operation did before that point stays in `S`". -/
def stopAt (s : State) (r : StopReason) : State := { s with stop := some r }

/-- R14: the value the step returns to its issuer. -/
def setResult (s : State) (v : Result) : State := { s with result := some v }

/-- The display memory becomes `m`. -/
def setMem (s : State) (m : Memory) : State := { s with mem := m }

/-- R41: `writer.col <- c`. -/
def setCol (s : State) (c : Nat) : State := { s with writer := { s.writer with col := c } }

/-- R34: `kbd.obuf <- b`. -/
def setObuf (s : State) (b : Option Byte) : State := { s with kbd := { s.kbd with obuf := b } }

/-- R35: `kbd.dec <- d`. -/
def setDec (s : State) (d : Decoder) : State := { s with kbd := { s.kbd with dec := d } }

/-- The CPU becomes `c`. -/
def setCpu (s : State) (c : Cpu) : State := { s with cpu := c }

/-- R327: `f` happens after what led to `s` unless that stopped: "nothing after it happens". -/
def andThen (s : State) (f : State → State) : State :=
  match s.stop with
  | none => f s
  | some _ => s

end State

/-! ## Stops and enabling conditions -/

/-- R322: the kind of a stop. -/
def StopReason.kind : StopReason → StopKind
  | .fUnhandled _ => .fault
  | .fTriple => .fault
  | .rNoTable => .fault
  | .rBootOrder => .refusal
  | .rTableActive => .refusal
  | .rNotBuilt => .refusal
  | .rReinit => .refusal
  | .rPicCmd => .refusal
  | .rBase => .refusal
  | .rLine => .refusal
  | .rPort => .refusal
  | .rMem => .refusal
  | .rEnc => .refusal
  | .rKeyId => .refusal
  | .rLock => .refusal

/-- R322: the spec's own number for a reason. -/
def StopReason.code : StopReason → Nat
  | .fUnhandled _ => 1
  | .fTriple => 2
  | .rNoTable => 3
  | .rBootOrder => 4
  | .rTableActive => 5
  | .rNotBuilt => 6
  | .rReinit => 7
  | .rPicCmd => 8
  | .rBase => 9
  | .rLine => 10
  | .rPort => 11
  | .rMem => 12
  | .rEnc => 13
  | .rKeyId => 14
  | .rLock => 15

/-- R39: no step happens from a stopped state; the outcome carries the reason under its kind (log 4). -/
def stoppedOutcome (r : StopReason) : Out :=
  match r.kind with
  | .fault => .fault (.stopped r)
  | .refusal => .refused (.stopped r)

/-- R14: `not enabled` (log 5). -/
def blocked (why : Blocked) : Out := .fault (.notEnabled why)

/-- R39: `k` unless the machine has stopped. -/
def whenRunning (s : State) (k : Out) : Out :=
  match s.stop with
  | none => k
  | some r => stoppedOutcome r

/-- R286: what keeps a running machine out of mainline, if anything. -/
def mainlineBlock (s : State) : Option Blocked :=
  if s.cpu.halted then some .halted
  else if s.cpu.handler.isSome then some .handlerEntered
  else if s.cpu.waiting then some .waiting
  else none

/-- R286: `k` where `Mainline(S)` holds. -/
def whenMainline (s : State) (k : Out) : Out :=
  whenRunning s (match mainlineBlock s with | none => k | some why => blocked why)

/-- R298: `k` where the lock of `r` is `Free`. -/
def whenFree (r : Resource) (s : State) (k : Out) : Out :=
  match s.lock r with
  | .free => k
  | .heldByMainline => blocked (.lockHeld r)

/-- R286: `Mainline(S)`. -/
abbrev State.Mainline (s : State) : Prop :=
  s.stop = none ∧ s.cpu.handler = none ∧ s.cpu.halted = false ∧ s.cpu.waiting = false

/-! ## Display memory -/

/-- The byte last written at `a`, `none` where no byte was written since reset: what an unlisted address reads as. -/
def Memory.read : Memory → Nat → Option Byte
  | [], _ => none
  | (x, b) :: m, a => if x = a then some b else Memory.read m a

/-- The memory with byte `v` at `a`, in the canonical form. -/
def Memory.write : Memory → Nat → Byte → Memory
  | [], a, v => [(a, v)]
  | (x, b) :: m, a, v =>
    if a < x then (a, v) :: (x, b) :: m
    else if a = x then (a, v) :: m
    else (x, b) :: Memory.write m a v

/-- The byte at address `a` of the display memory: the byte last written there, or the free value it holds at reset
(R45: "`fb` is the one unspecified value that rules do read"). -/
def fbByte (s : State) (a : Nat) : Byte :=
  match s.mem.read a with
  | some b => b
  | none => Config.freeCellByte (a - s.cfg.fbBase)

/-- R66: the byte at `a` becomes `v`. -/
def putByte (s : State) (a : Nat) (v : Byte) : State := s.setMem (s.mem.write a v)

/-- R67: the 16-bit value at `a`, little-endian. -/
def fbHalf (s : State) (a : Nat) : Half := mkCell (fbByte s (a + 1)) (fbByte s a)

/-- R67: the 16-bit value at `a` becomes `v`: bits 7:0 at `a`, bits 15:8 at `a + 1`. -/
def putHalf (s : State) (a : Nat) (v : Half) : State := putByte (putByte s a (cellChar v)) (a + 1) (cellAttr v)

/-- R12: `fb[r][c]`. -/
def fbCell (s : State) (r c : Nat) : Half := fbHalf s (cellAddr s.cfg r c)

/-- R12: `fb[r][c] <- v`. -/
def putCell (s : State) (r c : Nat) (v : Half) : State := putHalf s (cellAddr s.cfg r c) v

/-- R63: `MemRead(addr, 2)`; `none` where its precondition fails. -/
def memRead2 (s : State) (addr : Nat) : Option Half :=
  if halfInRegion s.cfg addr then some (fbHalf s addr) else none

/-- R64: `MemWrite(addr, 2, v)`. -/
def memWrite2 (s : State) (addr : Nat) (v : Half) : State :=
  if halfInRegion s.cfg addr then putHalf s addr v else s.stopAt .rMem

/-- R65: `MemRead(addr, 1)`; `none` where its precondition fails. -/
def memRead1 (s : State) (addr : Nat) : Option Byte :=
  if byteInRegion s.cfg addr then some (fbByte s addr) else none

/-- R66: `MemWrite(addr, 1, b)`. -/
def memWrite1 (s : State) (addr : Nat) (b : Byte) : State :=
  if byteInRegion s.cfg addr then putByte s addr b else s.stopAt .rMem

/-! ## Taking an exception and returning from one -/

/-- R135: the entry of vector `v`; "every vector has an entry, so a lookup never misses". -/
def State.entry (s : State) (v : Byte) : Entry := s.ivt[v.toNat]'(v.isLt)

/-- R22: the interrupted context. -/
def State.frame (s : State) : Frame := ⟨s.cpu.ip, s.cpu.sp, s.cpu.flags⟩

/-- R330: the state of the CPU right after the entry of handler `h`. -/
def enterHandler (s : State) (h : HandlerId) (code : Option XWord) : State :=
  s.setCpu
    { s.cpu with
      handler := some ⟨h, s.frame, code⟩
      flags := withIF s.cfg s.cpu.flags false
      waiting := false }

/-- R330: `TrapEntry(v, code)`, the stops in the order of rule R326. -/
def trapEntry (v : Byte) (code : Option XWord) (s : State) : State :=
  if s.idtActive = false then s.stopAt .rNoTable
  else if (s.entry v).handler = .unhandled then s.stopAt (.fUnhandled v)
  else if (s.entry v).stack.isSome && !s.cfg.altStackOk then s.stopAt .fTriple
  else enterHandler s (s.entry v).handler code

/-- R333: the trap return: "It restores exactly what entry saved." -/
def trapReturn (s : State) : State :=
  match s.cpu.handler with
  | none => s
  | some e =>
    s.setCpu { s.cpu with ip := e.frame.ip, sp := e.frame.sp, flags := e.frame.flags, handler := none }

end Sys2Proof.Machine
end

