-- ==== Sys2Proof/Machine/PicOps.lean ====
section
/-! DEFINITION. The controller pair (rules R160 to R192) and the port space (rules R60, R62, R280, R281): what a byte does at a
controller, resolution and acceptance, port reads and writes, the acknowledgment. -/

namespace Sys2Proof.Machine

open Sys2Proof

/-! ## A byte at a controller -/

/-- R171: ICW1. -/
def picIcw1 (c : Ctrl) (s : State) : State :=
  if (s.pic c).init = .uninit then
    s.setPic c { s.pic c with init := .waitIcw2, irr := 0#8, isr := 0#8, imr := 0#8 }
  else s.stopAt .rReinit

/-- R172: ICW2. -/
def picIcw2 (c : Ctrl) (b : Byte) (s : State) : State :=
  if offsetOk b then s.setPic c { s.pic c with offset := b, init := .waitIcw3 } else s.stopAt .rBase

/-- R173: ICW3. -/
def picIcw3 (c : Ctrl) (b : Byte) (s : State) : State :=
  if b = icw3Byte s.cfg c then s.setPic c { s.pic c with icw3 := b, init := .waitIcw4 } else s.stopAt .rPicCmd

/-- R174: ICW4. -/
def picIcw4 (c : Ctrl) (b : Byte) (s : State) : State :=
  if b = s.cfg.icw4Mode then s.setPic c { s.pic c with icw4 := b, init := .ready } else s.stopAt .rPicCmd

/-- R175: OCW1. -/
def picOcw1 (c : Ctrl) (b : Byte) (s : State) : State := s.setPic c { s.pic c with imr := b }

/-- R176: the in-service register after an end-of-interrupt: the highest-priority line in service leaves it. -/
def eoiIsr (isr : Byte) : Byte :=
  match lowestSet isr with
  | some q => setBit isr q.val false
  | none => isr

/-- R176: EOI. -/
def picEoi (c : Ctrl) (s : State) : State :=
  if (s.pic c).init = .ready then s.setPic c { s.pic c with isr := eoiIsr (s.pic c).isr } else s.stopAt .rPicCmd

/-- R170: a write to the command port of controller `c`. -/
def picCommand (c : Ctrl) (b : Byte) (s : State) : State :=
  if b = s.cfg.icw1Init then picIcw1 c s
  else if b = s.cfg.eoiCmd then picEoi c s
  else s.stopAt .rPicCmd

/-- R103, R172 to R175: a write to the data port of controller `c`. -/
def picData (c : Ctrl) (b : Byte) (s : State) : State :=
  match (s.pic c).init with
  | .uninit => s.stopAt .rPicCmd
  | .waitIcw2 => picIcw2 c b s
  | .waitIcw3 => picIcw3 c b s
  | .waitIcw4 => picIcw4 c b s
  | .ready => picOcw1 c b s

/-! ## Ports -/

/-- R280: `PortWrite(port, data)`: the log entry first, "even when the write then stops". -/
def portWrite (port : Half) (b : Byte) (s : State) : State :=
  if port = s.cfg.pic1Cmd then picCommand .master b (s.pushLog (.output port b))
  else if port = s.cfg.pic2Cmd then picCommand .slave b (s.pushLog (.output port b))
  else if port = s.cfg.pic1Data then picData .master b (s.pushLog (.output port b))
  else if port = s.cfg.pic2Data then picData .slave b (s.pushLog (.output port b))
  else (s.pushLog (.output port b)).stopAt .rPort

/-- R204: the byte a read of the keyboard data port gives: the buffered byte, or a draw. -/
def kbdByte (s : State) : Byte :=
  match s.kbd.obuf with
  | some b => b
  | none => Config.freeKbdByte s.draws

/-- R204: the state after such a read: the buffer is empty; a draw advances the model's own counter of free values. -/
def kbdTake (s : State) : State :=
  match s.kbd.obuf with
  | some _ => s.setObuf none
  | none => { s with draws := s.draws + 1 }

/-- R281: a read of the keyboard data port as a transaction, with its log entry. -/
def kbdRead (s : State) : State := (kbdTake s).pushLog (.input s.cfg.kbdPort (kbdByte s))

/-- R178: a read of the data port of controller `c`. -/
def picDataRead (c : Ctrl) (port : Half) (s : State) : State × Option Byte :=
  if (s.pic c).init = .ready then (s.pushLog (.input port (s.pic c).imr), some (s.pic c).imr)
  else (s.stopAt .rPicCmd, none)

/-- R281: `PortRead(port)`: the state after it and the byte; "when the read stops, nothing is appended". For a command port this is R281
over the words of R170, "In every case the transaction is first appended" (DEDUCED, log 24). -/
def portRead (port : Half) (s : State) : State × Option Byte :=
  if port = s.cfg.kbdPort then (kbdRead s, some (kbdByte s))
  else if port = s.cfg.pic1Data then picDataRead .master port s
  else if port = s.cfg.pic2Data then picDataRead .slave port s
  else if port = s.cfg.pic1Cmd || port = s.cfg.pic2Cmd then (s.stopAt .rPicCmd, none)
  else (s.stopAt .rPort, none)

/-! ## Requests, resolution, acceptance -/

/-- R177, R203: input `i` of controller `c` requests; latched only by a `Ready` controller. -/
def request (c : Ctrl) (i : Fin 8) (s : State) : State :=
  if (s.pic c).init = .ready then s.setPic c { s.pic c with irr := setBit (s.pic c).irr i.val true } else s

/-- R179: "exists q <= p with pic[c].isr[q] = 1": same or higher priority in service. -/
def inServiceUpTo (isr : Byte) (p : Fin 8) : Bool := inputs.any fun q => decide (q ≤ p) && isr.getLsbD q.val

/-- R179: the interrupt output of a controller whose requests are `effIrr`. -/
def intOutOf (p : Pic) (effIrr : Byte) : Option (Fin 8) :=
  if p.init = .ready then
    match lowestSet (effIrr &&& ~~~p.imr) with
    | none => none
    | some i => if inServiceUpTo p.isr i then none else some i
  else none

/-- R180: `EffIrr(c)`: the slave's own requests; the master's with bit `CASCADE_LINE` the slave's output. -/
def effIrr (s : State) : Ctrl → Byte
  | .slave => s.slave.irr
  | .master => setBit s.master.irr s.cfg.cascadeLine.val (intOutOf s.slave s.slave.irr).isSome

/-- R179: `IntOut(c)`. -/
def intOut (s : State) (c : Ctrl) : Option (Fin 8) := intOutOf (s.pic c) (effIrr s c)

/-- R181: the accepted input `i` of controller `c` goes in service and is no longer pending. -/
def takeLine (c : Ctrl) (i : Fin 8) (s : State) : State :=
  s.setPic c { s.pic c with isr := setBit (s.pic c).isr i.val true, irr := setBit (s.pic c).irr i.val false }

/-- R181: the master's cascade input goes in service; its request bit is not stored. -/
def takeCascade (s : State) : State :=
  s.setPic .master { s.master with isr := setBit s.master.isr s.cfg.cascadeLine.val true }

/-- R181: `Accept()` with the vector it returns; `none` where its precondition `IntOut(0) = some(p)` fails. -/
def accept (s : State) : Option (State × Byte) :=
  match intOut s .master with
  | none => none
  | some p =>
    if p ≠ s.cfg.cascadeLine then some (takeLine .master p s, lineVector s.master.offset p)
    else
      match intOut s .slave with
      | none => none
      | some ps => some (takeLine .slave ps (takeCascade s), lineVector s.slave.offset ps)

/-! ## Contract operations -/

/-- R185: the eight port writes of `PICINIT base`, in order. `base + 8` wraps to a byte only for a base of 248 or more, which
`PICINIT` refuses first (R186); as port writes (`expand`) the wrap is the model's choice (DESIGN CHOICE, log 27). -/
def picInitWrites (cfg : Config) (base : Byte) : List (Half × Byte) :=
  [(cfg.pic1Cmd, cfg.icw1Init), (cfg.pic2Cmd, cfg.icw1Init), (cfg.pic1Data, base), (cfg.pic2Data, base + 8#8),
   (cfg.pic1Data, icw3Byte cfg .master), (cfg.pic2Data, icw3Byte cfg .slave),
   (cfg.pic1Data, cfg.icw4Mode), (cfg.pic2Data, cfg.icw4Mode)]

/-- R327: port writes in order, none after a stop. -/
def portWrites (ws : List (Half × Byte)) (s : State) : State :=
  ws.foldl (fun s w => s.andThen (portWrite w.1 w.2)) s

/-- R190: the acknowledgments `ACK v` writes, the slave's first: zero, one or two port writes. -/
def ackWrites (s : State) (v : Byte) : List (Half × Byte) :=
  if inRange s.slave.offset v then [(s.cfg.pic2Cmd, s.cfg.eoiCmd), (s.cfg.pic1Cmd, s.cfg.eoiCmd)]
  else if inRange s.master.offset v then [(s.cfg.pic1Cmd, s.cfg.eoiCmd)]
  else []

/-- R190: `Ack(v)`. -/
def ackVector (v : Byte) (s : State) : State :=
  if s.master.init = .ready ∧ s.slave.init = .ready then portWrites (ackWrites s v) s else s.stopAt .rPicCmd

end Sys2Proof.Machine
end

