-- ==== Sys2Proof/Machine/Bus.lean ====
section
/-! DEFINITION. Meanings of the port primitives `IOW` and `IOR` (rules R280, R281). -/

namespace Sys2Proof.Machine

open Sys2Proof

/-- R280: `IOW port, data`. -/
def execIow (port : Half) (data : Byte) (s : State) : Out := whenMainline s (.next (portWrite port data s))

/-- R14: the state after a port read, with the byte it returned, if it did not stop. -/
def returnByte : State × Option Byte → State
  | (s, some b) => s.setResult (.byte b)
  | (s, none) => s

/-- R281: `IOR port`. -/
def execIor (port : Half) (s : State) : Out := whenMainline s (.next (returnByte (portRead port s)))

end Sys2Proof.Machine
end

