-- ==== Sys2Proof/Machine/ControllerPair.lean ====
section
/-! DEFINITION. Meanings of the contract commands `PICINIT` and `ACK` (rules R185, R186, R190). -/

namespace Sys2Proof.Machine

open Sys2Proof

/-- R185, R186: `PICINIT base`: the value check "before any port write", then the eight writes. -/
def execPicinit (base : Byte) (s : State) : Out :=
  whenMainline s (whenFree .pic s
    (if baseOk base then .next (portWrites (picInitWrites s.cfg base) s) else .next (s.stopAt .rBase)))

/-- R190: `ACK v`. -/
def execAck (v : Byte) (s : State) : Out := whenMainline s (whenFree .pic s (.next (ackVector v s)))

end Sys2Proof.Machine
end

