-- ==== Sys2Proof/Machine/CpuControl.lean ====
section
/-! DEFINITION. Meanings of `CLI`, `STI`, `HLT`, `LOCK`, `UNLOCK` (rules R290 to R294). -/

namespace Sys2Proof.Machine

open Sys2Proof

/-- R290: `CLI`. -/
def execCli (s : State) : Out := whenMainline s (.next (s.setIF false))

/-- R291: `STI`: the startup order is checked first. -/
def execSti (s : State) : Out :=
  whenMainline s
    (if s.idtActive = true ∧ s.master.init = .ready ∧ s.slave.init = .ready then .next (s.setIF true)
    else .next (s.stopAt .rBootOrder))

/-- R292: `HLT`. -/
def execHlt (s : State) : Out := whenMainline s (.next (s.setCpu { s.cpu with waiting := true }))

/-- R293: `LOCK r`: "not re-entrant". -/
def execLock (r : Resource) (s : State) : Out := whenMainline s (whenFree r s (.next (s.setLock r .heldByMainline)))

/-- R294: `UNLOCK r`. -/
def execUnlock (r : Resource) (s : State) : Out :=
  whenMainline s
    (if s.lock r = .heldByMainline then .next (s.setLock r .free) else .next (s.stopAt .rLock))

end Sys2Proof.Machine
end

