-- ==== Sys2Proof/Machine/Devices.lean ====
section
/-! DEFINITION. Meanings of the device events `IRQ` and `KEY` (rules R177, R203). They do not need mainline (R286). -/

namespace Sys2Proof.Machine

open Sys2Proof

/-- R177: `IRQ n`. "`n != CASCADE_LINE` ... and `n != 1` ...; otherwise `stop(R_LINE)`". -/
def execIrq (n : Fin 16) (s : State) : Out :=
  whenRunning s
    (if n.val = s.cfg.cascadeLine.val ∨ n.val = 1 then .next (s.stopAt .rLine)
    else .next (request (lineCtrl n) (lineInput n) s))

/-- R203: `KEY b`: the byte fills the buffer, and line 1 requests if the master is `Ready`. -/
def execKey (b : Byte) (s : State) : Out :=
  whenRunning s
    (match s.kbd.obuf with
    | some _ => blocked .bufferFull
    | none => .next (request .master 1 (s.setObuf (some b))))

end Sys2Proof.Machine
end

