-- ==== Sys2Proof/Machine/DisplayOps.lean ====
section
/-! DEFINITION. The display driver (rules R250 to R257): `Scroll` and `WriteByte`, each access one cell of two bytes at a
`CellAddr`. Every `CellAddr(r, c)` with `r < 25`, `c < 80` meets the preconditions of rules R63 and R64, so the accesses are
written as the effect those rules give (log 19). -/

namespace Sys2Proof.Machine

open Sys2Proof

/-- R255: one cell moves up: `x <- MemRead(CellAddr(r + 1, c), 2)`; `MemWrite(CellAddr(r, c), 2, x)`. -/
def copyCellUp (r : Nat) (s : State) (c : Nat) : State := putCell s r c (fbCell s (r + 1) c)

/-- R255: row `r` takes the content of row `r + 1`, columns ascending. -/
def copyRowUp (s : State) (r : Nat) : State := (List.range Config.fbCols).foldl (copyCellUp r) s

/-- R256: a blank cell, `(writer.color << 8) | BLANK_CHAR`. -/
def blankCell (s : State) : Half := mkCell s.writer.color s.cfg.blankChar

/-- R255: one cell of the last row becomes blank. -/
def blankLastCell (s : State) (c : Nat) : State := putCell s (Config.fbRows - 1) c (blankCell s)

/-- R255: rows 0 to 23, ascending, each take the content of the row below. -/
def copyRowsUp (s : State) : State := (List.range (Config.fbRows - 1)).foldl copyRowUp s

/-- R255: the last row becomes blank, columns ascending. -/
def blankLastRow (s : State) : State := (List.range Config.fbCols).foldl blankLastCell s

/-- R255: `Scroll()`. -/
def scroll (s : State) : State := (blankLastRow (copyRowsUp s)).setCol 0

/-- R251: "past the last column": scroll first. -/
def scrollIfFull (s : State) : State := if Config.fbCols ≤ s.writer.col then scroll s else s

/-- R252, R253: the glyph written for byte `b`. -/
def glyph (cfg : Config) (b : Byte) : Byte :=
  if cfg.printLo.toNat ≤ b.toNat ∧ b.toNat ≤ cfg.printHi.toNat then b else cfg.placeholder

/-- R251: the cell at (last row, cursor column) takes `g` in the current colour, and the cursor advances. -/
def putGlyph (s : State) (g : Byte) : State :=
  (putCell s (Config.fbRows - 1) s.writer.col (mkCell s.writer.color g)).setCol (s.writer.col + 1)

/-- R251: `WriteByte(b)`. -/
def writeByte (b : Byte) (s : State) : State :=
  if b = s.cfg.newline then scroll s else putGlyph (scrollIfFull s) (glyph s.cfg b)

/-- R258: "`write_string(s)` applies `write_byte` to each byte of the input", first to last. -/
def writeBytes (bs : List Byte) (s : State) : State := bs.foldl (fun s b => writeByte b s) s

end Sys2Proof.Machine
end

