-- ==== Sys2Proof/Machine/Display.lean ====
section
/-! DEFINITION. Meanings of the display commands `WRBYTE` and `SCROLL` (rules R251, R255, R259). -/

namespace Sys2Proof.Machine

open Sys2Proof

/-- R251: `WRBYTE b`. -/
def execWrbyte (b : Byte) (s : State) : Out := whenMainline s (whenFree .writer s (.next (writeByte b s)))

/-- R255: `SCROLL`. -/
def execScroll (s : State) : Out := whenMainline s (whenFree .writer s (.next (scroll s)))

end Sys2Proof.Machine
end

