-- ==== Sys2Proof/Machine/DisplayMemory.lean ====
section
/-! DEFINITION. Meanings of the display-memory primitives `MW16`, `MR16`, `MW8`, `MR8` (rules R282 to R285). -/

namespace Sys2Proof.Machine

open Sys2Proof

/-- R282: `MW16 off, data`. -/
def execMw16 (off : BitVec 12) (data : Half) (s : State) : Out :=
  whenMainline s (.next (memWrite2 s (offAddr s.cfg off) data))

/-- R283: `MR16 off`. -/
def execMr16 (off : BitVec 12) (s : State) : Out :=
  whenMainline s
    (match memRead2 s (offAddr s.cfg off) with
    | some h => .next (s.setResult (.half h))
    | none => .next (s.stopAt .rMem))

/-- R284: `MW8 off, data`. -/
def execMw8 (off : BitVec 12) (data : Byte) (s : State) : Out :=
  whenMainline s (.next (memWrite1 s (offAddr s.cfg off) data))

/-- R285: `MR8 off`. -/
def execMr8 (off : BitVec 12) (s : State) : Out :=
  whenMainline s
    (match memRead1 s (offAddr s.cfg off) with
    | some b => .next (s.setResult (.byte b))
    | none => .next (s.stopAt .rMem))

end Sys2Proof.Machine
end

