-- ==== Sys2Proof/Machine/KeyboardOps.lean ====
section
/-! DEFINITION. The keyboard decoder (rules R210 to R216) as functions of the decoder's state, and the bytes a decoded key is
shown as (rule R205). -/

namespace Sys2Proof.Machine

open Sys2Proof

/-- R211: the state a terminal or initial byte tags a key with. -/
def keyStateOf (b : Byte) : KeyState := if b.getLsbD 7 then .release else .press

/-- R211: the event of key code `c` by a first-stage table, if the table maps it. -/
def lookupKey (table : List (BitVec 7 × KeyId)) (b : Byte) : Option KeyEvent :=
  (table.lookup (b.extractLsb' 0 7)).map fun k => ⟨k, keyStateOf b⟩

/-- R211: `AddByte(b)`: the decoder's next state and the event, if any. -/
def addByte (cfg : Config) (d : Decoder) (b : Byte) : Decoder × Option KeyEvent :=
  match d.stage with
  | .idle =>
    if cfg.extPrefix.contains b then ({ d with stage := .awaitingContinuation }, none)
    else (d, lookupKey cfg.keyMap1 b)
  | .awaitingContinuation => ({ d with stage := .idle }, lookupKey cfg.keyMapExt b)

/-- R215: the KeyIds "that `KeyMap1` or `KeyMapExt` can produce". -/
def producible (cfg : Config) (k : KeyId) : Bool :=
  (List.range 128).any fun n =>
    cfg.keyMap1.lookup (BitVec.ofNat 7 n) == some k || cfg.keyMapExt.lookup (BitVec.ofNat 7 n) == some k

/-- R8, R225: the part key `k` plays; a key the table does not list has none. -/
def roleOf (cfg : Config) (k : KeyId) : ModRole :=
  match cfg.modRole.lookup k with
  | some r => r
  | none => .noRole

/-- R8, R228: `Layout(k, shift, caps)`; a key the table does not list is raw (R228(d)). -/
def layoutOf (cfg : Config) (k : KeyId) (shift caps : Bool) : DecodedKey :=
  match cfg.layout.lookup k with
  | none => .rawKey k
  | some row =>
    match shift, caps with
    | false, false => row.plain
    | true, false => row.shifted
    | false, true => row.capsed
    | true, true => row.shiftCaps

/-- R215: `Process((k, st))`: the decoder's next state and the decoded key, if any. -/
def processKey (cfg : Config) (d : Decoder) (e : KeyEvent) : Decoder × Option DecodedKey :=
  match roleOf cfg e.key with
  | .lshift => ({ d with lshift := e.st == .press }, none)
  | .rshift => ({ d with rshift := e.st == .press }, none)
  | .lctrl => ({ d with lctrl := e.st == .press }, none)
  | .rctrl => ({ d with rctrl := e.st == .press }, none)
  | .caps =>
    match e.st with
    | .press => ({ d with caps := !d.caps }, none)
    | .release => (d, none)
  | .noRole =>
    match e.st with
    | .release => (d, none)
    | .press => (d, some (layoutOf cfg e.key (d.lshift || d.rshift) d.caps))

/-- R8, R229: `KeyName(k)`; a key the table does not name has an empty name. -/
def keyNameOf (cfg : Config) (k : KeyId) : List Byte :=
  match cfg.keyName.lookup k with
  | some bs => bs
  | none => []

/-- R205: `Emit(d)`. -/
def emit (cfg : Config) : DecodedKey → List Byte
  | .unicode ch => utf8 ch
  | .rawKey k => keyNameOf cfg k

/-- R201: what the keyboard handler does with byte `b`: the decoder's next state and the bytes `out` for the display. -/
def decodeForDisplay (cfg : Config) (d : Decoder) (b : Byte) : Decoder × List Byte :=
  match addByte cfg d b with
  | (d1, none) => (d1, [])
  | (d1, some e) =>
    match processKey cfg d1 e with
    | (d2, none) => (d2, [])
    | (d2, some dk) => (d2, emit cfg dk)

end Sys2Proof.Machine
end

