-- ==== Sys2Proof/Machine/Keyboard.lean ====
section
/-! DEFINITION. Meanings of the decoder commands `ADDBYTE` and `PROCESS` (rules R211, R215). -/

namespace Sys2Proof.Machine

open Sys2Proof

/-- R211: `AddByte(b)` on the machine's decoder, its result returned to the issuer. -/
def addByteStep (b : Byte) (s : State) : State :=
  (s.setDec (addByte s.cfg s.kbd.dec b).1).setResult (.keyEvent (addByte s.cfg s.kbd.dec b).2)

/-- R211: `ADDBYTE b`. -/
def execAddbyte (b : Byte) (s : State) : Out := whenMainline s (whenFree .keyboard s (.next (addByteStep b s)))

/-- R215: `PROCESS k, st`. -/
def execProcess (k : KeyId) (st : KeyState) (s : State) : Out :=
  whenMainline s (whenFree .keyboard s
    (if producible s.cfg k then
      .next ((s.setDec (processKey s.cfg s.kbd.dec ⟨k, st⟩).1).setResult
        (.decoded (processKey s.cfg s.kbd.dec ⟨k, st⟩).2))
    else .next (s.stopAt .rKeyId)))

end Sys2Proof.Machine
end

