-- ==== Sys2Proof/Machine/HardwareBytes.lean ====
section
/-! DEFINITION. Meanings of the hardware's own bytes (rules R102 to R109, R113): a controller byte is the CPU's write of that
byte to the controller's port, with its log entry (rules R170, R280), and acts as the controller's position in its sequence
says (rules R100, R103); a scancode byte is given to the decoder's first stage and acts as the decoder's state says (rules
R113, R211). The decoder reads a byte as one of these instructions only where the state gives it that meaning; the meaning
itself is the byte's in every state (log 2). -/

namespace Sys2Proof.Machine

open Sys2Proof

/-- R170, R280: the transaction of byte `b` at the command port of controller `c`. -/
def logCommand (c : Ctrl) (b : Byte) (s : State) : State := s.pushLog (.output (cmdPort s.cfg c) b)

/-- R280: the transaction of byte `b` at the data port of controller `c`. -/
def logData (c : Ctrl) (b : Byte) (s : State) : State := s.pushLog (.output (dataPort s.cfg c) b)

/-- R103: byte `b` is written to the data port of controller `c`. -/
def writeData (c : Ctrl) (b : Byte) (s : State) : State := picData c b (logData c b s)

/-- R171: ICW1 at controller `c`. -/
def execIcw1 (c : Ctrl) (s : State) : Out := whenMainline s (.next (picIcw1 c (logCommand c s.cfg.icw1Init s)))

/-- R172: ICW2 at controller `c`, the offset `o ++ 000`. -/
def execIcw2 (c : Ctrl) (o : BitVec 5) (s : State) : Out := whenMainline s (.next (writeData c (offsetByte o) s))

/-- R173: the wiring byte at the master. -/
def execIcw3Master (s : State) : Out := whenMainline s (.next (writeData .master (icw3Byte s.cfg .master) s))

/-- R173: the wiring byte at the slave. -/
def execIcw3Slave (s : State) : Out := whenMainline s (.next (writeData .slave (icw3Byte s.cfg .slave) s))

/-- R174: the mode byte at controller `c`. -/
def execIcw4 (c : Ctrl) (s : State) : Out := whenMainline s (.next (writeData c s.cfg.icw4Mode s))

/-- R176: the end-of-interrupt command at controller `c`. -/
def execEoi (c : Ctrl) (s : State) : Out := whenMainline s (.next (picEoi c (logCommand c s.cfg.eoiCmd s)))

/-- R175: the mask byte at controller `c`. -/
def execOcw1 (c : Ctrl) (m : Byte) (s : State) : Out := whenMainline s (.next (writeData c m s))

/-- R113, R211: a byte of `EXT_PREFIX`. -/
def execScanPrefix (b : Byte) (s : State) : Out := whenMainline s (whenFree .keyboard s (.next (addByteStep b s)))

/-- R113, R211: a terminal scancode byte, the release bit above the key code. -/
def execScanKey (release : Bool) (code : BitVec 7) (s : State) : Out :=
  whenMainline s (whenFree .keyboard s (.next (addByteStep (scanByte release code) s)))

end Sys2Proof.Machine
end

