-- ==== Sys2Proof/Machine/Handlers.lean ====
section
/-! DEFINITION. The handler bodies `HRUN` runs (rules R151, R152, R200, R201) and the locks each one needs (rule R206). -/

namespace Sys2Proof.Machine

open Sys2Proof

/-- R151: the body of `H_BREAKPOINT`. -/
def breakpointBody (e : Entered) (s : State) : State := trapReturn (s.pushDiag (.breakpointReport e.frame))

/-- R152: the body of `H_DOUBLE_FAULT`: "this handler never returns". -/
def doubleFaultBody (e : Entered) (s : State) : State :=
  (s.pushDiag (.doubleFaultReport e.frame e.code)).setCpu { s.cpu with halted := true }

/-- R200: the body of `H_TIMER`. -/
def timerBody (s : State) : State :=
  (ackVector s.cfg.vecTimer (writeByte s.cfg.heartbeat s)).andThen trapReturn

/-- R201: the keyboard handler up to its acknowledgment: the port read, the two decoder stages, the output. -/
def keyboardOutput (s : State) : State :=
  writeBytes (decodeForDisplay s.cfg s.kbd.dec (kbdByte s)).2
    ((kbdRead s).setDec (decodeForDisplay s.cfg s.kbd.dec (kbdByte s)).1)

/-- R201: the body of `H_KEYBOARD`. -/
def keyboardBody (s : State) : State :=
  (ackVector s.cfg.vecKeyboard (keyboardOutput s)).andThen trapReturn

/-- R206: whether the keyboard handler needs the writer's lock: its output is not empty, or the byte is a draw. -/
def keyboardNeedsWriter (s : State) : Bool :=
  match s.kbd.obuf with
  | none => true
  | some b => !(decodeForDisplay s.cfg s.kbd.dec b).2.isEmpty

/-- R206: `Needs(h, S)`. -/
def needs (h : HandlerId) (s : State) : List Resource :=
  match h with
  | .unhandled => []
  | .breakpoint => []
  | .doubleFault => []
  | .timer => [.writer, .pic]
  | .keyboard => if keyboardNeedsWriter s then [.keyboard, .pic, .writer] else [.keyboard, .pic]

/-- R298: the first lock of a list that mainline holds. -/
def heldLock (s : State) (rs : List Resource) : Option Resource := rs.find? fun r => s.lock r == .heldByMainline

/-- R297: the body of the entered handler. -/
def runBody (e : Entered) (s : State) : Out :=
  match e.handler with
  | .unhandled => blocked .unhandledEntered
  | .breakpoint => .next (breakpointBody e s)
  | .doubleFault => .next (doubleFaultBody e s)
  | .timer => .next (timerBody s)
  | .keyboard => .next (keyboardBody s)

end Sys2Proof.Machine
end

