-- ==== Sys2Proof/Machine/TrapSteps.lean ====
section
/-! DEFINITION. Meanings of the dispatch steps `EXC`, `INTA`, `HRUN` (rules R295, R296, R297). -/

namespace Sys2Proof.Machine

open Sys2Proof

/-- R295: the code `TrapEntry` gets: `zext_XLEN(code)` for the double-fault vector, none otherwise. -/
def excCode (v code : Byte) : Option XWord := if v = Config.vecDf then some (zextByte code) else none

/-- R295: `EXC v, code`. -/
def execExc (v code : Byte) (s : State) : Out := whenMainline s (.next (trapEntry v (excCode v code) s))

/-- R296: `INTA`: `Accept()`, then `TrapEntry(v, none)`. "`cpu.waiting` may be true or false." -/
def execInta (s : State) : Out :=
  whenRunning s
    (if s.cpu.halted then blocked .halted
    else if s.cpu.handler.isSome then blocked .handlerEntered
    else if s.IF = false then blocked .interruptsMasked
    else
      match accept s with
      | none => blocked .noInterrupt
      | some (s', v) => .next (trapEntry v none s'))

/-- R297: `HRUN`: the body of the entered handler, as one atomic step. -/
def execHrun (s : State) : Out :=
  whenRunning s
    (match s.cpu.handler with
    | none => blocked .noHandler
    | some e =>
      if s.cpu.halted then blocked .halted
      else
        match heldLock s (needs e.handler s) with
        | some r => blocked (.lockHeld r)
        | none => runBody e s)

end Sys2Proof.Machine
end

