-- ==== Sys2Proof/Machine/VectorTable.lean ====
section
/-! DEFINITION. Meanings of `BUILD` and `ACTIVATE` (rules R131 to R133). -/

namespace Sys2Proof.Machine

open Sys2Proof

/-- R131: the table `BUILD` constructs: 256 default entries, then the four overrides in order. -/
def builtTable (cfg : Config) : Vector Entry 256 :=
  ((((Vector.replicate 256 ⟨.unhandled, none⟩).setIfInBounds Config.vecBp.toNat ⟨.breakpoint, none⟩).setIfInBounds
      Config.vecDf.toNat ⟨.doubleFault, some cfg.dfStackIndex⟩).setIfInBounds
      cfg.vecTimer.toNat ⟨.timer, none⟩).setIfInBounds
      cfg.vecKeyboard.toNat ⟨.keyboard, none⟩

/-- R131, R132: `BUILD`. -/
def execBuild (s : State) : Out :=
  whenMainline s
    (if s.idtActive then .next (s.stopAt .rTableActive)
    else .next { s with ivt := builtTable s.cfg, ivtBuilt := true })

/-- R133: `ACTIVATE`: the preconditions in the order rule R326 gives. -/
def execActivate (s : State) : Out :=
  whenMainline s
    (if s.ivtBuilt = false then .next (s.stopAt .rNotBuilt)
    else if s.IF then .next (s.stopAt .rBootOrder)
    else .next { s with idtActive := true })

end Sys2Proof.Machine
end

