-- ==== Sys2Proof/Machine/Dispatch.lean ====
section
/-! DEFINITION. What each instruction does: one arm per constructor of `Instr`. -/

namespace Sys2Proof.Machine

open Sys2Proof

def exec (i : Instr) (s : State) : Host.Outcome State Fault Refusal :=
  match i with
  | .iow port data => Sys2Proof.Machine.execIow port data s
  | .ior port => Sys2Proof.Machine.execIor port s
  | .mw16 off data => Sys2Proof.Machine.execMw16 off data s
  | .mr16 off => Sys2Proof.Machine.execMr16 off s
  | .mw8 off data => Sys2Proof.Machine.execMw8 off data s
  | .mr8 off => Sys2Proof.Machine.execMr8 off s
  | .irq n => Sys2Proof.Machine.execIrq n s
  | .key b => Sys2Proof.Machine.execKey b s
  | .exc v code => Sys2Proof.Machine.execExc v code s
  | .inta => Sys2Proof.Machine.execInta s
  | .hrun => Sys2Proof.Machine.execHrun s
  | .cli => Sys2Proof.Machine.execCli s
  | .sti => Sys2Proof.Machine.execSti s
  | .hlt => Sys2Proof.Machine.execHlt s
  | .lock r => Sys2Proof.Machine.execLock r s
  | .unlock r => Sys2Proof.Machine.execUnlock r s
  | .build => Sys2Proof.Machine.execBuild s
  | .activate => Sys2Proof.Machine.execActivate s
  | .picinit base => Sys2Proof.Machine.execPicinit base s
  | .ack v => Sys2Proof.Machine.execAck v s
  | .wrbyte b => Sys2Proof.Machine.execWrbyte b s
  | .scroll => Sys2Proof.Machine.execScroll s
  | .addbyte b => Sys2Proof.Machine.execAddbyte b s
  | .process k st => Sys2Proof.Machine.execProcess k st s
  | .icw1 c => Sys2Proof.Machine.execIcw1 c s
  | .icw2 c o => Sys2Proof.Machine.execIcw2 c o s
  | .icw3Master => Sys2Proof.Machine.execIcw3Master s
  | .icw3Slave => Sys2Proof.Machine.execIcw3Slave s
  | .icw4 c => Sys2Proof.Machine.execIcw4 c s
  | .eoi c => Sys2Proof.Machine.execEoi c s
  | .ocw1 c m => Sys2Proof.Machine.execOcw1 c m s
  | .scanPrefix b => Sys2Proof.Machine.execScanPrefix b s
  | .scanKey release code => Sys2Proof.Machine.execScanKey release code s

end Sys2Proof.Machine
end

