-- ==== Sys2Proof/Machine/Fetch.lean ====
section
/-! DEFINITION. How the next unit of the program is taken and read (rules R16, R99, R100, R390), and what a unit that is no
instruction does. -/

namespace Sys2Proof.Machine

open Sys2Proof

/-- R100: what the meaning of a hardware byte depends on. -/
def State.decodeCtx (s : State) : DecodeCtx := ⟨s.cfg, s.master.init, s.slave.init, s.kbd.dec.stage⟩

/-- The state with the hardware's state brought to a reading context (used by `withFetchWord` only, log 3). -/
def State.withCtx (s : State) (x : DecodeCtx) : State :=
  { s with
    master := { s.master with init := x.masterInit }
    slave := { s.slave with init := x.slaveInit }
    kbd := { s.kbd with dec := { s.kbd.dec with stage := x.stage } } }

/-- R390: the next unit of the program, and the state in which its instruction is applied: the unit is taken from the
program, and no value has been returned yet (log 1, log 7). -/
def fetch (s : State) : Option (BusUnit × State) :=
  match s.prog with
  | [] => none
  | u :: rest => some (u, { s with prog := rest, result := none })

/-- The stop a rejected unit makes (R99, R102, R103, R172). -/
def Reject.stop : Reject → StopReason
  | .illegalClass => .rEnc
  | .illegalSub => .rEnc
  | .mustBeZero => .rEnc
  | .badOperand => .rEnc
  | .notAdmitted => .rPicCmd
  | .badOffset => .rBase

/-- What a unit that is no instruction does: an illegal word stops (R99); a controller byte is written to its port like any
other and stops there (R170, R280). A scancode byte is never rejected (R113): it is always given to the decoder. -/
def rejectUnit (u : BusUnit) (r : Reject) (s : State) : Out :=
  match u with
  | .opWord _ => whenRunning s (.next (s.stopAt (Reject.stop r)))
  | .command c b => whenMainline s (.next ((logCommand c b s).stopAt (Reject.stop r)))
  | .data c b => whenMainline s (.next ((logData c b s).stopAt (Reject.stop r)))
  | .scan b => execAddbyte b s

/-- The program with unit `u` where the next unit is taken from. -/
def placeUnit (u : BusUnit) (prog : List BusUnit) : List BusUnit := u :: prog.drop 1

end Sys2Proof.Machine
end

