-- ==== Sys2Proof/Machine/Step.lean ====
section
/-! DEFINITION. One step: the next unit of the program is taken, decoded and run (rules R14, R390). -/

namespace Sys2Proof.Machine

open Sys2Proof

/-- One step of the machine. -/
def step (s : State) : Host.Outcome State Fault Refusal :=
  whenRunning s
    (match fetch s with
    | none => .fault .programEnd
    | some (u, s1) =>
      match decode s1.decodeCtx u with
      | .ok i => exec i s1
      | .error r => rejectUnit u r s1)

/-- `s` with the instruction of a table row (bits `w`, `nbits` of them) where `step` takes its next unit from. A hardware
byte's meaning depends on the hardware's state (R100), so that state is brought to the one that gives the byte the row's
meaning (log 3). -/
def State.withFetchWord (s : State) (nbits w : Nat) : State :=
  { s.withCtx (tableCtx nbits w s.decodeCtx) with prog := placeUnit (tableUnit s.cfg nbits w) s.prog }

end Sys2Proof.Machine
end

