-- ==== Sys2Proof/Machine/Asm.lean ====
section
/-! DEFINITION. The assembler syntax (rule R116): "One operation per line: the mnemonic in capitals, then its operands separated
by commas ... Numbers are decimal, or hexadecimal with `0x`. A parameter name ... may stand for its value. `;` starts a
comment." -/

namespace Sys2Proof.Machine

open Sys2Proof

/-- R116: the parameter names of rules R7 and R8 that stand for one number. -/
def paramValues (cfg : Config) : List (String × Nat) :=
  [("NVEC", Config.nVec), ("EXC_TOP", Config.excTop), ("VEC_BP", Config.vecBp.toNat), ("VEC_DF", Config.vecDf.toNat),
    ("IRQ_BASE", cfg.irqBase.toNat), ("VEC_TIMER", cfg.vecTimer.toNat), ("VEC_KEYBOARD", cfg.vecKeyboard.toNat),
    ("NCTRL", 2), ("NLINE", Config.nLine), ("FB_COLS", Config.fbCols), ("FB_ROWS", Config.fbRows),
    ("CELL_BYTES", Config.cellBytes), ("NCOLOUR", Config.nColour)] ++
  [("FB_BASE", cfg.fbBase), ("KBD_PORT", cfg.kbdPort.toNat), ("PIC1_CMD", cfg.pic1Cmd.toNat),
    ("PIC1_DATA", cfg.pic1Data.toNat), ("PIC2_CMD", cfg.pic2Cmd.toNat), ("PIC2_DATA", cfg.pic2Data.toNat),
    ("CASCADE_LINE", cfg.cascadeLine.val), ("ICW1_INIT", cfg.icw1Init.toNat), ("ICW4_MODE", cfg.icw4Mode.toNat),
    ("EOI_CMD", cfg.eoiCmd.toNat), ("PRINT_LO", cfg.printLo.toNat), ("PRINT_HI", cfg.printHi.toNat),
    ("NEWLINE", cfg.newline.toNat)] ++
  [("PLACEHOLDER", cfg.placeholder.toNat), ("BLANK_CHAR", cfg.blankChar.toNat), ("INIT_COLOR", cfg.initColor.toNat),
    ("HEARTBEAT", cfg.heartbeat.toNat), ("DF_STACK_INDEX", cfg.dfStackIndex), ("DF_CODE", cfg.dfCode),
    ("XLEN", cfg.xlen), ("IF_BIT", cfg.ifBit)]

/-- The value of a digit in base `base`. -/
def digit (base : Nat) (ch : Char) : Option Nat :=
  let v :=
    if '0' ≤ ch ∧ ch ≤ '9' then ch.toNat - 0x30
    else if 'a' ≤ ch ∧ ch ≤ 'f' then ch.toNat - 0x57
    else if 'A' ≤ ch ∧ ch ≤ 'F' then ch.toNat - 0x37
    else base
  if v < base then some v else none

/-- The value of a run of digits. -/
def digits (base : Nat) : Nat → List Char → Option Nat
  | acc, [] => some acc
  | acc, ch :: rest => (digit base ch).bind fun d => digits base (acc * base + d) rest

/-- R116: a number or a parameter name. -/
def operand (cfg : Config) : List Char → Option Nat
  | '0' :: 'x' :: ch :: rest => digits 16 0 (ch :: rest)
  | [] => none
  | ch :: rest =>
    match digits 10 0 (ch :: rest) with
    | some n => some n
    | none => ((paramValues cfg).find? fun p => p.1.toList == ch :: rest).map (·.2)

/-- The parts of a list of characters between commas. -/
def splitCommas : List Char → List (List Char)
  | [] => [[]]
  | ',' :: rest => [] :: splitCommas rest
  | ch :: rest =>
    match splitCommas rest with
    | [] => [[ch]]
    | part :: parts => (ch :: part) :: parts

/-- `n` as a `w`-bit operand, if it fits (R98: no operand is scaled, shifted or cut). -/
def fits (w n : Nat) : Option (BitVec w) := if n < 2 ^ w then some (BitVec.ofNat w n) else none

/-- R96: the resource with number `n`. -/
def resourceOfNat (n : Nat) : Option Resource := (fits 8 n).bind resourceOfByte

/-- R97: the key state with number `n`. -/
def keyStateOfNat : Nat → Option KeyState
  | 0 => some .press
  | 1 => some .release
  | _ => none

/-- R92 to R97: the operation with a mnemonic and operands, if its operands fit its word. -/
def assembleOp (mnemonic : String) (args : List Nat) : Option Instr :=
  match mnemonic, args with
  | "IOW", [p, d] => (fits 16 p).bind fun p => (fits 8 d).map fun d => .iow p d
  | "IOR", [p] => (fits 16 p).map .ior
  | "MW16", [o, d] => (fits 12 o).bind fun o => (fits 16 d).map fun d => .mw16 o d
  | "MR16", [o] => (fits 12 o).map .mr16
  | "MW8", [o, d] => (fits 12 o).bind fun o => (fits 8 d).map fun d => .mw8 o d
  | "MR8", [o] => (fits 12 o).map .mr8
  | "IRQ", [n] => (fits 4 n).map fun n => .irq n.toFin
  | "KEY", [b] => (fits 8 b).map .key
  | "EXC", [v, c] =>
    (fits 8 v).bind fun v => (fits 8 c).bind fun c => if excCodeOk v c then some (.exc v c) else none
  | "INTA", [] => some .inta
  | "HRUN", [] => some .hrun
  | "CLI", [] => some .cli
  | "STI", [] => some .sti
  | "HLT", [] => some .hlt
  | "LOCK", [r] => (resourceOfNat r).map .lock
  | "UNLOCK", [r] => (resourceOfNat r).map .unlock
  | "BUILD", [] => some .build
  | "ACTIVATE", [] => some .activate
  | "PICINIT", [b] => (fits 8 b).map .picinit
  | "ACK", [v] => (fits 8 v).map .ack
  | "WRBYTE", [b] => (fits 8 b).map .wrbyte
  | "SCROLL", [] => some .scroll
  | "ADDBYTE", [b] => (fits 8 b).map .addbyte
  | "PROCESS", [k, st] => (fits 8 k).bind fun k => (keyStateOfNat st).map fun st => .process k st
  | _, _ => none

/-- The characters without the blanks at their two ends. -/
def trimBlanks (cs : List Char) : List Char := ((cs.dropWhile (· == ' ')).reverse.dropWhile (· == ' ')).reverse

/-- R116: one line of a program. What a blank does R116 does not say: here blanks (the character 0x20) may stand before the
mnemonic, end it, and stand around each operand, and a blank inside an operand makes no operation (DESIGN CHOICE, log 26). -/
def assembleLine (cfg : Config) (line : String) : Option Instr :=
  let code := (line.toList.takeWhile (· != ';')).dropWhile (· == ' ')
  let mnemonic := code.takeWhile (· != ' ')
  let rest := trimBlanks (code.drop mnemonic.length)
  let parts := if rest.isEmpty then [] else (splitCommas rest).map trimBlanks
  (parts.mapM (operand cfg)).bind (assembleOp (String.ofList mnemonic))

end Sys2Proof.Machine
end

