-- ==== Sys2Proof/Machine/Pseudo.lean ====
section
/-! DEFINITION. The pseudo-operations (rules R118, R299, R258), which have no word of their own and expand to operations, and
the application of a list of operations in order (rule R390). `IRET` is "never written in a program": it is `trapReturn`. -/

namespace Sys2Proof.Machine

open Sys2Proof

/-- R118: a line of a program: an operation, or one of the pseudo-operations a program may write. -/
inductive Pseudo where
  /-- an operation with a word of its own -/
  | op (i : Instr)
  /-- `WRSTR "s"` -/
  | wrstr (bytes : List Byte)
  /-- `PICINIT base` as port writes -/
  | picinitWrites (base : Byte)
  /-- `ACK v` as port writes -/
  | ackWrites (v : Byte)
  /-- `TICK` -/
  | tick
  /-- `BREAK` -/
  | breakpoint
  /-- `DFAULT` -/
  | dfault
  /-- `WOI` with its body, in which a `WOI` may stand again ("nestable", R299) -/
  | woi (body : List Pseudo)
  deriving Repr

/-- R118, R190: what `ACK v` stands for. With both controllers `Ready` it is the port writes R190 gives. Otherwise R190 has no
write, a stop no list of `IOW` makes, and offsets that "must not be compared": there it stands for the operation `ACK v` itself,
so that "the two forms have the same effect on `S`". That is the model's choice (DESIGN CHOICE, log 27). -/
def expandAck (s : State) (v : Byte) : List Instr :=
  if s.master.init = .ready ∧ s.slave.init = .ready then (ackWrites s v).map fun w => .iow w.1 w.2 else [.ack v]

/-- R390: operations applied in order, up to the first outcome that is no next state. -/
def execAll : List Instr → State → Out
  | [], s => .next s
  | i :: is, s =>
    match exec i s with
    | .next s' => execAll is s'
    | .fault r => .fault r
    | .refused r => .refused r

/-- The state the same application comes to: the last one before an outcome that is no next state. -/
def reached : List Instr → State → State
  | [], s => s
  | i :: is, s =>
    match exec i s with
    | .next s' => reached is s'
    | .fault _ => s
    | .refused _ => s

mutual

/-- R118, R299: the operations one line of a program stands for in state `s` (`WOI` reads `IF`, `ACK` the controllers).
`PICINIT` stands for its eight writes whatever the base, `base + 8` as a byte (DESIGN CHOICE, log 27); `DFAULT` carries the low 8
bits of `DF_CODE` (R96, log 25). The body of `WOI` is what it stands for after the `CLI`, so "each level restores the value it
read". -/
def expand (s : State) : Pseudo → List Instr
  | .op i => [i]
  | .wrstr bytes => bytes.map .wrbyte
  | .picinitWrites base => (picInitWrites s.cfg base).map fun w => .iow w.1 w.2
  | .ackWrites v => expandAck s v
  | .tick => [.irq 0]
  | .breakpoint => [.exc Config.vecBp 0#8]
  | .dfault => [.exc Config.vecDf (lowByte s.cfg.dfCode)]
  | .woi body => .cli :: expandAll (reached [.cli] s) body ++ if s.IF then [.sti] else []
termination_by structural p => p

/-- R118, R16: the operations the lines of a program stand for, each line in the state the lines before it come to. -/
def expandAll (s : State) : List Pseudo → List Instr
  | [] => []
  | p :: ps => expand s p ++ expandAll (reached (expand s p) s) ps
termination_by structural ps => ps

end

end Sys2Proof.Machine
end

