-- ==== Sys2Proof/Machine/Screen.lean ====
section
/-! DEFINITION. What the display shows (rule R80): the observation of the framebuffer, and the palette (rules R111, R112).
The display scan-out takes no step that changes state (R10, R75). -/

namespace Sys2Proof.Machine

open Sys2Proof

/-- R112: the palette in index order. "No rule depends on a name" (the names are "[from general knowledge, not in source]"). -/
inductive Colour where
  | black
  | blue
  | green
  | cyan
  | red
  | magenta
  | brown
  | lightGray
  | darkGray
  | lightBlue
  | lightGreen
  | lightCyan
  | lightRed
  | pink
  | yellow
  | white
  deriving DecidableEq, Repr

/-- R112: the colour of a palette index. -/
def paletteColour (i : BitVec 4) : Colour :=
  [Colour.black, .blue, .green, .cyan, .red, .magenta, .brown, .lightGray, .darkGray, .lightBlue, .lightGreen, .lightCyan,
    .lightRed, .pink, .yellow].getD i.toNat .white

/-- R80: one cell as the display renders it: the glyph of its character byte in the foreground colour on the background
colour. -/
structure ShownCell where
  glyph : Byte
  foreground : BitVec 4
  background : BitVec 4
  deriving DecidableEq, Repr

/-- R80: how a cell's 16 bits are shown. -/
def showCell (v : Half) : ShownCell := ⟨cellChar v, attrForeground (cellAttr v), attrBackground (cellAttr v)⟩

/-- R80: `screen(S) = fb`, the cell shown at row `r`, column `c`. -/
def screen (s : State) (r c : Nat) : ShownCell := showCell (fbCell s r c)

end Sys2Proof.Machine
end

