-- ==== Sys2Proof/Safety.lean ====
section
/-! DEFINITION. The terms claims are stated in: how a run ends (rule R390), the states a run can reach, and the properties
of those states the spec states (rules R24, R27, R28, R30, R260, R335, R382). -/

namespace Sys2Proof.Machine

open Sys2Proof

/-! ## How a run ends (R390) -/

/-- R390(a): "this and only this is a final state". -/
def State.Final (s : State) : Prop := s.prog = [] ∧ s.Mainline

/-- R390(b). -/
def State.Stopped (s : State) : Prop := s.stop ≠ none

/-- R390(c): the next unit is not enabled. A state with no next unit is never stuck here: with a handler entered or the CPU
waiting, which R390 calls non-final and puts in none of its four ways, it is in none of the four (DESIGN CHOICE, log 6). -/
def State.Stuck (s : State) : Prop := ∃ why, step s = .fault (.notEnabled why)

/-- R390(d). A halted state whose next unit is not enabled is `Stuck` as well (DESIGN CHOICE, log 6). -/
def State.Halted (s : State) : Prop := s.stop = none ∧ s.cpu.halted = true

/-- R16, R390: the states of the runs, under parameters `cfg`, from a reset state with any launch values and any program. -/
inductive Reachable (cfg : Config) : State → Prop where
  | start (l : Launch) (p : List BusUnit) : l.wordsFit cfg → Reachable cfg { State.atReset cfg l with prog := p }
  | next (s s' : State) : Reachable cfg s → step s = .next s' → Reachable cfg s'

/-! ## Properties of the states of a run -/

/-- R61: every listed byte lies in the display memory region. -/
def memInRegion (s : State) : Prop := ∀ x ∈ s.mem, byteInRegion s.cfg x.1 = true

/-- R103, R172: a controller past its second byte holds an offset the second byte may carry. -/
def offsetsOk (s : State) : Prop :=
  ∀ c, (s.pic c).init ≠ .uninit → (s.pic c).init ≠ .waitIcw2 → offsetOk (s.pic c).offset = true

/-- R30: "Bit `CASCADE_LINE` of `pic[0].irr` is not stored". -/
def cascadeNotStored (s : State) : Prop :=
  s.master.init ≠ .uninit → s.master.irr.getLsbD s.cfg.cascadeLine.val = false

/-- R291, R372: the boot order has been met: the table is active and both controllers are `Ready`. -/
def booted (s : State) : Prop := s.idtActive = true ∧ s.master.init = .ready ∧ s.slave.init = .ready

/-- R22: the three words of a Frame have `XLEN` bits. -/
def Frame.wordsFit (cfg : Config) (f : Frame) : Prop := fitsXlen cfg f.ip ∧ fitsXlen cfg f.sp ∧ fitsXlen cfg f.flags

/-- R295: a saved code is an 8-bit code widened to `XLEN` bits (with `XLEN` below 8 there is nothing to widen: log 9). -/
def codeFits (cfg : Config) (c : XWord) : Prop := c < 2 ^ max 8 cfg.xlen

/-- R22, R24: the words of the context, of the saved Frame and the saved code have `XLEN` bits. -/
def wordsFit (s : State) : Prop :=
  Frame.wordsFit s.cfg ⟨s.cpu.ip, s.cpu.sp, s.cpu.flags⟩ ∧
  ∀ e, s.cpu.handler = some e → Frame.wordsFit s.cfg e.frame ∧ ∀ c, e.code = some c → codeFits s.cfg c

/-- What holds of every state of a run: the memory's canonical form; R260(a), R260(d); the table of R131 once built, built
before it is active (R130); R24, R335: a handler is entered masked, through an active table, and is never the default
entry (R154); the fatal halt keeps its handler entered (R152); `IF` is 1 only once booted, now (R291) and at the
interrupted point (R330); every context word has `XLEN` bits (R22). -/
structure MachineInv (s : State) : Prop where
  memWf : s.mem.wf
  memRegion : memInRegion s
  colLe : s.writer.col ≤ Config.fbCols
  color : s.writer.color = s.cfg.initColor
  table : s.ivtBuilt = true → s.ivt = builtTable s.cfg
  activeBuilt : s.idtActive = true → s.ivtBuilt = true
  offsets : offsetsOk s
  cascade : cascadeNotStored s
  masked : s.cpu.handler ≠ none → s.IF = false
  enteredActive : s.cpu.handler ≠ none → s.idtActive = true
  enteredHandled : ∀ e, s.cpu.handler = some e → e.handler ≠ .unhandled
  haltedEntered : s.cpu.halted = true → ∃ e, s.cpu.handler = some e ∧ e.handler = .doubleFault
  enteredAwake : s.cpu.handler ≠ none → s.cpu.waiting = false
  enabledBooted : s.IF = true → booted s
  frameBooted : ∀ e, s.cpu.handler = some e → flagIF s.cfg e.frame.flags = true → booted s
  words : wordsFit s

/-! ## Which lines are in service (R382) -/

/-- No initialised controller has a line in service. -/
def noneInService (s : State) : Prop := ∀ c, (s.pic c).init ≠ .uninit → (s.pic c).isr = 0#8

/-- The byte with only bit `i` set. -/
def bit8 (i : Fin 8) : Byte := 1#8 <<< i.val

/-- Just the line with vector `v` is in service, on the master or through the cascade (R181), or none is (R295: an
exception with a device vector has no in-service bit). -/
def onlyInService (s : State) (v : Byte) : Prop :=
  noneInService s ∨
  (∃ i, i ≠ s.cfg.cascadeLine ∧ s.master.isr = bit8 i ∧ s.slave.isr = 0#8 ∧ lineVector s.master.offset i = v) ∨
  (∃ i, s.master.isr = bit8 s.cfg.cascadeLine ∧ s.slave.isr = bit8 i ∧ lineVector s.slave.offset i = v)

/-- The lines that may be in service while handler `h` is entered. -/
def serviceOf (s : State) : HandlerId → Prop
  | .timer => onlyInService s s.cfg.vecTimer
  | .keyboard => onlyInService s s.cfg.vecKeyboard
  | .unhandled => noneInService s
  | .breakpoint => noneInService s
  | .doubleFault => noneInService s

/-- R382: "in every reachable state with `stop = none` and `cpu.handler = none`, `pic[0].isr = pic[1].isr = 0` for every
controller that is `Ready`", and what holds of the handler in between. -/
def ServiceInv (s : State) : Prop :=
  s.stop = none →
    match s.cpu.handler with
    | none => noneInService s
    | some e => serviceOf s e.handler

/-! ## Illegal words (R99) -/

/-- R99, condition by condition: class; then, by format, the fields that must be 0 and the operands that are illegal. -/
def illegalWord (w : Word) : Prop :=
  w.extractLsb 31 28 = 0x0#4 ∨ 0xA ≤ (w.extractLsb 31 28).toNat ∨
  ((w.extractLsb 31 28 = 0x1#4 ∨ w.extractLsb 31 28 = 0x2#4) ∧ w.extractLsb 27 24 ≠ 0#4) ∨
  (w.extractLsb 31 28 = 0x2#4 ∧ w.extractLsb 7 0 ≠ 0#8) ∨
  ((w.extractLsb 31 28 = 0x4#4 ∨ w.extractLsb 31 28 = 0x6#4) ∧ w.extractLsb 15 0 ≠ 0#16) ∨
  (w.extractLsb 31 28 = 0x5#4 ∧ w.extractLsb 15 8 ≠ 0#8) ∨
  ((w.extractLsb 31 28 = 0x7#4 ∨ w.extractLsb 31 28 = 0x8#4 ∨ w.extractLsb 31 28 = 0x9#4) ∧
    w.extractLsb 23 16 ≠ 0#8) ∨
  (w.extractLsb 31 28 = 0x7#4 ∧
    (1 < (w.extractLsb 27 24).toNat ∨ w.extractLsb 15 8 ≠ 0#8 ∨
      (w.extractLsb 27 24 = 0x0#4 ∧ 15 < (w.extractLsb 7 0).toNat))) ∨
  (w.extractLsb 31 28 = 0x8#4 ∧
    (7 < (w.extractLsb 27 24).toNat ∨
      (w.extractLsb 27 24 = 0x0#4 ∧ w.extractLsb 15 8 ≠ 0#8 ∧ w.extractLsb 7 0 ≠ 8#8) ∨
      (w.extractLsb 27 24 ≠ 0x0#4 ∧ w.extractLsb 15 8 ≠ 0#8) ∨
      (1 ≤ (w.extractLsb 27 24).toNat ∧ (w.extractLsb 27 24).toNat ≤ 5 ∧ w.extractLsb 7 0 ≠ 0#8) ∨
      (6 ≤ (w.extractLsb 27 24).toNat ∧ 2 < (w.extractLsb 7 0).toNat))) ∨
  (w.extractLsb 31 28 = 0x9#4 ∧
    (7 < (w.extractLsb 27 24).toNat ∨
      ((w.extractLsb 27 24).toNat < 7 ∧ w.extractLsb 15 8 ≠ 0#8) ∨
      ((w.extractLsb 27 24 = 0x0#4 ∨ w.extractLsb 27 24 = 0x1#4 ∨ w.extractLsb 27 24 = 0x5#4) ∧
        w.extractLsb 7 0 ≠ 0#8) ∨
      (w.extractLsb 27 24 = 0x7#4 ∧ w.extractLsb 15 9 ≠ 0#7)))

/-! ## Who may run when (R286) -/

/-- R286: the operations that belong to mainline; a hardware byte is the CPU's own access or the decoder's, in mainline
(log 2). Device events and the two dispatch steps `INTA` and `HRUN` have conditions of their own. -/
def mainlineOp : Instr → Bool
  | .irq _ => false
  | .key _ => false
  | .inta => false
  | .hrun => false
  | .iow _ _ => true
  | .ior _ => true
  | .mw16 _ _ => true
  | .mr16 _ => true
  | .mw8 _ _ => true
  | .mr8 _ => true
  | .exc _ _ => true
  | .cli => true
  | .sti => true
  | .hlt => true
  | .lock _ => true
  | .unlock _ => true
  | .build => true
  | .activate => true
  | .picinit _ => true
  | .ack _ => true
  | .wrbyte _ => true
  | .scroll => true
  | .addbyte _ => true
  | .process _ _ => true
  | .icw1 _ => true
  | .icw2 _ _ => true
  | .icw3Master => true
  | .icw3Slave => true
  | .icw4 _ => true
  | .eoi _ => true
  | .ocw1 _ _ => true
  | .scanPrefix _ => true
  | .scanKey _ _ => true

/-- A device event, which no CPU state keeps from happening (R177, R203). -/
def deviceEvent (i : Instr) : Prop := (∃ n, i = .irq n) ∨ ∃ b, i = .key b

/-! ## The frame of each instruction -/

/-- The parts of the state an instruction can change, beside `stop`. -/
inductive StatePart where
  | cpu
  | table
  | tableActive
  | controllers
  | keyboardBuffer
  | decoder
  | memory
  | cursor
  | locks
  | diag
  | iolog
  | result
  deriving DecidableEq, Repr

/-- StatePart `p` reads the same in `t` as in `s`; the memory byte by byte. -/
def sameIn (s t : State) : StatePart → Prop
  | .cpu => t.cpu = s.cpu
  | .table => t.ivt = s.ivt ∧ t.ivtBuilt = s.ivtBuilt
  | .tableActive => t.idtActive = s.idtActive
  | .controllers => t.master = s.master ∧ t.slave = s.slave
  | .keyboardBuffer => t.kbd.obuf = s.kbd.obuf ∧ t.draws = s.draws
  | .decoder => t.kbd.dec = s.kbd.dec
  | .memory => t.mem = s.mem ∧ ∀ a, fbByte t a = fbByte s a
  | .cursor => t.writer.col = s.writer.col
  | .locks => t.locks = s.locks
  | .diag => t.diag = s.diag
  | .iolog => t.iolog = s.iolog
  | .result => t.result = s.result

/-- The parts each instruction may change, by the rule of the instruction. -/
def writes : Instr → List StatePart
  | .iow _ _ => [.controllers, .iolog]
  | .ior _ => [.keyboardBuffer, .iolog, .result]
  | .mw16 _ _ => [.memory]
  | .mr16 _ => [.result]
  | .mw8 _ _ => [.memory]
  | .mr8 _ => [.result]
  | .irq _ => [.controllers]
  | .key _ => [.keyboardBuffer, .controllers]
  | .exc _ _ => [.cpu]
  | .inta => [.cpu, .controllers]
  | .hrun => [.cpu, .controllers, .keyboardBuffer, .decoder, .memory, .cursor, .diag, .iolog]
  | .cli => [.cpu]
  | .sti => [.cpu]
  | .hlt => [.cpu]
  | .lock _ => [.locks]
  | .unlock _ => [.locks]
  | .build => [.table]
  | .activate => [.tableActive]
  | .picinit _ => [.controllers, .iolog]
  | .ack _ => [.controllers, .iolog]
  | .wrbyte _ => [.memory, .cursor]
  | .scroll => [.memory, .cursor]
  | .addbyte _ => [.decoder, .result]
  | .process _ _ => [.decoder, .result]
  | .icw1 _ => [.controllers, .iolog]
  | .icw2 _ _ => [.controllers, .iolog]
  | .icw3Master => [.controllers, .iolog]
  | .icw3Slave => [.controllers, .iolog]
  | .icw4 _ => [.controllers, .iolog]
  | .eoi _ => [.controllers, .iolog]
  | .ocw1 _ _ => [.controllers, .iolog]
  | .scanPrefix _ => [.decoder, .result]
  | .scanKey _ _ => [.decoder, .result]

/-! ## Taking an exception, in the spec's words (R330) -/

/-- R330: `t` is `s` after `TrapEntry(v, code)` has entered the handler of vector `v`: the Frame and the code saved, `IF` at
0, every other flag bit as it was, not waiting, and nothing else changed. -/
def Entered.intoFrom (s t : State) (v : Byte) (code : Option XWord) : Prop :=
  (t = { s with
    cpu :=
      { ip := s.cpu.ip
        sp := s.cpu.sp
        flags := t.cpu.flags
        handler := some ⟨(s.ivt[v.toNat]'(v.isLt)).handler, ⟨s.cpu.ip, s.cpu.sp, s.cpu.flags⟩, code⟩
        halted := s.cpu.halted
        waiting := false } }) ∧
  ∀ j, t.cpu.flags.testBit j = if j = s.cfg.ifBit then false else s.cpu.flags.testBit j

/-- R330, R326: `t` is `s` after `TrapEntry(v, code)`: one of the three stops, in their order, or the entry. -/
def trapOutcome (s t : State) (v : Byte) (code : Option XWord) : Prop :=
  if s.idtActive = false then t = { s with stop := some .rNoTable }
  else if (s.ivt[v.toNat]'(v.isLt)).handler = .unhandled then t = { s with stop := some (.fUnhandled v) }
  else if (s.ivt[v.toNat]'(v.isLt)).stack ≠ none ∧ s.cfg.altStackOk = false then t = { s with stop := some .fTriple }
  else Entered.intoFrom s t v code

/-- R333: the CPU after the trap return from the entered handler `e`. -/
def restoredCpu (s : State) (e : Entered) : Cpu :=
  { s.cpu with ip := e.frame.ip, sp := e.frame.sp, flags := e.frame.flags, handler := none }

/-! ## Bytes at a data port (R103) -/

/-- Instruction `i` writes byte `b` to the data port of controller `c`: the raw write, and each of the hardware's own bytes
whose value `b` is (R105, R106, R107, R109). -/
def writesData (cfg : Config) (c : Ctrl) (b : Byte) (i : Instr) : Prop :=
  i = .iow (dataPort cfg c) b ∨ i = .ocw1 c b ∨ (∃ o : BitVec 5, b = o ++ 0#3 ∧ i = .icw2 c o) ∨
  (c = .master ∧ b = 1#8 <<< cfg.cascadeLine.val ∧ i = .icw3Master) ∨
  (c = .slave ∧ b = BitVec.ofNat 8 cfg.cascadeLine.val ∧ i = .icw3Slave) ∨ (b = cfg.icw4Mode ∧ i = .icw4 c)

/-! ## The acknowledgment, in the spec's words (R190) -/

/-- R190: `v` is one of the eight vectors at `offset` ("integers, no wrap"). -/
abbrev vectorOf (offset v : Byte) : Prop := offset.toNat ≤ v.toNat ∧ v.toNat < offset.toNat + 8

/-- R190: the port writes of `Ack(v)` as they appear in `iolog`, "slave first". -/
def ackEvents (s : State) (v : Byte) : List IoEvent :=
  if vectorOf s.slave.offset v then [.output s.cfg.pic2Cmd s.cfg.eoiCmd, .output s.cfg.pic1Cmd s.cfg.eoiCmd]
  else if vectorOf s.master.offset v then [.output s.cfg.pic1Cmd s.cfg.eoiCmd]
  else []

/-- R190, R176: `s` after `Ack(v)` with both controllers `Ready`: the writes logged, and each controller written to has lost
its highest-priority line in service. -/
def acked (s : State) (v : Byte) : State :=
  { s with
    iolog := s.iolog ++ ackEvents s v
    slave := if vectorOf s.slave.offset v then { s.slave with isr := eoiIsr s.slave.isr } else s.slave
    master :=
      if vectorOf s.slave.offset v ∨ vectorOf s.master.offset v then { s.master with isr := eoiIsr s.master.isr }
      else s.master }

/-! ## Priority (R164) -/

/-- R164: the fifteen device lines from highest to lowest priority: the slave's eight take the place of the cascade input. -/
def lineOrder (cfg : Config) : List (Fin 16) :=
  ((List.finRange 16).filter fun n => decide (n.val < cfg.cascadeLine.val)) ++
  ((List.finRange 16).filter fun n => decide (8 ≤ n.val)) ++
  ((List.finRange 16).filter fun n => decide (cfg.cascadeLine.val < n.val ∧ n.val < 8))

/-- R324: line `n` is pending and not masked at its controller, nor, for a slave line, at the master's cascade input. -/
def linePending (s : State) (n : Fin 16) : Bool :=
  (s.pic (lineCtrl n)).irr.getLsbD (lineInput n).val && !(s.pic (lineCtrl n)).imr.getLsbD (lineInput n).val &&
    (decide (n.val < 8) || !s.master.imr.getLsbD s.cfg.cascadeLine.val)

/-! ## The decoder and its output, in the spec's words (R201, R205, R211, R215) -/

/-- R211, R212, R213: `AddByte(b)` takes the decoder from `d` to `d1` with the result `ev`. -/
def addsByte (cfg : Config) (d : Decoder) (b : Byte) (d1 : Decoder) (ev : Option KeyEvent) : Prop :=
  ∀ st : KeyState, st = (if b.getLsbD 7 = true then .release else .press) →
    (d.stage = .idle → b ∈ cfg.extPrefix → d1 = { d with stage := .awaitingContinuation } ∧ ev = none) ∧
    (d.stage = .idle → b ∉ cfg.extPrefix →
      d1 = d ∧ ev = (cfg.keyMap1.lookup (b.extractLsb 6 0)).map fun k => ⟨k, st⟩) ∧
    (d.stage = .awaitingContinuation →
      d1 = { d with stage := .idle } ∧ ev = (cfg.keyMapExt.lookup (b.extractLsb 6 0)).map fun k => ⟨k, st⟩)

/-- R8, R228: `dk` is `Layout(k, shift, caps)`: the column of the key's row, or the raw key where there is no row. -/
def laidOut (cfg : Config) (k : KeyId) (shift caps : Bool) (dk : DecodedKey) : Prop :=
  (cfg.layout.lookup k = none → dk = .rawKey k) ∧
  ∀ row, cfg.layout.lookup k = some row →
    (shift = false → caps = false → dk = row.plain) ∧ (shift = true → caps = false → dk = row.shifted) ∧
    (shift = false → caps = true → dk = row.capsed) ∧ (shift = true → caps = true → dk = row.shiftCaps)

/-- R215: `Process((k, st))`, for a key the tables produce, takes the decoder from `d` to `d1` with the result `r`. -/
def processesKey (cfg : Config) (d : Decoder) (e : KeyEvent) (d1 : Decoder) (r : Option DecodedKey) : Prop :=
  (cfg.modRole.lookup e.key = some .lshift → d1 = { d with lshift := decide (e.st = .press) } ∧ r = none) ∧
  (cfg.modRole.lookup e.key = some .rshift → d1 = { d with rshift := decide (e.st = .press) } ∧ r = none) ∧
  (cfg.modRole.lookup e.key = some .lctrl → d1 = { d with lctrl := decide (e.st = .press) } ∧ r = none) ∧
  (cfg.modRole.lookup e.key = some .rctrl → d1 = { d with rctrl := decide (e.st = .press) } ∧ r = none) ∧
  (cfg.modRole.lookup e.key = some .caps → e.st = .press → d1 = { d with caps := !d.caps } ∧ r = none) ∧
  (cfg.modRole.lookup e.key = some .caps → e.st = .release → d1 = d ∧ r = none) ∧
  ((cfg.modRole.lookup e.key = none ∨ cfg.modRole.lookup e.key = some .noRole) → e.st = .release → d1 = d ∧ r = none) ∧
  ((cfg.modRole.lookup e.key = none ∨ cfg.modRole.lookup e.key = some .noRole) → e.st = .press →
    d1 = d ∧ ∃ dk, r = some dk ∧ laidOut cfg e.key (d.lshift || d.rshift) d.caps dk)

/-- R205: `out` is `Emit(dk)`: the UTF-8 bytes of the character, or the name of the raw key (empty where `KeyName` lists
none, log 18). -/
def emits (cfg : Config) (dk : DecodedKey) (out : List Byte) : Prop :=
  (∀ ch, dk = .unicode ch → out = (String.utf8EncodeChar ch).map UInt8.toBitVec) ∧
  (∀ k name, dk = .rawKey k → cfg.keyName.lookup k = some name → out = name) ∧
  (∀ k, dk = .rawKey k → cfg.keyName.lookup k = none → out = [])

/-- R201: the keyboard handler's `b`, `AddByte`, `Process`, `Emit`: byte `b` takes the decoder from `d` to `d'` and `out` is
what goes to the display. -/
def keyShown (cfg : Config) (d : Decoder) (b : Byte) (d' : Decoder) (out : List Byte) : Prop :=
  ∃ d1 ev, addsByte cfg d b d1 ev ∧
    (ev = none → d' = d1 ∧ out = []) ∧
    ∀ e, ev = some e → ∃ r, processesKey cfg d1 e d' r ∧ (r = none → out = []) ∧ ∀ dk, r = some dk → emits cfg dk out

/-! ## The lock deadlock (R298, R383) -/

/-- R298: a handler is entered whose body needs a lock that mainline holds. (Where the keyboard buffer is empty the byte to
come may yet need no writer, so the writer's lock counts only for a byte that is there.) -/
def Deadlocked (s : State) : Prop :=
  s.stop = none ∧ ∃ e, s.cpu.handler = some e ∧
    ((e.handler = .timer ∧ (s.locks.writer = .heldByMainline ∨ s.locks.pic = .heldByMainline)) ∨
     (e.handler = .keyboard ∧
       (s.locks.kbd = .heldByMainline ∨ s.locks.pic = .heldByMainline ∨
         (s.locks.writer = .heldByMainline ∧
           ∃ b, s.kbd.obuf = some b ∧ (decodeForDisplay s.cfg s.kbd.dec b).2 ≠ []))))

end Sys2Proof.Machine
end

