-- ==== Sys2Proof/Certificates/Slice0/Obligations.lean ====
section
/-! DEFINITION. The statements about the model. Each says which rule of spec/ it formalises; a statement that rests on a choice
of the model names the log entry. Nothing is proved here. -/

open Sys2Proof Sys2Proof.Machine

/-! ## Fetching, decoding, encoding -/

/-- R16, R390: a step applies the operation the next unit of the program decodes to. Around it the model takes the unit from
the program and clears the returned value (log 1, log 7). -/
def Obligations.StepRunsDecodedInstruction : Prop :=
  ∀ (s : State) (u : BusUnit) (rest : List BusUnit) (i : Instr),
    s.stop = none → s.prog = u :: rest → decode s.decodeCtx u = .ok i →
      step s = exec i { s with prog := rest, result := none }

/-- R99: "An illegal word is `stop(R_ENC)`", and the illegal words are those the rule lists; every other word is an operation.
That it stops in every state that has not stopped, a handler entered, waiting or halted included, is log 11 (DEDUCED); that the
word is taken from the program and the returned value cleared is log 1 and log 7 (DESIGN CHOICE). -/
def Obligations.IllegalWordStops : Prop :=
  (∀ w : Word, (∃ r, decodeWord w = .error r) ↔ illegalWord w) ∧
  ∀ (s : State) (w : Word) (rest : List BusUnit),
    s.stop = none → s.prog = .opWord w :: rest → illegalWord w →
      step s = .next { s with prog := rest, result := none, stop := some .rEnc }

/-- Decoding reads what encoding wrote: every well-formed instruction, every operand, every context in which its unit has its
meaning (R90 to R97, R102 to R109, R113). -/
def Obligations.DecodeReadsEncode : Prop :=
  ∀ (x : DecodeCtx) (i : Instr),
    x.cfg.valid = true → i.wf x.cfg = true → readableIn x i = true → decode x (encode x.cfg i) = .ok i

/-- Encoding writes what decoding read: a unit is read as at most one well-formed instruction, and it is that instruction's own
unit, bit for bit ("every 32-bit word is either exactly one operation or illegal", R99). -/
def Obligations.EncodeReadsDecode : Prop :=
  ∀ (x : DecodeCtx) (u : BusUnit) (i : Instr),
    decode x u = .ok i → i.wf x.cfg = true ∧ readableIn x i = true ∧ encode x.cfg i = u

/-- Words of spec/95_test_vectors.md and of R92 to R97, one or more per class, and what they stand for. -/
def Obligations.DecodeSamples : Prop :=
  decodeWord 0x10002020#32 = .ok (.iow 0x20#16 0x20#8) ∧
  decodeWord 0x20006000#32 = .ok (.ior 0x60#16) ∧
  decodeWord 0x3F9E1234#32 = .ok (.mw16 0xF9E#12 0x1234#16) ∧
  decodeWord 0x4F000000#32 = .ok (.mr16 0xF00#12) ∧
  decodeWord 0x5001004F#32 = .ok (.mw8 0x001#12 0x4F#8) ∧
  decodeWord 0x6F9F0000#32 = .ok (.mr8 0xF9F#12) ∧
  decodeWord 0x7000000F#32 = .ok (.irq 15) ∧
  decodeWord 0x7100001E#32 = .ok (.key 0x1E#8) ∧
  decodeWord 0x80000508#32 = .ok (.exc 0x08#8 0x05#8) ∧
  decodeWord 0x86000002#32 = .ok (.lock .pic) ∧
  decodeWord 0x920000F8#32 = .ok (.picinit 0xF8#8) ∧
  decodeWord 0x970001C8#32 = .ok (.process 0xC8#8 .release) ∧
  decodeWord 0x80000103#32 = .error .badOperand ∧
  decodeWord 0x86000003#32 = .error .badOperand ∧
  decodeWord 0x90010000#32 = .error .mustBeZero

/-! ## The whole machine -/

/-- R39: "Once it is not `none` it never changes and no operation of any agent is enabled". That the answer carries the reason
under its kind (R322) is the model's form of it (log 4). -/
def Obligations.StoppedTakesNoStep : Prop :=
  ∀ (s : State) (r : StopReason), s.stop = some r →
    ((r = .fTriple ∨ r = .rNoTable ∨ ∃ v, r = .fUnhandled v) →
      step s = .fault (.stopped r) ∧ ∀ i, exec i s = .fault (.stopped r)) ∧
    (¬ (r = .fTriple ∨ r = .rNoTable ∨ ∃ v, r = .fUnhandled v) →
      step s = .refused (.stopped r) ∧ ∀ i, exec i s = .refused (.stopped r))

/-- R44: the reset state, whatever the parameters and the launch values, with no value assumed where the rule says
"unspecified". -/
def Obligations.ResetValues : Prop :=
  ∀ (cfg : Config) (l : Launch),
    (State.atReset cfg l).IF = false ∧
    (∀ j, j ≠ cfg.ifBit → (State.atReset cfg l).cpu.flags.testBit j = l.flags.testBit j) ∧
    (State.atReset cfg l).cpu.ip = l.ip ∧ (State.atReset cfg l).cpu.sp = l.sp ∧
    (State.atReset cfg l).Mainline ∧
    (State.atReset cfg l).ivt = l.ivt ∧
    (State.atReset cfg l).ivtBuilt = false ∧ (State.atReset cfg l).idtActive = false ∧
    (State.atReset cfg l).master = { l.master with init := .uninit } ∧
    (State.atReset cfg l).slave = { l.slave with init := .uninit } ∧
    (State.atReset cfg l).kbd = ⟨none, ⟨.idle, false, false, false, false, false⟩⟩ ∧
    (∀ o, fbByte (State.atReset cfg l) (cfg.fbBase + o) = Config.freeCellByte o) ∧
    (State.atReset cfg l).writer = ⟨0, cfg.initColor⟩ ∧
    (State.atReset cfg l).locks = ⟨.free, .free, .free⟩ ∧
    (State.atReset cfg l).diag = [] ∧ (State.atReset cfg l).iolog = [] ∧ (State.atReset cfg l).stop = none

/-- The invariant `MachineInv` (R24, R27, R28, R30, R131, R152, R154, R260, R291, R335) holds at reset, and so does `ServiceInv`
(R382), for every parameters, launch values and program. -/
def Obligations.InvariantsAtReset : Prop :=
  ∀ (cfg : Config) (l : Launch) (p : List BusUnit), l.wordsFit cfg →
    MachineInv { State.atReset cfg l with prog := p } ∧ ServiceInv { State.atReset cfg l with prog := p }

/-- Every step keeps `MachineInv`, under parameters that meet R9. -/
def Obligations.InvariantKeptByStep : Prop :=
  ∀ s t : State, s.cfg.valid = true → MachineInv s → step s = .next t → MachineInv t

/-- Every step keeps `ServiceInv`: no line is left in service by a handler that returned (R382). -/
def Obligations.ServiceInvariantKeptByStep : Prop :=
  ∀ s t : State, s.cfg.valid = true → MachineInv s → ServiceInv s → step s = .next t → ServiceInv t

/-- R382: "in every reachable state with `stop = none` and `cpu.handler = none`, `pic[0].isr = pic[1].isr = 0` for every
controller that is `Ready`." -/
def Obligations.NothingInServiceInMainline : Prop :=
  ∀ (cfg : Config) (s : State), cfg.valid = true → Reachable cfg s → s.stop = none → s.cpu.handler = none →
    ∀ c, (s.pic c).init = .ready → (s.pic c).isr = 0#8

/-- R20: the parameters "never change during a run"; R25: no operation writes `writer.color`. Of the program the model keeps
what is left (log 1). -/
def Obligations.ParametersNeverChange : Prop :=
  ∀ s t : State, step s = .next t → t.cfg = s.cfg ∧ t.writer.color = s.writer.color ∧ t.prog = s.prog.tail

/-- R27, R78, R132: the active table stays active and is never written. -/
def Obligations.ActiveTableImmutable : Prop :=
  ∀ s t : State, s.idtActive = true → step s = .next t →
    t.idtActive = true ∧ t.ivt = s.ivt ∧ t.ivtBuilt = s.ivtBuilt

/-- R286: the mainline operations are "enabled only when `Mainline(S)` holds"; "`IRQ` and `KEY` belong to devices and do not
need it". That the nine hardware bytes are mainline operations is the model's choice (log 2). -/
def Obligations.MainlineOnly : Prop :=
  (∀ (i : Instr) (s t : State), mainlineOp i = true → exec i s = .next t →
    s.stop = none ∧ s.cpu.handler = none ∧ s.cpu.halted = false ∧ s.cpu.waiting = false) ∧
  (∀ (s : State) (n : Fin 16), s.stop = none → ∃ t, exec (.irq n) s = .next t) ∧
  ∀ (s : State) (b : Byte), s.stop = none → s.kbd.obuf = none → ∃ t, exec (.key b) s = .next t

/-- R24, R335: "At most one handler is entered at any time": while one is, only `HRUN` and the device events happen, and they
leave it entered, halt with it, or return from it. -/
def Obligations.OneHandlerAtATime : Prop :=
  ∀ (i : Instr) (s t : State) (e : Entered), s.cpu.handler = some e → exec i s = .next t →
    (i = .hrun ∨ deviceEvent i) ∧
    (t.cpu = s.cpu ∨ t.cpu = { s.cpu with halted := true } ∨ t.cpu = restoredCpu s e)

/-- R334, which the spec marks as its own inference (derived from R333 and the bodies): "Interrupts are re-enabled only by the
return (through the restored flags) or by `STI` in mainline." -/
def Obligations.ReenabledOnlyByReturnOrSti : Prop :=
  ∀ (i : Instr) (s t : State), exec i s = .next t → s.IF = false → t.IF = true →
    (i = .sti ∧ s.Mainline) ∨ (i = .hrun ∧ ∃ e, s.cpu.handler = some e ∧ t.cpu = restoredCpu s e)

/-- R37, R38: the two logs are append-only. -/
def Obligations.LogsOnlyGrow : Prop :=
  ∀ s t : State, step s = .next t → (∃ l, t.iolog = s.iolog ++ l) ∧ ∃ l, t.diag = s.diag ++ l

/-- The frame of every instruction: a part of the state that the instruction's rule does not write reads the same after it, the
memory byte by byte; the parameters, the program and the writer's colour always do. -/
def Obligations.InstructionFrames : Prop :=
  ∀ (i : Instr) (s t : State), exec i s = .next t →
    (∀ p : StatePart, p ∉ writes i → sameIn s t p) ∧
    t.cfg = s.cfg ∧ t.prog = s.prog ∧ t.writer.color = s.writer.color

/-! ## Bytes at the controllers: as a raw port write and as the hardware's own bytes -/

/-- R171: ICW1, to a controller that is `Uninit`, and to one that is not. -/
def Obligations.Icw1Result : Prop :=
  ∀ (s : State) (c : Ctrl) (i : Instr), s.Mainline → s.cfg.valid = true →
    (i = .iow (cmdPort s.cfg c) s.cfg.icw1Init ∨ i = .icw1 c) →
    ((s.pic c).init = .uninit →
      exec i s = .next ((s.pushLog (.output (cmdPort s.cfg c) s.cfg.icw1Init)).setPic c
        { s.pic c with init := .waitIcw2, irr := 0#8, isr := 0#8, imr := 0#8 })) ∧
    ((s.pic c).init ≠ .uninit →
      exec i s = .next
        { s with iolog := s.iolog ++ [.output (cmdPort s.cfg c) s.cfg.icw1Init], stop := some .rReinit })

/-- R172: ICW2, with a byte that may be an offset, and with one that may not. -/
def Obligations.Icw2Result : Prop :=
  ∀ (s : State) (c : Ctrl) (b : Byte) (i : Instr), s.Mainline → s.cfg.valid = true → (s.pic c).init = .waitIcw2 →
    writesData s.cfg c b i →
    ((b.toNat % 8 = 0 ∧ 32 ≤ b.toNat) →
      exec i s = .next ((s.pushLog (.output (dataPort s.cfg c) b)).setPic c
        { s.pic c with offset := b, init := .waitIcw3 })) ∧
    (¬ (b.toNat % 8 = 0 ∧ 32 ≤ b.toNat) →
      exec i s = .next { s with iolog := s.iolog ++ [.output (dataPort s.cfg c) b], stop := some .rBase })

/-- R173: ICW3, with the byte the wiring of R160 asks for, and with another. -/
def Obligations.Icw3Result : Prop :=
  ∀ (s : State) (c : Ctrl) (b w : Byte) (i : Instr), s.Mainline → s.cfg.valid = true → (s.pic c).init = .waitIcw3 →
    (c = .master → w = 1#8 <<< s.cfg.cascadeLine.val) → (c = .slave → w = BitVec.ofNat 8 s.cfg.cascadeLine.val) →
    writesData s.cfg c b i →
    (b = w →
      exec i s = .next ((s.pushLog (.output (dataPort s.cfg c) b)).setPic c { s.pic c with icw3 := b, init := .waitIcw4 })) ∧
    (b ≠ w →
      exec i s = .next { s with iolog := s.iolog ++ [.output (dataPort s.cfg c) b], stop := some .rPicCmd })

/-- R174: ICW4, with the admitted mode, and with another. -/
def Obligations.Icw4Result : Prop :=
  ∀ (s : State) (c : Ctrl) (b : Byte) (i : Instr), s.Mainline → s.cfg.valid = true → (s.pic c).init = .waitIcw4 →
    writesData s.cfg c b i →
    (b = s.cfg.icw4Mode →
      exec i s = .next ((s.pushLog (.output (dataPort s.cfg c) b)).setPic c { s.pic c with icw4 := b, init := .ready })) ∧
    (b ≠ s.cfg.icw4Mode →
      exec i s = .next { s with iolog := s.iolog ++ [.output (dataPort s.cfg c) b], stop := some .rPicCmd })

/-- R175: a data-port byte of a `Ready` controller is the mask; of an `Uninit` one it stops. -/
def Obligations.DataPortOtherWrites : Prop :=
  ∀ (s : State) (c : Ctrl) (b : Byte) (i : Instr), s.Mainline → s.cfg.valid = true →
    writesData s.cfg c b i →
    ((s.pic c).init = .ready →
      exec i s = .next ((s.pushLog (.output (dataPort s.cfg c) b)).setPic c { s.pic c with imr := b })) ∧
    ((s.pic c).init = .uninit →
      exec i s = .next { s with iolog := s.iolog ++ [.output (dataPort s.cfg c) b], stop := some .rPicCmd })

/-- R176: the end-of-interrupt command clears "the smallest `i` with `pic[c].isr[i] = 1`", and nothing where none is set; to a
controller that is not `Ready` it stops. -/
def Obligations.EoiResult : Prop :=
  ∀ (s : State) (c : Ctrl) (i : Instr), s.Mainline → s.cfg.valid = true →
    (i = .iow (cmdPort s.cfg c) s.cfg.eoiCmd ∨ i = .eoi c) →
    ((s.pic c).init = .ready → (s.pic c).isr = 0#8 →
      exec i s = .next (s.pushLog (.output (cmdPort s.cfg c) s.cfg.eoiCmd))) ∧
    ((s.pic c).init = .ready → ∀ q : Fin 8, (s.pic c).isr.getLsbD q.val = true →
      (∀ j : Fin 8, j < q → (s.pic c).isr.getLsbD j.val = false) →
      exec i s = .next ((s.pushLog (.output (cmdPort s.cfg c) s.cfg.eoiCmd)).setPic c
        { s.pic c with isr := (s.pic c).isr &&& ~~~(1#8 <<< q.val) })) ∧
    ((s.pic c).init ≠ .ready →
      exec i s = .next { s with iolog := s.iolog ++ [.output (cmdPort s.cfg c) s.cfg.eoiCmd], stop := some .rPicCmd })

/-- R71, R170, R204, R280: writes the block has no meaning for are logged and stop: a port outside the map, the keyboard port,
a command byte that is not one of the two. -/
def Obligations.RefusedPortWrites : Prop :=
  ∀ (s : State) (p : Half) (b : Byte), s.Mainline → s.cfg.valid = true →
    (p ∉ [s.cfg.pic1Cmd, s.cfg.pic1Data, s.cfg.pic2Cmd, s.cfg.pic2Data] →
      exec (.iow p b) s = .next { s with iolog := s.iolog ++ [.output p b], stop := some .rPort }) ∧
    (exec (.iow s.cfg.kbdPort b) s =
      .next { s with iolog := s.iolog ++ [.output s.cfg.kbdPort b], stop := some .rPort }) ∧
    (p ∈ [s.cfg.pic1Cmd, s.cfg.pic2Cmd] → b ≠ s.cfg.icw1Init → b ≠ s.cfg.eoiCmd →
      exec (.iow p b) s = .next { s with iolog := s.iolog ++ [.output p b], stop := some .rPicCmd })

/-- R281, R178: `IOR`: every port of the map and the ports outside it. A read of the empty keyboard buffer gives some byte, of
which nothing is said (R204; the model's counter of such reads goes on, log 13). That a read of a command port that stops logs
nothing is the model's reading: R281 over the words of R170, "In every case the transaction is first appended" (log 24). -/
def Obligations.IorResult : Prop :=
  ∀ s : State, s.Mainline → s.cfg.valid = true →
    (∀ b, s.kbd.obuf = some b →
      exec (.ior s.cfg.kbdPort) s = .next
        { s with
          kbd := { s.kbd with obuf := none }
          iolog := s.iolog ++ [.input s.cfg.kbdPort b]
          result := some (.byte b) }) ∧
    (s.kbd.obuf = none →
      ∃ b, exec (.ior s.cfg.kbdPort) s = .next
        { s with
          iolog := s.iolog ++ [.input s.cfg.kbdPort b]
          draws := s.draws + 1
          result := some (.byte b) }) ∧
    (∀ c, (s.pic c).init = .ready →
      exec (.ior (dataPort s.cfg c)) s = .next
        { s with iolog := s.iolog ++ [.input (dataPort s.cfg c) (s.pic c).imr], result := some (.byte (s.pic c).imr) }) ∧
    (∀ c, (s.pic c).init ≠ .ready → exec (.ior (dataPort s.cfg c)) s = .next { s with stop := some .rPicCmd }) ∧
    (∀ c, exec (.ior (cmdPort s.cfg c)) s = .next { s with stop := some .rPicCmd }) ∧
    (∀ p, p ∉ [s.cfg.pic1Cmd, s.cfg.pic1Data, s.cfg.pic2Cmd, s.cfg.pic2Data, s.cfg.kbdPort] →
      exec (.ior p) s = .next { s with stop := some .rPort })

/-! ## Display memory -/

/-- R282: `MW16`: the two bytes at `FB_BASE + off`, little-endian (R67), and every other byte as before; "It takes no lock and
moves no cursor". -/
def Obligations.Mw16Result : Prop :=
  ∀ (s : State) (off : BitVec 12) (d : Half), s.Mainline →
    (off.toNat % 2 = 0 → off.toNat < 4000 →
      ∃ t, exec (.mw16 off d) s = .next t ∧ t = { s with mem := t.mem } ∧
        ∀ a, fbByte t a =
          if a = s.cfg.fbBase + off.toNat then d.extractLsb 7 0
          else if a = s.cfg.fbBase + off.toNat + 1 then d.extractLsb 15 8
          else fbByte s a) ∧
    (¬ (off.toNat % 2 = 0 ∧ off.toNat < 4000) → exec (.mw16 off d) s = .next { s with stop := some .rMem })

/-- R284: `MW8`: the byte at `FB_BASE + off`, and every other byte as before. -/
def Obligations.Mw8Result : Prop :=
  ∀ (s : State) (off : BitVec 12) (d : Byte), s.Mainline →
    (off.toNat < 4000 →
      ∃ t, exec (.mw8 off d) s = .next t ∧ t = { s with mem := t.mem } ∧
        ∀ a, fbByte t a = if a = s.cfg.fbBase + off.toNat then d else fbByte s a) ∧
    (4000 ≤ off.toNat → exec (.mw8 off d) s = .next { s with stop := some .rMem })

/-- R283, R285: `MR16` and `MR8`: the value at `FB_BASE + off` is returned, "No state change", or the stop. -/
def Obligations.MemoryReadResults : Prop :=
  ∀ (s : State) (off : BitVec 12), s.Mainline →
    (off.toNat % 2 = 0 → off.toNat < 4000 →
      exec (.mr16 off) s = .next
        { s with result := some (.half (fbByte s (s.cfg.fbBase + off.toNat + 1) ++ fbByte s (s.cfg.fbBase + off.toNat))) }) ∧
    (¬ (off.toNat % 2 = 0 ∧ off.toNat < 4000) → exec (.mr16 off) s = .next { s with stop := some .rMem }) ∧
    (off.toNat < 4000 →
      exec (.mr8 off) s = .next { s with result := some (.byte (fbByte s (s.cfg.fbBase + off.toNat))) }) ∧
    (4000 ≤ off.toNat → exec (.mr8 off) s = .next { s with stop := some .rMem })

/-- R61, R64, R67: a cell is the two bytes at its `CellAddr`: `MW16` at a cell's offset changes that cell and no other, and what
was written is read back, whole and by its bytes. -/
def Obligations.CellWrittenIsCellRead : Prop :=
  ∀ (s : State) (r c : Nat) (d : Half), s.Mainline → r < 25 → c < 80 →
    ∃ t, exec (.mw16 (BitVec.ofNat 12 (2 * (80 * r + c))) d) s = .next t ∧
      (∀ r' c', r' < 25 → c' < 80 → fbCell t r' c' = if r' = r ∧ c' = c then d else fbCell s r' c') ∧
      exec (.mr16 (BitVec.ofNat 12 (2 * (80 * r + c)))) t = .next { t with result := some (.half d) } ∧
      exec (.mr8 (BitVec.ofNat 12 (2 * (80 * r + c)))) t = .next { t with result := some (.byte (d.extractLsb 7 0)) } ∧
      exec (.mr8 (BitVec.ofNat 12 (2 * (80 * r + c) + 1))) t = .next { t with result := some (.byte (d.extractLsb 15 8)) }

/-! ## Device events -/

/-- R177: `IRQ n`: the two refused lines; a request latched by a `Ready` controller; none latched by another. -/
def Obligations.IrqResult : Prop :=
  ∀ (s : State) (n : Fin 16) (c : Ctrl), s.stop = none → c = (if n.val / 8 = 0 then .master else .slave) →
    ((n.val = s.cfg.cascadeLine.val ∨ n.val = 1) → exec (.irq n) s = .next { s with stop := some .rLine }) ∧
    (n.val ≠ s.cfg.cascadeLine.val → n.val ≠ 1 → (s.pic c).init = .ready →
      exec (.irq n) s = .next (s.setPic c { s.pic c with irr := (s.pic c).irr ||| 1#8 <<< (n.val % 8) })) ∧
    (n.val ≠ s.cfg.cascadeLine.val → n.val ≠ 1 → (s.pic c).init ≠ .ready → exec (.irq n) s = .next s)

/-- R203: `KEY b`: into the empty buffer, with a request on line 1 of a `Ready` master; not enabled while the buffer is full. -/
def Obligations.KeyResult : Prop :=
  ∀ (s : State) (b : Byte), s.stop = none →
    (s.kbd.obuf = none → s.master.init = .ready →
      exec (.key b) s = .next
        { s with
          kbd := { s.kbd with obuf := some b }
          master := { s.master with irr := s.master.irr ||| 1#8 <<< 1 } }) ∧
    (s.kbd.obuf = none → s.master.init ≠ .ready →
      exec (.key b) s = .next { s with kbd := { s.kbd with obuf := some b } }) ∧
    (s.kbd.obuf ≠ none → exec (.key b) s = .fault (.notEnabled .bufferFull))

/-! ## Resolution, acceptance, trap entry -/

/-- R179, R180: the interrupt output of a controller: the highest-priority request that is not masked, unless a line of the same
or higher priority is in service; the master's cascade input is the slave's output. -/
def Obligations.InterruptOutput : Prop :=
  ∀ (s : State) (c : Ctrl) (p : Fin 8) (req : Fin 8 → Prop),
    (∀ j, req j ↔
      (if c = .master ∧ j = s.cfg.cascadeLine then intOut s .slave ≠ none else (s.pic c).irr.getLsbD j.val = true) ∧
        (s.pic c).imr.getLsbD j.val = false) →
    (intOut s c = some p ↔
      (s.pic c).init = .ready ∧ req p ∧ (∀ j, j < p → ¬ req j) ∧ ∀ q, q ≤ p → (s.pic c).isr.getLsbD q.val = false)

/-- R182, R164: with nothing in service, the line accepted is the first pending, unmasked line in the order of R164, under its
own vector (R162); with no such line nothing is accepted. -/
def Obligations.AcceptanceOrder : Prop :=
  ∀ s : State, s.cfg.valid = true → s.master.init = .ready → s.slave.init = .ready → s.master.isr = 0#8 → s.slave.isr = 0#8 →
    (∀ n, (lineOrder s.cfg).find? (linePending s) = some n →
      ∃ t, accept s = some (t, (s.pic (lineCtrl n)).offset + BitVec.ofNat 8 (n.val % 8))) ∧
    ((lineOrder s.cfg).find? (linePending s) = none → accept s = none)

/-- R295, R330: `EXC v, code` takes the exception: where the table is active and `v` has a handler whose stack is there, that
handler is entered; otherwise the stops, in the order of R326. Only a double fault carries its code, zero-extended;
that the code is its eight-bit number whatever `XLEN`, below 8 too, is the model's reading of the widening (log 9). -/
def Obligations.ExcResult : Prop :=
  ∀ (s : State) (v code : Byte) (c : Option XWord), s.Mainline →
    c = (if v = 8#8 then some code.toNat else none) →
    (s.idtActive = true → (s.entry v).handler ≠ .unhandled → ((s.entry v).stack = none ∨ s.cfg.altStackOk = true) →
      ∃ t, exec (.exc v code) s = .next t ∧ Entered.intoFrom s t v c) ∧
    ∃ t, exec (.exc v code) s = .next t ∧ trapOutcome s t v c

/-- R296, R181: `INTA`: the master's own line, or the slave's through the cascade; the in-service and request bits; then the
entry through the vector of the line. Not enabled with nothing to deliver, while interrupts are masked, while a handler is
entered, or after the fatal halt. -/
def Obligations.IntaResult : Prop :=
  (∀ s : State, s.stop = none → (s.IF = false ∨ s.cpu.handler ≠ none ∨ s.cpu.halted = true) →
    ∃ why, exec .inta s = .fault (.notEnabled why)) ∧
  ∀ s : State, s.stop = none → s.cpu.handler = none → s.cpu.halted = false → s.IF = true →
    (∀ (p : Fin 8) (u : State), intOut s .master = some p → p ≠ s.cfg.cascadeLine →
      u = { s with
        master :=
          { s.master with isr := s.master.isr ||| 1#8 <<< p.val, irr := s.master.irr &&& ~~~(1#8 <<< p.val) } } →
      ∃ t, exec .inta s = .next t ∧ trapOutcome u t (s.master.offset + BitVec.ofNat 8 p.val) none ∧
        (s.idtActive = true → s.entry (s.master.offset + BitVec.ofNat 8 p.val) = ⟨.timer, none⟩ ∨
          s.entry (s.master.offset + BitVec.ofNat 8 p.val) = ⟨.keyboard, none⟩ →
          Entered.intoFrom u t (s.master.offset + BitVec.ofNat 8 p.val) none)) ∧
    (intOut s .master = some s.cfg.cascadeLine →
      ∃ (p : Fin 8) (t u : State), intOut s .slave = some p ∧
        u = { s with
          master := { s.master with isr := s.master.isr ||| 1#8 <<< s.cfg.cascadeLine.val }
          slave :=
            { s.slave with isr := s.slave.isr ||| 1#8 <<< p.val, irr := s.slave.irr &&& ~~~(1#8 <<< p.val) } } ∧
        exec .inta s = .next t ∧ trapOutcome u t (s.slave.offset + BitVec.ofNat 8 p.val) none) ∧
    (intOut s .master = none → exec .inta s = .fault (.notEnabled .noInterrupt))

/-! ## Handler bodies and the trap return -/

/-- R151, R333: the breakpoint body: one report, then the return that "restores exactly what entry saved". -/
def Obligations.HrunBreakpoint : Prop :=
  ∀ (s : State) (e : Entered), s.stop = none → s.cpu.handler = some e → s.cpu.halted = false → e.handler = .breakpoint →
    exec .hrun s = .next
      { s with
        diag := s.diag ++ [.breakpointReport e.frame]
        cpu := { s.cpu with ip := e.frame.ip, sp := e.frame.sp, flags := e.frame.flags, handler := none } }

/-- R344: "Issuing a breakpoint exception resumes execution at the next instruction and produces exactly one diagnostic report":
after the breakpoint and its handler the machine is as it was, but for the report. -/
def Obligations.BreakpointResumes : Prop :=
  ∀ s : State, s.Mainline → s.idtActive = true → s.entry 3#8 = ⟨.breakpoint, none⟩ →
    execAll [.exc 3#8 0#8, .hrun] s =
      .next { s with diag := s.diag ++ [.breakpointReport ⟨s.cpu.ip, s.cpu.sp, s.cpu.flags⟩] }

/-- R152: the double-fault body: one report with the code, the permanent halt, the handler still entered; after it no CPU
operation happens. The report carries the saved code as it stands (log 16). -/
def Obligations.HrunDoubleFault : Prop :=
  (∀ (s : State) (e : Entered), s.stop = none → s.cpu.handler = some e → s.cpu.halted = false → e.handler = .doubleFault →
    exec .hrun s = .next
      { s with diag := s.diag ++ [.doubleFaultReport e.frame e.code], cpu := { s.cpu with halted := true } }) ∧
  ∀ (i : Instr) (s t : State), s.cpu.halted = true → exec i s = .next t →
    deviceEvent i ∧ t.cpu = s.cpu ∧ t.diag = s.diag

/-- R200: the timer body: the heartbeat written, the timer vector acknowledged, the return; where a controller is not `Ready`
the acknowledgment stops and the handler stays entered (R327). -/
def Obligations.HrunTimer : Prop :=
  ∀ (s : State) (e : Entered), s.stop = none → s.cpu.handler = some e → s.cpu.halted = false → e.handler = .timer →
    s.cfg.valid = true → s.locks.writer = .free → s.locks.pic = .free →
    (s.master.init = .ready → s.slave.init = .ready →
      exec .hrun s = .next
        { acked (writeByte s.cfg.heartbeat s) s.cfg.vecTimer with
          cpu := { s.cpu with ip := e.frame.ip, sp := e.frame.sp, flags := e.frame.flags, handler := none } }) ∧
    (¬ (s.master.init = .ready ∧ s.slave.init = .ready) →
      exec .hrun s = .next { writeByte s.cfg.heartbeat s with stop := some .rPicCmd })

/-- R201: the keyboard body: the byte read, decoded, its output written, the keyboard vector acknowledged, the return; where a
controller is not `Ready` the acknowledgment stops and the handler stays entered (R327). What a byte decodes to and is shown as
is what R211, R215 and R205 say. With the buffer empty the byte is some byte (R204, log 13). -/
def Obligations.HrunKeyboard : Prop :=
  (∀ (cfg : Config) (d : Decoder) (b : Byte),
    keyShown cfg d b (decodeForDisplay cfg d b).1 (decodeForDisplay cfg d b).2) ∧
  ∀ (s : State) (e : Entered), s.stop = none → s.cpu.handler = some e → s.cpu.halted = false → e.handler = .keyboard →
    s.cfg.valid = true → s.locks.kbd = .free → s.locks.pic = .free →
    (∀ (b : Byte) (d : Decoder) (out : List Byte) (w : State), s.kbd.obuf = some b →
      decodeForDisplay s.cfg s.kbd.dec b = (d, out) → (s.locks.writer = .free ∨ out = []) →
      w = writeBytes out { s with kbd := ⟨none, d⟩, iolog := s.iolog ++ [.input s.cfg.kbdPort b] } →
      (s.master.init = .ready → s.slave.init = .ready →
        exec .hrun s = .next
          { acked w s.cfg.vecKeyboard with
            cpu := { s.cpu with ip := e.frame.ip, sp := e.frame.sp, flags := e.frame.flags, handler := none } }) ∧
      (¬ (s.master.init = .ready ∧ s.slave.init = .ready) → exec .hrun s = .next { w with stop := some .rPicCmd })) ∧
    (s.kbd.obuf = none → s.locks.writer = .free →
      ∃ b, ∀ w, w = writeBytes (decodeForDisplay s.cfg s.kbd.dec b).2
          { s with
            kbd := ⟨none, (decodeForDisplay s.cfg s.kbd.dec b).1⟩
            iolog := s.iolog ++ [.input s.cfg.kbdPort b]
            draws := s.draws + 1 } →
        (s.master.init = .ready → s.slave.init = .ready →
          exec .hrun s = .next
            { acked w s.cfg.vecKeyboard with
              cpu := { s.cpu with ip := e.frame.ip, sp := e.frame.sp, flags := e.frame.flags, handler := none } }) ∧
        (¬ (s.master.init = .ready ∧ s.slave.init = .ready) → exec .hrun s = .next { w with stop := some .rPicCmd }))

/-- R385, which the spec marks as its own inference (derived from R201 and R203): "the read must happen unconditionally": after every run of the keyboard body the buffer is empty, and the device can
deliver its next byte. -/
def Obligations.KeyboardBodyEmptiesBuffer : Prop :=
  ∀ (s t : State) (e : Entered), s.cpu.handler = some e → e.handler = .keyboard → exec .hrun s = .next t →
    t.kbd.obuf = none ∧ (t.stop = none → ∀ b, ∃ u, exec (.key b) t = .next u)

/-- R298, R206: "A model must not offer any step that gets past this state": with a handler entered that needs a lock mainline
holds, only device events happen, for ever. With the keyboard handler entered and its buffer empty "`writer` is always
included", so `HRUN` is not enabled there while mainline holds it. -/
def Obligations.LockDeadlock : Prop :=
  (∀ s : State, Deadlocked s →
    (∃ why, exec .hrun s = .fault (.notEnabled why)) ∧
    ∀ (i : Instr) (t : State), exec i s = .next t →
      deviceEvent i ∧ t.cpu = s.cpu ∧ t.locks = s.locks ∧ (t.stop = none → Deadlocked t)) ∧
  ∀ (s : State) (e : Entered), s.stop = none → s.cpu.handler = some e → e.handler = .keyboard → s.kbd.obuf = none →
    s.locks.writer = .heldByMainline →
      (∃ why, exec .hrun s = .fault (.notEnabled why)) ∧
      ∀ (i : Instr) (t : State), exec i s = .next t → deviceEvent i ∧ t.cpu = s.cpu ∧ t.locks = s.locks

/-! ## CPU control and locks -/

/-- R290: `CLI`. "After it no `INTA` is enabled". -/
def Obligations.CliResult : Prop :=
  ∀ s : State, s.Mainline →
    ∃ t, exec .cli s = .next t ∧ t = { s with cpu := { s.cpu with flags := t.cpu.flags } } ∧
      (∀ j, t.cpu.flags.testBit j = if j = s.cfg.ifBit then false else s.cpu.flags.testBit j) ∧
      exec .inta t = .fault (.notEnabled .interruptsMasked)

/-- R291: `STI`, and its boot-order check. -/
def Obligations.StiResult : Prop :=
  ∀ s : State, s.Mainline →
    (s.idtActive = true → s.master.init = .ready → s.slave.init = .ready →
      ∃ t, exec .sti s = .next t ∧ t = { s with cpu := { s.cpu with flags := t.cpu.flags } } ∧
        ∀ j, t.cpu.flags.testBit j = if j = s.cfg.ifBit then true else s.cpu.flags.testBit j) ∧
    (¬ (s.idtActive = true ∧ s.master.init = .ready ∧ s.slave.init = .ready) →
      exec .sti s = .next { s with stop := some .rBootOrder })

/-- R292: `HLT`: the wait, what may happen in it, and how it ends. -/
def Obligations.HltResult : Prop :=
  ∀ s t : State, s.Mainline → t = { s with cpu := { s.cpu with waiting := true } } →
    exec .hlt s = .next t ∧
    (∀ (i : Instr) (u : State), exec i t = .next u → i = .inta ∨ deviceEvent i) ∧
    (∀ u, exec .inta t = .next u → u.stop = none → u.cpu.waiting = false) ∧
    (s.IF = false → exec .inta t = .fault (.notEnabled .interruptsMasked))

/-- R293, R294: `LOCK` and `UNLOCK`: each lock alone, `IF` and everything else untouched; a held lock is not taken again, a free
one not released. -/
def Obligations.LockUnlockResults : Prop :=
  ∀ (s : State) (r : Resource), s.Mainline →
    (s.lock r = .free →
      (∃ t, exec (.lock r) s = .next t ∧ t = { s with locks := t.locks } ∧
        ∀ q, t.lock q = if q = r then .heldByMainline else s.lock q) ∧
      exec (.unlock r) s = .next { s with stop := some .rLock }) ∧
    (s.lock r = .heldByMainline →
      exec (.lock r) s = .fault (.notEnabled (.lockHeld r)) ∧
      ∃ t, exec (.unlock r) s = .next t ∧ t = { s with locks := t.locks } ∧
        ∀ q, t.lock q = if q = r then .free else s.lock q)

/-! ## The vector table -/

/-- R131, R132: `BUILD`: all 256 entries; once the table is active it stops and "changes nothing else". -/
def Obligations.BuildResult : Prop :=
  ∀ s : State, s.Mainline → s.cfg.valid = true →
    (s.idtActive = false →
      ∃ t, exec .build s = .next t ∧ t = { s with ivt := t.ivt, ivtBuilt := true } ∧
        ∀ v : Byte, t.entry v =
          if v = 3#8 then ⟨.breakpoint, none⟩
          else if v = 8#8 then ⟨.doubleFault, some s.cfg.dfStackIndex⟩
          else if v = s.cfg.irqBase then ⟨.timer, none⟩
          else if v = s.cfg.irqBase + 1#8 then ⟨.keyboard, none⟩
          else ⟨.unhandled, none⟩) ∧
    (s.idtActive = true → exec .build s = .next { s with stop := some .rTableActive })

/-- R133: `ACTIVATE`: "Preconditions, checked in this order". -/
def Obligations.ActivateResult : Prop :=
  ∀ s : State, s.Mainline →
    (s.ivtBuilt = false → exec .activate s = .next { s with stop := some .rNotBuilt }) ∧
    (s.ivtBuilt = true → s.IF = true → exec .activate s = .next { s with stop := some .rBootOrder }) ∧
    (s.ivtBuilt = true → s.IF = false → exec .activate s = .next { s with idtActive := true })

/-! ## The controller pair's contract commands -/

/-- R185, R186, R118: `PICINIT base`: the value check first; the eight writes and the end state; the same by eight `IOW`; a second
initialisation stops at its first refused write. -/
def Obligations.PicinitResult : Prop :=
  ∀ (s : State) (base : Byte) (ev : List IoEvent), s.Mainline → s.cfg.valid = true → s.locks.pic = .free →
    ev = [.output s.cfg.pic1Cmd s.cfg.icw1Init, .output s.cfg.pic2Cmd s.cfg.icw1Init, .output s.cfg.pic1Data base,
      .output s.cfg.pic2Data (base + 8#8), .output s.cfg.pic1Data (1#8 <<< s.cfg.cascadeLine.val),
      .output s.cfg.pic2Data (BitVec.ofNat 8 s.cfg.cascadeLine.val), .output s.cfg.pic1Data s.cfg.icw4Mode,
      .output s.cfg.pic2Data s.cfg.icw4Mode] →
    (¬ (32 ≤ base.toNat ∧ base.toNat ≤ 240 ∧ base.toNat % 8 = 0) →
      exec (.picinit base) s = .next { s with stop := some .rBase }) ∧
    ((32 ≤ base.toNat ∧ base.toNat ≤ 240 ∧ base.toNat % 8 = 0) →
      (s.master.init = .uninit → s.slave.init = .uninit →
        exec (.picinit base) s = .next
          { s with
            master := ⟨base, .ready, 0#8, 0#8, 0#8, 1#8 <<< s.cfg.cascadeLine.val, s.cfg.icw4Mode⟩
            slave := ⟨base + 8#8, .ready, 0#8, 0#8, 0#8, BitVec.ofNat 8 s.cfg.cascadeLine.val, s.cfg.icw4Mode⟩
            iolog := s.iolog ++ ev } ∧
        execAll (expand s (.picinitWrites base)) s = exec (.picinit base) s) ∧
      (s.master.init ≠ .uninit →
        exec (.picinit base) s = .next { s with iolog := s.iolog ++ ev.take 1, stop := some .rReinit }) ∧
      (s.master.init = .uninit → s.slave.init ≠ .uninit →
        exec (.picinit base) s = .next
          { s with
            master := { s.master with init := .waitIcw2, irr := 0#8, isr := 0#8, imr := 0#8 }
            iolog := s.iolog ++ ev.take 2
            stop := some .rReinit }))

/-- R190: `ACK v`: none, one or two writes of the end-of-interrupt command, the slave's first; before the controllers are `Ready`
it stops with no write; not enabled while the lock is held. -/
def Obligations.AckResult : Prop :=
  ∀ (s : State) (v : Byte), s.Mainline → s.cfg.valid = true →
    (s.locks.pic = .free → s.master.init = .ready → s.slave.init = .ready →
      exec (.ack v) s = .next (acked s v) ∧ execAll (expand s (.ackWrites v)) s = .next (acked s v)) ∧
    (s.locks.pic = .free → ¬ (s.master.init = .ready ∧ s.slave.init = .ready) →
      exec (.ack v) s = .next { s with stop := some .rPicCmd }) ∧
    (s.locks.pic = .heldByMainline →
      exec (.ack v) s = .fault (.notEnabled (.lockHeld .pic)) ∧
      exec (.picinit v) s = .fault (.notEnabled (.lockHeld .pic)))

/-! ## The display driver -/

/-- R251, R252, R253, R259: `WRBYTE b`: a newline scrolls; past the last column it scrolls first; otherwise the glyph and the
colour go to the two bytes of the cell at (24, column), every other byte stays, and the cursor advances. Not enabled while
the lock is held, nor is `SCROLL`. -/
def Obligations.WrbyteResult : Prop :=
  (∀ (s : State) (b : Byte), s.Mainline → s.locks.writer = .heldByMainline →
    exec (.wrbyte b) s = .fault (.notEnabled (.lockHeld .writer)) ∧
    exec .scroll s = .fault (.notEnabled (.lockHeld .writer))) ∧
  ∀ (s : State) (b : Byte), s.Mainline → s.locks.writer = .free →
    (b = s.cfg.newline → exec (.wrbyte b) s = exec .scroll s) ∧
    (b ≠ s.cfg.newline → s.writer.col < 80 → ∀ (g : Byte) (at24 : Nat),
      g = (if s.cfg.printLo.toNat ≤ b.toNat ∧ b.toNat ≤ s.cfg.printHi.toNat then b else s.cfg.placeholder) →
      at24 = s.cfg.fbBase + 2 * (24 * 80 + s.writer.col) →
      ∃ t, exec (.wrbyte b) s = .next t ∧
        t = { s with mem := t.mem, writer := { s.writer with col := s.writer.col + 1 } } ∧
        ∀ a, fbByte t a = if a = at24 then g else if a = at24 + 1 then s.writer.color else fbByte s a) ∧
    (b ≠ s.cfg.newline → 80 ≤ s.writer.col →
      ∃ u, exec .scroll s = .next u ∧ exec (.wrbyte b) s = exec (.wrbyte b) u)

/-- R255, R256: `SCROLL`: "row *i* after scroll equals row *i+1* before scroll, for all rows except the last, which becomes
blank"; the cursor at 0; no byte outside the region. -/
def Obligations.ScrollResult : Prop :=
  ∀ s : State, s.Mainline → s.locks.writer = .free →
    ∃ t, exec .scroll s = .next t ∧ t = { s with mem := t.mem, writer := { s.writer with col := 0 } } ∧
      (∀ r c, r < 25 → c < 80 →
        fbCell t r c = if r = 24 then s.writer.color ++ s.cfg.blankChar else fbCell s (r + 1) c) ∧
      ∀ a, (a < s.cfg.fbBase ∨ s.cfg.fbBase + 4000 ≤ a) → fbByte t a = fbByte s a

/-- R252: "`write_byte(b)` followed by reading the cell at the pre-write cursor position returns `(b, current_color)`", the
position being column 0 of the scrolled row where the cursor was past the last column. -/
def Obligations.WrittenByteReadsBack : Prop :=
  ∀ (s : State) (b : Byte), s.Mainline → s.cfg.valid = true → s.locks.writer = .free →
    s.cfg.printLo.toNat ≤ b.toNat → b.toNat ≤ s.cfg.printHi.toNat → s.writer.col ≤ 80 →
    ∃ t, exec (.wrbyte b) s = .next t ∧
      exec (.mr16 (BitVec.ofNat 12 (2 * (24 * 80 + if s.writer.col < 80 then s.writer.col else 0)))) t =
        .next { t with result := some (.half (s.writer.color ++ b)) }

/-- R261: "Writing more than `columns` bytes without a newline triggers exactly one scroll": 81 bytes from column 0. -/
def Obligations.EightyOneBytes : Prop :=
  ∀ (s : State) (bs : List Byte), s.Mainline → s.locks.writer = .free → s.writer.col = 0 → bs.length = 81 →
    (∀ b ∈ bs, b ≠ s.cfg.newline) →
    ∃ t, execAll (bs.map .wrbyte) s = .next t ∧ t.writer.col = 1 ∧
      ∀ r c, r < 25 → c < 80 →
        fbCell t r c =
          if r = 24 then s.writer.color ++ (if c = 0 then glyph s.cfg (bs.getD 80 0#8) else s.cfg.blankChar)
          else if r = 23 then s.writer.color ++ glyph s.cfg (bs.getD c 0#8)
          else fbCell s (r + 1) c

/-! ## The keyboard decoder -/

/-- R211, R212, R213: the first stage, every state and every byte, as `ADDBYTE` and as the hardware's own byte. That the
hardware's byte (R113) needs the decoder's lock (R298) and acts as `ADDBYTE` does is the model's choice (log 2). -/
def Obligations.AddbyteResult : Prop :=
  ∀ (s : State) (b : Byte) (i : Instr) (st : KeyState) (out : Decoder → Option KeyEvent → State), s.Mainline →
    (i = .addbyte b ∨ i = .scanPrefix b ∨ ∃ r k, i = .scanKey r k ∧ BitVec.ofBool r ++ k = b) →
    st = (if b.getLsbD 7 = true then .release else .press) →
    (∀ d ev, out d ev = { s with kbd := { s.kbd with dec := d }, result := some (.keyEvent ev) }) →
    (s.locks.kbd = .free → s.kbd.dec.stage = .idle → b ∈ s.cfg.extPrefix →
      exec i s = .next (out { s.kbd.dec with stage := .awaitingContinuation } none)) ∧
    (s.locks.kbd = .free → s.kbd.dec.stage = .idle → b ∉ s.cfg.extPrefix →
      exec i s = .next (out s.kbd.dec ((s.cfg.keyMap1.lookup (b.extractLsb 6 0)).map fun k => ⟨k, st⟩))) ∧
    (s.locks.kbd = .free → s.kbd.dec.stage = .awaitingContinuation →
      exec i s = .next
        (out { s.kbd.dec with stage := .idle } ((s.cfg.keyMapExt.lookup (b.extractLsb 6 0)).map fun k => ⟨k, st⟩))) ∧
    (s.locks.kbd = .heldByMainline → exec i s = .fault (.notEnabled (.lockHeld .keyboard)))

/-- R215: the second stage: the modifier keys; the other keys by press and release, the result being the column of the key's row
of `Layout` for the shift and caps state, or the raw key where it has no row (R228(d)); a KeyId no table produces; the held
lock. -/
def Obligations.ProcessResult : Prop :=
  (∀ (s : State) (k : KeyId) (st : KeyState), s.Mainline → s.locks.kbd = .heldByMainline →
    exec (.process k st) s = .fault (.notEnabled (.lockHeld .keyboard))) ∧
  ∀ (s : State) (k : KeyId) (st : KeyState) (out : Decoder → Option DecodedKey → State), s.Mainline → s.locks.kbd = .free →
    (∀ d r, out d r = { s with kbd := { s.kbd with dec := d }, result := some (.decoded r) }) →
    ((¬ ∃ c, s.cfg.keyMap1.lookup c = some k ∨ s.cfg.keyMapExt.lookup c = some k) →
      exec (.process k st) s = .next { s with stop := some .rKeyId }) ∧
    ((∃ c, s.cfg.keyMap1.lookup c = some k ∨ s.cfg.keyMapExt.lookup c = some k) →
      (s.cfg.modRole.lookup k = some .lshift →
        exec (.process k st) s = .next (out { s.kbd.dec with lshift := decide (st = .press) } none)) ∧
      (s.cfg.modRole.lookup k = some .rshift →
        exec (.process k st) s = .next (out { s.kbd.dec with rshift := decide (st = .press) } none)) ∧
      (s.cfg.modRole.lookup k = some .lctrl →
        exec (.process k st) s = .next (out { s.kbd.dec with lctrl := decide (st = .press) } none)) ∧
      (s.cfg.modRole.lookup k = some .rctrl →
        exec (.process k st) s = .next (out { s.kbd.dec with rctrl := decide (st = .press) } none)) ∧
      (s.cfg.modRole.lookup k = some .caps → st = .press →
        exec (.process k st) s = .next (out { s.kbd.dec with caps := !s.kbd.dec.caps } none)) ∧
      (s.cfg.modRole.lookup k = some .caps → st = .release → exec (.process k st) s = .next (out s.kbd.dec none)) ∧
      ((s.cfg.modRole.lookup k = none ∨ s.cfg.modRole.lookup k = some .noRole) → st = .release →
        exec (.process k st) s = .next (out s.kbd.dec none)) ∧
      ((s.cfg.modRole.lookup k = none ∨ s.cfg.modRole.lookup k = some .noRole) → st = .press →
        (s.cfg.layout.lookup k = none → exec (.process k st) s = .next (out s.kbd.dec (some (.rawKey k)))) ∧
        ∀ row : LayoutRow, s.cfg.layout.lookup k = some row →
          ((s.kbd.dec.lshift || s.kbd.dec.rshift) = false → s.kbd.dec.caps = false →
            exec (.process k st) s = .next (out s.kbd.dec (some row.plain))) ∧
          ((s.kbd.dec.lshift || s.kbd.dec.rshift) = true → s.kbd.dec.caps = false →
            exec (.process k st) s = .next (out s.kbd.dec (some row.shifted))) ∧
          ((s.kbd.dec.lshift || s.kbd.dec.rshift) = false → s.kbd.dec.caps = true →
            exec (.process k st) s = .next (out s.kbd.dec (some row.capsed))) ∧
          ((s.kbd.dec.lshift || s.kbd.dec.rshift) = true → s.kbd.dec.caps = true →
            exec (.process k st) s = .next (out s.kbd.dec (some row.shiftCaps)))))

/-! ## Headlines: bring-up and whole interrupt cycles -/

/-- R375, R373: the canonical boot sequence from every reset state, and the other order the rules admit, reach the same state, in
which interrupts are enabled and every other flag bit is as before. -/
def Obligations.BootSequence : Prop :=
  ∀ (cfg : Config) (l : Launch) (s : State) (ev : List IoEvent), cfg.valid = true → s = State.atReset cfg l →
    ev = [.output cfg.pic1Cmd cfg.icw1Init, .output cfg.pic2Cmd cfg.icw1Init, .output cfg.pic1Data cfg.irqBase,
      .output cfg.pic2Data (cfg.irqBase + 8#8), .output cfg.pic1Data (1#8 <<< cfg.cascadeLine.val),
      .output cfg.pic2Data (BitVec.ofNat 8 cfg.cascadeLine.val), .output cfg.pic1Data cfg.icw4Mode,
      .output cfg.pic2Data cfg.icw4Mode] →
    ∃ t, execAll [.build, .picinit cfg.irqBase, .activate, .sti] s = .next t ∧
      execAll [.build, .activate, .picinit cfg.irqBase, .sti] s = .next t ∧
      t = { s with
        cpu := { s.cpu with flags := t.cpu.flags }
        ivt := t.ivt
        ivtBuilt := true
        idtActive := true
        master := ⟨cfg.irqBase, .ready, 0#8, 0#8, 0#8, 1#8 <<< cfg.cascadeLine.val, cfg.icw4Mode⟩
        slave := ⟨cfg.irqBase + 8#8, .ready, 0#8, 0#8, 0#8, BitVec.ofNat 8 cfg.cascadeLine.val, cfg.icw4Mode⟩
        iolog := ev } ∧
      t.IF = true ∧
      (∀ j, j ≠ cfg.ifBit → t.cpu.flags.testBit j = s.cpu.flags.testBit j) ∧
      ∀ v : Byte, t.entry v =
        if v = 3#8 then ⟨.breakpoint, none⟩
        else if v = 8#8 then ⟨.doubleFault, some cfg.dfStackIndex⟩
        else if v = cfg.irqBase then ⟨.timer, none⟩
        else if v = cfg.irqBase + 1#8 then ⟨.keyboard, none⟩
        else ⟨.unhandled, none⟩

/-- R200, R202: a timer tick, from request to return: the heartbeat written, exactly one acknowledgment, and nothing else of the
machine changed. -/
def Obligations.TimerCycle : Prop :=
  ∀ s : State, s.Mainline → s.cfg.valid = true → s.IF = true → s.idtActive = true →
    s.entry s.cfg.irqBase = ⟨.timer, none⟩ → s.master.init = .ready → s.slave.init = .ready →
    s.master.offset = s.cfg.irqBase → ¬ vectorOf s.slave.offset s.cfg.irqBase →
    s.master.irr = 0#8 → s.slave.irr = 0#8 → s.master.isr = 0#8 → s.master.imr.getLsbD 0 = false →
    s.locks.writer = .free → s.locks.pic = .free →
    execAll [.irq 0, .inta, .hrun] s = .next
      { writeByte s.cfg.heartbeat s with iolog := s.iolog ++ [.output s.cfg.pic1Cmd s.cfg.eoiCmd] }

/-- R202: "A full keyboard interrupt cycle (port read → decode → optional display write → acknowledge) always ends with exactly
one acknowledgment call per interrupt, regardless of decode outcome." -/
def Obligations.KeyboardCycle : Prop :=
  ∀ (s : State) (b : Byte) (d : Decoder) (out : List Byte), s.Mainline → s.cfg.valid = true → s.IF = true →
    s.idtActive = true → s.entry (s.cfg.irqBase + 1#8) = ⟨.keyboard, none⟩ → s.master.init = .ready →
    s.slave.init = .ready → s.master.offset = s.cfg.irqBase → ¬ vectorOf s.slave.offset (s.cfg.irqBase + 1#8) →
    s.master.irr = 0#8 → s.slave.irr = 0#8 → s.master.isr = 0#8 → s.master.imr.getLsbD 1 = false →
    s.locks.writer = .free → s.locks.kbd = .free → s.locks.pic = .free → s.kbd.obuf = none →
    decodeForDisplay s.cfg s.kbd.dec b = (d, out) →
    execAll [.key b, .inta, .hrun] s = .next
      { writeBytes out s with
        kbd := ⟨none, d⟩
        iolog := s.iolog ++ [.input s.cfg.kbdPort b, .output s.cfg.pic1Cmd s.cfg.eoiCmd] }
end

