-- ==== Sys2Proof/Laws/State.lean ====
section
/-! SUPPORT. One lemma per field per update of the state, so that no later proof unfolds a record update. -/

namespace Sys2Proof.Machine.State

open Sys2Proof Sys2Proof.Machine

variable (s : State)

@[simp] theorem setIF_cpu (b : Bool) : (s.setIF b).cpu = { s.cpu with flags := withIF s.cfg s.cpu.flags b } := rfl
@[simp] theorem setIF_ivt (b : Bool) : (s.setIF b).ivt = s.ivt := rfl
@[simp] theorem setIF_ivtBuilt (b : Bool) : (s.setIF b).ivtBuilt = s.ivtBuilt := rfl
@[simp] theorem setIF_idtActive (b : Bool) : (s.setIF b).idtActive = s.idtActive := rfl
@[simp] theorem setIF_master (b : Bool) : (s.setIF b).master = s.master := rfl
@[simp] theorem setIF_slave (b : Bool) : (s.setIF b).slave = s.slave := rfl
@[simp] theorem setIF_kbd (b : Bool) : (s.setIF b).kbd = s.kbd := rfl
@[simp] theorem setIF_mem (b : Bool) : (s.setIF b).mem = s.mem := rfl
@[simp] theorem setIF_writer (b : Bool) : (s.setIF b).writer = s.writer := rfl
@[simp] theorem setIF_locks (b : Bool) : (s.setIF b).locks = s.locks := rfl
@[simp] theorem setIF_diag (b : Bool) : (s.setIF b).diag = s.diag := rfl
@[simp] theorem setIF_iolog (b : Bool) : (s.setIF b).iolog = s.iolog := rfl
@[simp] theorem setIF_stop (b : Bool) : (s.setIF b).stop = s.stop := rfl
@[simp] theorem setIF_cfg (b : Bool) : (s.setIF b).cfg = s.cfg := rfl
@[simp] theorem setIF_prog (b : Bool) : (s.setIF b).prog = s.prog := rfl
@[simp] theorem setIF_draws (b : Bool) : (s.setIF b).draws = s.draws := rfl
@[simp] theorem setIF_result (b : Bool) : (s.setIF b).result = s.result := rfl

@[simp] theorem setPic_cpu (c : Ctrl) (p : Pic) : (s.setPic c p).cpu = s.cpu := by cases c <;> rfl
@[simp] theorem setPic_ivt (c : Ctrl) (p : Pic) : (s.setPic c p).ivt = s.ivt := by cases c <;> rfl
@[simp] theorem setPic_ivtBuilt (c : Ctrl) (p : Pic) : (s.setPic c p).ivtBuilt = s.ivtBuilt := by cases c <;> rfl
@[simp] theorem setPic_idtActive (c : Ctrl) (p : Pic) : (s.setPic c p).idtActive = s.idtActive := by cases c <;> rfl
@[simp] theorem setPic_kbd (c : Ctrl) (p : Pic) : (s.setPic c p).kbd = s.kbd := by cases c <;> rfl
@[simp] theorem setPic_mem (c : Ctrl) (p : Pic) : (s.setPic c p).mem = s.mem := by cases c <;> rfl
@[simp] theorem setPic_writer (c : Ctrl) (p : Pic) : (s.setPic c p).writer = s.writer := by cases c <;> rfl
@[simp] theorem setPic_locks (c : Ctrl) (p : Pic) : (s.setPic c p).locks = s.locks := by cases c <;> rfl
@[simp] theorem setPic_diag (c : Ctrl) (p : Pic) : (s.setPic c p).diag = s.diag := by cases c <;> rfl
@[simp] theorem setPic_iolog (c : Ctrl) (p : Pic) : (s.setPic c p).iolog = s.iolog := by cases c <;> rfl
@[simp] theorem setPic_stop (c : Ctrl) (p : Pic) : (s.setPic c p).stop = s.stop := by cases c <;> rfl
@[simp] theorem setPic_cfg (c : Ctrl) (p : Pic) : (s.setPic c p).cfg = s.cfg := by cases c <;> rfl
@[simp] theorem setPic_prog (c : Ctrl) (p : Pic) : (s.setPic c p).prog = s.prog := by cases c <;> rfl
@[simp] theorem setPic_draws (c : Ctrl) (p : Pic) : (s.setPic c p).draws = s.draws := by cases c <;> rfl
@[simp] theorem setPic_result (c : Ctrl) (p : Pic) : (s.setPic c p).result = s.result := by cases c <;> rfl

@[simp] theorem setLock_cpu (r : Resource) (v : LockState) : (s.setLock r v).cpu = s.cpu := by cases r <;> rfl
@[simp] theorem setLock_ivt (r : Resource) (v : LockState) : (s.setLock r v).ivt = s.ivt := by cases r <;> rfl
@[simp] theorem setLock_ivtBuilt (r : Resource) (v : LockState) : (s.setLock r v).ivtBuilt = s.ivtBuilt := by cases r <;> rfl
@[simp] theorem setLock_idtActive (r : Resource) (v : LockState) : (s.setLock r v).idtActive = s.idtActive := by cases r <;> rfl
@[simp] theorem setLock_master (r : Resource) (v : LockState) : (s.setLock r v).master = s.master := by cases r <;> rfl
@[simp] theorem setLock_slave (r : Resource) (v : LockState) : (s.setLock r v).slave = s.slave := by cases r <;> rfl
@[simp] theorem setLock_kbd (r : Resource) (v : LockState) : (s.setLock r v).kbd = s.kbd := by cases r <;> rfl
@[simp] theorem setLock_mem (r : Resource) (v : LockState) : (s.setLock r v).mem = s.mem := by cases r <;> rfl
@[simp] theorem setLock_writer (r : Resource) (v : LockState) : (s.setLock r v).writer = s.writer := by cases r <;> rfl
@[simp] theorem setLock_diag (r : Resource) (v : LockState) : (s.setLock r v).diag = s.diag := by cases r <;> rfl
@[simp] theorem setLock_iolog (r : Resource) (v : LockState) : (s.setLock r v).iolog = s.iolog := by cases r <;> rfl
@[simp] theorem setLock_stop (r : Resource) (v : LockState) : (s.setLock r v).stop = s.stop := by cases r <;> rfl
@[simp] theorem setLock_cfg (r : Resource) (v : LockState) : (s.setLock r v).cfg = s.cfg := by cases r <;> rfl
@[simp] theorem setLock_prog (r : Resource) (v : LockState) : (s.setLock r v).prog = s.prog := by cases r <;> rfl
@[simp] theorem setLock_draws (r : Resource) (v : LockState) : (s.setLock r v).draws = s.draws := by cases r <;> rfl
@[simp] theorem setLock_result (r : Resource) (v : LockState) : (s.setLock r v).result = s.result := by cases r <;> rfl

@[simp] theorem pushLog_cpu (e : IoEvent) : (s.pushLog e).cpu = s.cpu := rfl
@[simp] theorem pushLog_ivt (e : IoEvent) : (s.pushLog e).ivt = s.ivt := rfl
@[simp] theorem pushLog_ivtBuilt (e : IoEvent) : (s.pushLog e).ivtBuilt = s.ivtBuilt := rfl
@[simp] theorem pushLog_idtActive (e : IoEvent) : (s.pushLog e).idtActive = s.idtActive := rfl
@[simp] theorem pushLog_master (e : IoEvent) : (s.pushLog e).master = s.master := rfl
@[simp] theorem pushLog_slave (e : IoEvent) : (s.pushLog e).slave = s.slave := rfl
@[simp] theorem pushLog_kbd (e : IoEvent) : (s.pushLog e).kbd = s.kbd := rfl
@[simp] theorem pushLog_mem (e : IoEvent) : (s.pushLog e).mem = s.mem := rfl
@[simp] theorem pushLog_writer (e : IoEvent) : (s.pushLog e).writer = s.writer := rfl
@[simp] theorem pushLog_locks (e : IoEvent) : (s.pushLog e).locks = s.locks := rfl
@[simp] theorem pushLog_diag (e : IoEvent) : (s.pushLog e).diag = s.diag := rfl
@[simp] theorem pushLog_iolog (e : IoEvent) : (s.pushLog e).iolog = s.iolog ++ [e] := rfl
@[simp] theorem pushLog_stop (e : IoEvent) : (s.pushLog e).stop = s.stop := rfl
@[simp] theorem pushLog_cfg (e : IoEvent) : (s.pushLog e).cfg = s.cfg := rfl
@[simp] theorem pushLog_prog (e : IoEvent) : (s.pushLog e).prog = s.prog := rfl
@[simp] theorem pushLog_draws (e : IoEvent) : (s.pushLog e).draws = s.draws := rfl
@[simp] theorem pushLog_result (e : IoEvent) : (s.pushLog e).result = s.result := rfl

@[simp] theorem pushDiag_cpu (d : DiagRecord) : (s.pushDiag d).cpu = s.cpu := rfl
@[simp] theorem pushDiag_ivt (d : DiagRecord) : (s.pushDiag d).ivt = s.ivt := rfl
@[simp] theorem pushDiag_ivtBuilt (d : DiagRecord) : (s.pushDiag d).ivtBuilt = s.ivtBuilt := rfl
@[simp] theorem pushDiag_idtActive (d : DiagRecord) : (s.pushDiag d).idtActive = s.idtActive := rfl
@[simp] theorem pushDiag_master (d : DiagRecord) : (s.pushDiag d).master = s.master := rfl
@[simp] theorem pushDiag_slave (d : DiagRecord) : (s.pushDiag d).slave = s.slave := rfl
@[simp] theorem pushDiag_kbd (d : DiagRecord) : (s.pushDiag d).kbd = s.kbd := rfl
@[simp] theorem pushDiag_mem (d : DiagRecord) : (s.pushDiag d).mem = s.mem := rfl
@[simp] theorem pushDiag_writer (d : DiagRecord) : (s.pushDiag d).writer = s.writer := rfl
@[simp] theorem pushDiag_locks (d : DiagRecord) : (s.pushDiag d).locks = s.locks := rfl
@[simp] theorem pushDiag_diag (d : DiagRecord) : (s.pushDiag d).diag = s.diag ++ [d] := rfl
@[simp] theorem pushDiag_iolog (d : DiagRecord) : (s.pushDiag d).iolog = s.iolog := rfl
@[simp] theorem pushDiag_stop (d : DiagRecord) : (s.pushDiag d).stop = s.stop := rfl
@[simp] theorem pushDiag_cfg (d : DiagRecord) : (s.pushDiag d).cfg = s.cfg := rfl
@[simp] theorem pushDiag_prog (d : DiagRecord) : (s.pushDiag d).prog = s.prog := rfl
@[simp] theorem pushDiag_draws (d : DiagRecord) : (s.pushDiag d).draws = s.draws := rfl
@[simp] theorem pushDiag_result (d : DiagRecord) : (s.pushDiag d).result = s.result := rfl

@[simp] theorem stopAt_cpu (r : StopReason) : (s.stopAt r).cpu = s.cpu := rfl
@[simp] theorem stopAt_ivt (r : StopReason) : (s.stopAt r).ivt = s.ivt := rfl
@[simp] theorem stopAt_ivtBuilt (r : StopReason) : (s.stopAt r).ivtBuilt = s.ivtBuilt := rfl
@[simp] theorem stopAt_idtActive (r : StopReason) : (s.stopAt r).idtActive = s.idtActive := rfl
@[simp] theorem stopAt_master (r : StopReason) : (s.stopAt r).master = s.master := rfl
@[simp] theorem stopAt_slave (r : StopReason) : (s.stopAt r).slave = s.slave := rfl
@[simp] theorem stopAt_kbd (r : StopReason) : (s.stopAt r).kbd = s.kbd := rfl
@[simp] theorem stopAt_mem (r : StopReason) : (s.stopAt r).mem = s.mem := rfl
@[simp] theorem stopAt_writer (r : StopReason) : (s.stopAt r).writer = s.writer := rfl
@[simp] theorem stopAt_locks (r : StopReason) : (s.stopAt r).locks = s.locks := rfl
@[simp] theorem stopAt_diag (r : StopReason) : (s.stopAt r).diag = s.diag := rfl
@[simp] theorem stopAt_iolog (r : StopReason) : (s.stopAt r).iolog = s.iolog := rfl
@[simp] theorem stopAt_stop (r : StopReason) : (s.stopAt r).stop = some r := rfl
@[simp] theorem stopAt_cfg (r : StopReason) : (s.stopAt r).cfg = s.cfg := rfl
@[simp] theorem stopAt_prog (r : StopReason) : (s.stopAt r).prog = s.prog := rfl
@[simp] theorem stopAt_draws (r : StopReason) : (s.stopAt r).draws = s.draws := rfl
@[simp] theorem stopAt_result (r : StopReason) : (s.stopAt r).result = s.result := rfl

@[simp] theorem setResult_cpu (v : Result) : (s.setResult v).cpu = s.cpu := rfl
@[simp] theorem setResult_ivt (v : Result) : (s.setResult v).ivt = s.ivt := rfl
@[simp] theorem setResult_ivtBuilt (v : Result) : (s.setResult v).ivtBuilt = s.ivtBuilt := rfl
@[simp] theorem setResult_idtActive (v : Result) : (s.setResult v).idtActive = s.idtActive := rfl
@[simp] theorem setResult_master (v : Result) : (s.setResult v).master = s.master := rfl
@[simp] theorem setResult_slave (v : Result) : (s.setResult v).slave = s.slave := rfl
@[simp] theorem setResult_kbd (v : Result) : (s.setResult v).kbd = s.kbd := rfl
@[simp] theorem setResult_mem (v : Result) : (s.setResult v).mem = s.mem := rfl
@[simp] theorem setResult_writer (v : Result) : (s.setResult v).writer = s.writer := rfl
@[simp] theorem setResult_locks (v : Result) : (s.setResult v).locks = s.locks := rfl
@[simp] theorem setResult_diag (v : Result) : (s.setResult v).diag = s.diag := rfl
@[simp] theorem setResult_iolog (v : Result) : (s.setResult v).iolog = s.iolog := rfl
@[simp] theorem setResult_stop (v : Result) : (s.setResult v).stop = s.stop := rfl
@[simp] theorem setResult_cfg (v : Result) : (s.setResult v).cfg = s.cfg := rfl
@[simp] theorem setResult_prog (v : Result) : (s.setResult v).prog = s.prog := rfl
@[simp] theorem setResult_draws (v : Result) : (s.setResult v).draws = s.draws := rfl
@[simp] theorem setResult_result (v : Result) : (s.setResult v).result = some v := rfl

@[simp] theorem setMem_cpu (m : Memory) : (s.setMem m).cpu = s.cpu := rfl
@[simp] theorem setMem_ivt (m : Memory) : (s.setMem m).ivt = s.ivt := rfl
@[simp] theorem setMem_ivtBuilt (m : Memory) : (s.setMem m).ivtBuilt = s.ivtBuilt := rfl
@[simp] theorem setMem_idtActive (m : Memory) : (s.setMem m).idtActive = s.idtActive := rfl
@[simp] theorem setMem_master (m : Memory) : (s.setMem m).master = s.master := rfl
@[simp] theorem setMem_slave (m : Memory) : (s.setMem m).slave = s.slave := rfl
@[simp] theorem setMem_kbd (m : Memory) : (s.setMem m).kbd = s.kbd := rfl
@[simp] theorem setMem_mem (m : Memory) : (s.setMem m).mem = m := rfl
@[simp] theorem setMem_writer (m : Memory) : (s.setMem m).writer = s.writer := rfl
@[simp] theorem setMem_locks (m : Memory) : (s.setMem m).locks = s.locks := rfl
@[simp] theorem setMem_diag (m : Memory) : (s.setMem m).diag = s.diag := rfl
@[simp] theorem setMem_iolog (m : Memory) : (s.setMem m).iolog = s.iolog := rfl
@[simp] theorem setMem_stop (m : Memory) : (s.setMem m).stop = s.stop := rfl
@[simp] theorem setMem_cfg (m : Memory) : (s.setMem m).cfg = s.cfg := rfl
@[simp] theorem setMem_prog (m : Memory) : (s.setMem m).prog = s.prog := rfl
@[simp] theorem setMem_draws (m : Memory) : (s.setMem m).draws = s.draws := rfl
@[simp] theorem setMem_result (m : Memory) : (s.setMem m).result = s.result := rfl

@[simp] theorem setCol_cpu (c : Nat) : (s.setCol c).cpu = s.cpu := rfl
@[simp] theorem setCol_ivt (c : Nat) : (s.setCol c).ivt = s.ivt := rfl
@[simp] theorem setCol_ivtBuilt (c : Nat) : (s.setCol c).ivtBuilt = s.ivtBuilt := rfl
@[simp] theorem setCol_idtActive (c : Nat) : (s.setCol c).idtActive = s.idtActive := rfl
@[simp] theorem setCol_master (c : Nat) : (s.setCol c).master = s.master := rfl
@[simp] theorem setCol_slave (c : Nat) : (s.setCol c).slave = s.slave := rfl
@[simp] theorem setCol_kbd (c : Nat) : (s.setCol c).kbd = s.kbd := rfl
@[simp] theorem setCol_mem (c : Nat) : (s.setCol c).mem = s.mem := rfl
@[simp] theorem setCol_writer (c : Nat) : (s.setCol c).writer = { s.writer with col := c } := rfl
@[simp] theorem setCol_locks (c : Nat) : (s.setCol c).locks = s.locks := rfl
@[simp] theorem setCol_diag (c : Nat) : (s.setCol c).diag = s.diag := rfl
@[simp] theorem setCol_iolog (c : Nat) : (s.setCol c).iolog = s.iolog := rfl
@[simp] theorem setCol_stop (c : Nat) : (s.setCol c).stop = s.stop := rfl
@[simp] theorem setCol_cfg (c : Nat) : (s.setCol c).cfg = s.cfg := rfl
@[simp] theorem setCol_prog (c : Nat) : (s.setCol c).prog = s.prog := rfl
@[simp] theorem setCol_draws (c : Nat) : (s.setCol c).draws = s.draws := rfl
@[simp] theorem setCol_result (c : Nat) : (s.setCol c).result = s.result := rfl

@[simp] theorem setObuf_cpu (b : Option Byte) : (s.setObuf b).cpu = s.cpu := rfl
@[simp] theorem setObuf_ivt (b : Option Byte) : (s.setObuf b).ivt = s.ivt := rfl
@[simp] theorem setObuf_ivtBuilt (b : Option Byte) : (s.setObuf b).ivtBuilt = s.ivtBuilt := rfl
@[simp] theorem setObuf_idtActive (b : Option Byte) : (s.setObuf b).idtActive = s.idtActive := rfl
@[simp] theorem setObuf_master (b : Option Byte) : (s.setObuf b).master = s.master := rfl
@[simp] theorem setObuf_slave (b : Option Byte) : (s.setObuf b).slave = s.slave := rfl
@[simp] theorem setObuf_kbd (b : Option Byte) : (s.setObuf b).kbd = { s.kbd with obuf := b } := rfl
@[simp] theorem setObuf_mem (b : Option Byte) : (s.setObuf b).mem = s.mem := rfl
@[simp] theorem setObuf_writer (b : Option Byte) : (s.setObuf b).writer = s.writer := rfl
@[simp] theorem setObuf_locks (b : Option Byte) : (s.setObuf b).locks = s.locks := rfl
@[simp] theorem setObuf_diag (b : Option Byte) : (s.setObuf b).diag = s.diag := rfl
@[simp] theorem setObuf_iolog (b : Option Byte) : (s.setObuf b).iolog = s.iolog := rfl
@[simp] theorem setObuf_stop (b : Option Byte) : (s.setObuf b).stop = s.stop := rfl
@[simp] theorem setObuf_cfg (b : Option Byte) : (s.setObuf b).cfg = s.cfg := rfl
@[simp] theorem setObuf_prog (b : Option Byte) : (s.setObuf b).prog = s.prog := rfl
@[simp] theorem setObuf_draws (b : Option Byte) : (s.setObuf b).draws = s.draws := rfl
@[simp] theorem setObuf_result (b : Option Byte) : (s.setObuf b).result = s.result := rfl

@[simp] theorem setDec_cpu (d : Decoder) : (s.setDec d).cpu = s.cpu := rfl
@[simp] theorem setDec_ivt (d : Decoder) : (s.setDec d).ivt = s.ivt := rfl
@[simp] theorem setDec_ivtBuilt (d : Decoder) : (s.setDec d).ivtBuilt = s.ivtBuilt := rfl
@[simp] theorem setDec_idtActive (d : Decoder) : (s.setDec d).idtActive = s.idtActive := rfl
@[simp] theorem setDec_master (d : Decoder) : (s.setDec d).master = s.master := rfl
@[simp] theorem setDec_slave (d : Decoder) : (s.setDec d).slave = s.slave := rfl
@[simp] theorem setDec_kbd (d : Decoder) : (s.setDec d).kbd = { s.kbd with dec := d } := rfl
@[simp] theorem setDec_mem (d : Decoder) : (s.setDec d).mem = s.mem := rfl
@[simp] theorem setDec_writer (d : Decoder) : (s.setDec d).writer = s.writer := rfl
@[simp] theorem setDec_locks (d : Decoder) : (s.setDec d).locks = s.locks := rfl
@[simp] theorem setDec_diag (d : Decoder) : (s.setDec d).diag = s.diag := rfl
@[simp] theorem setDec_iolog (d : Decoder) : (s.setDec d).iolog = s.iolog := rfl
@[simp] theorem setDec_stop (d : Decoder) : (s.setDec d).stop = s.stop := rfl
@[simp] theorem setDec_cfg (d : Decoder) : (s.setDec d).cfg = s.cfg := rfl
@[simp] theorem setDec_prog (d : Decoder) : (s.setDec d).prog = s.prog := rfl
@[simp] theorem setDec_draws (d : Decoder) : (s.setDec d).draws = s.draws := rfl
@[simp] theorem setDec_result (d : Decoder) : (s.setDec d).result = s.result := rfl

@[simp] theorem setCpu_cpu (c : Cpu) : (s.setCpu c).cpu = c := rfl
@[simp] theorem setCpu_ivt (c : Cpu) : (s.setCpu c).ivt = s.ivt := rfl
@[simp] theorem setCpu_ivtBuilt (c : Cpu) : (s.setCpu c).ivtBuilt = s.ivtBuilt := rfl
@[simp] theorem setCpu_idtActive (c : Cpu) : (s.setCpu c).idtActive = s.idtActive := rfl
@[simp] theorem setCpu_master (c : Cpu) : (s.setCpu c).master = s.master := rfl
@[simp] theorem setCpu_slave (c : Cpu) : (s.setCpu c).slave = s.slave := rfl
@[simp] theorem setCpu_kbd (c : Cpu) : (s.setCpu c).kbd = s.kbd := rfl
@[simp] theorem setCpu_mem (c : Cpu) : (s.setCpu c).mem = s.mem := rfl
@[simp] theorem setCpu_writer (c : Cpu) : (s.setCpu c).writer = s.writer := rfl
@[simp] theorem setCpu_locks (c : Cpu) : (s.setCpu c).locks = s.locks := rfl
@[simp] theorem setCpu_diag (c : Cpu) : (s.setCpu c).diag = s.diag := rfl
@[simp] theorem setCpu_iolog (c : Cpu) : (s.setCpu c).iolog = s.iolog := rfl
@[simp] theorem setCpu_stop (c : Cpu) : (s.setCpu c).stop = s.stop := rfl
@[simp] theorem setCpu_cfg (c : Cpu) : (s.setCpu c).cfg = s.cfg := rfl
@[simp] theorem setCpu_prog (c : Cpu) : (s.setCpu c).prog = s.prog := rfl
@[simp] theorem setCpu_draws (c : Cpu) : (s.setCpu c).draws = s.draws := rfl
@[simp] theorem setCpu_result (c : Cpu) : (s.setCpu c).result = s.result := rfl

@[simp] theorem setPic_pic_self (c : Ctrl) (p : Pic) : (s.setPic c p).pic c = p := by cases c <;> rfl

@[simp] theorem setPic_master_master (p : Pic) : (s.setPic .master p).master = p := rfl
@[simp] theorem setPic_master_slave (p : Pic) : (s.setPic .master p).slave = s.slave := rfl
@[simp] theorem setPic_slave_slave (p : Pic) : (s.setPic .slave p).slave = p := rfl
@[simp] theorem setPic_slave_master (p : Pic) : (s.setPic .slave p).master = s.master := rfl

theorem setPic_pic (c d : Ctrl) (p : Pic) : (s.setPic c p).pic d = if d = c then p else s.pic d := by
  cases c <;> cases d <;> rfl

@[simp] theorem pic_master : s.pic .master = s.master := rfl
@[simp] theorem pic_slave : s.pic .slave = s.slave := rfl

theorem pic_congr {s t : State} (hm : t.master = s.master) (hs : t.slave = s.slave) (c : Ctrl) : t.pic c = s.pic c := by
  cases c
  · exact hm
  · exact hs

@[simp] theorem setLock_lock_self (r : Resource) (v : LockState) : (s.setLock r v).lock r = v := by cases r <;> rfl

theorem setLock_lock (r q : Resource) (v : LockState) : (s.setLock r v).lock q = if q = r then v else s.lock q := by
  cases r <;> cases q <;> rfl

theorem lock_congr {s t : State} (h : t.locks = s.locks) (r : Resource) : t.lock r = s.lock r := by
  cases r <;> simp [lock, h]

@[simp] theorem setIF_pic (b : Bool) (k : Ctrl) : (s.setIF b).pic k = s.pic k := pic_congr (by simp) (by simp) k
@[simp] theorem setIF_lock (b : Bool) (q : Resource) : (s.setIF b).lock q = s.lock q := lock_congr (by simp) q
@[simp] theorem setPic_lock (c : Ctrl) (p : Pic) (q : Resource) : (s.setPic c p).lock q = s.lock q := lock_congr (by simp) q
@[simp] theorem setLock_pic (r : Resource) (v : LockState) (k : Ctrl) : (s.setLock r v).pic k = s.pic k := pic_congr (by simp) (by simp) k
@[simp] theorem pushLog_pic (e : IoEvent) (k : Ctrl) : (s.pushLog e).pic k = s.pic k := pic_congr (by simp) (by simp) k
@[simp] theorem pushLog_lock (e : IoEvent) (q : Resource) : (s.pushLog e).lock q = s.lock q := lock_congr (by simp) q
@[simp] theorem pushDiag_pic (d : DiagRecord) (k : Ctrl) : (s.pushDiag d).pic k = s.pic k := pic_congr (by simp) (by simp) k
@[simp] theorem pushDiag_lock (d : DiagRecord) (q : Resource) : (s.pushDiag d).lock q = s.lock q := lock_congr (by simp) q
@[simp] theorem stopAt_pic (r : StopReason) (k : Ctrl) : (s.stopAt r).pic k = s.pic k := pic_congr (by simp) (by simp) k
@[simp] theorem stopAt_lock (r : StopReason) (q : Resource) : (s.stopAt r).lock q = s.lock q := lock_congr (by simp) q
@[simp] theorem setResult_pic (v : Result) (k : Ctrl) : (s.setResult v).pic k = s.pic k := pic_congr (by simp) (by simp) k
@[simp] theorem setResult_lock (v : Result) (q : Resource) : (s.setResult v).lock q = s.lock q := lock_congr (by simp) q
@[simp] theorem setMem_pic (m : Memory) (k : Ctrl) : (s.setMem m).pic k = s.pic k := pic_congr (by simp) (by simp) k
@[simp] theorem setMem_lock (m : Memory) (q : Resource) : (s.setMem m).lock q = s.lock q := lock_congr (by simp) q
@[simp] theorem setCol_pic (c : Nat) (k : Ctrl) : (s.setCol c).pic k = s.pic k := pic_congr (by simp) (by simp) k
@[simp] theorem setCol_lock (c : Nat) (q : Resource) : (s.setCol c).lock q = s.lock q := lock_congr (by simp) q
@[simp] theorem setObuf_pic (b : Option Byte) (k : Ctrl) : (s.setObuf b).pic k = s.pic k := pic_congr (by simp) (by simp) k
@[simp] theorem setObuf_lock (b : Option Byte) (q : Resource) : (s.setObuf b).lock q = s.lock q := lock_congr (by simp) q
@[simp] theorem setDec_pic (d : Decoder) (k : Ctrl) : (s.setDec d).pic k = s.pic k := pic_congr (by simp) (by simp) k
@[simp] theorem setDec_lock (d : Decoder) (q : Resource) : (s.setDec d).lock q = s.lock q := lock_congr (by simp) q
@[simp] theorem setCpu_pic (c : Cpu) (k : Ctrl) : (s.setCpu c).pic k = s.pic k := pic_congr (by simp) (by simp) k
@[simp] theorem setCpu_lock (c : Cpu) (q : Resource) : (s.setCpu c).lock q = s.lock q := lock_congr (by simp) q

/-- What follows a state that has not stopped happens. -/
theorem andThen_of_running {s : State} (h : s.stop = none) (f : State → State) : s.andThen f = f s := by
  simp [andThen, h]

/-- What follows a stop does not happen (R327). -/
theorem andThen_of_stopped {s : State} {r : StopReason} (h : s.stop = some r) (f : State → State) : s.andThen f = s := by
  simp [andThen, h]

/-- Either of the two. -/
theorem andThen_cases (s : State) (f : State → State) :
    (s.stop = none ∧ s.andThen f = f s) ∨ ((∃ r, s.stop = some r) ∧ s.andThen f = s) := by
  cases h : s.stop with
  | none => exact .inl ⟨rfl, andThen_of_running h f⟩
  | some r => exact .inr ⟨⟨r, rfl⟩, andThen_of_stopped h f⟩

end Sys2Proof.Machine.State
end

