-- ==== Sys2Proof/Laws/Flags.lean ====
section
/-! SUPPORT. Laws of single bits and of the flag `IF`. -/

namespace Sys2Proof.Machine

open Sys2Proof

/-- A bit of the byte with one bit set. -/
theorem getLsbD_one_shiftLeft {w : Nat} (i j : Nat) (hj : j < w) : ((1#w) <<< i).getLsbD j = decide (j = i) := by
  rw [BitVec.getLsbD_shiftLeft, BitVec.getLsbD_one]
  by_cases h : j = i
  · subst h; simp [hj]; omega
  · by_cases hlt : j < i
    · simp [hlt, h]
    · have : j - i ≠ 0 := by omega
      simp [h, this]

/-- Reading a bit of `setBit`. -/
theorem getLsbD_setBit {w : Nat} (v : BitVec w) (i j : Nat) (b : Bool) (hj : j < w) :
    (setBit v i b).getLsbD j = if j = i then b else v.getLsbD j := by
  cases b
  · rw [setBit, if_neg Bool.false_ne_true, BitVec.getLsbD_and, BitVec.getLsbD_not, getLsbD_one_shiftLeft _ _ hj]
    by_cases h : j = i <;> simp [h, hj]
  · rw [setBit, if_pos rfl, BitVec.getLsbD_or, getLsbD_one_shiftLeft _ _ hj]
    by_cases h : j = i <;> simp [h]

/-- Reading a bit of a context word with one bit set to `b`. -/
theorem testBit_setWordBit (w : XWord) (i j : Nat) (b : Bool) :
    (setWordBit w i b).testBit j = if j = i then b else w.testBit j := by
  unfold setWordBit
  split
  · rename_i h
    split
    · rename_i hj; rw [hj, h]
    · rfl
  · rename_i h
    rw [Nat.testBit_xor, Nat.testBit_two_pow]
    by_cases hj : j = i
    · subst hj
      cases b <;> simp_all
    · simp [hj, Ne.symm hj]

/-- `IF` of a flags word whose `IF` was set to `b`. -/
@[simp] theorem flagIF_withIF (cfg : Config) (flags : XWord) (b : Bool) : flagIF cfg (withIF cfg flags b) = b := by
  rw [flagIF, withIF, testBit_setWordBit, if_pos rfl]

/-- R23: every bit of a flags word whose `IF` was set to `b`: the other bits are carried unchanged. -/
theorem testBit_withIF (cfg : Config) (flags : XWord) (b : Bool) (j : Nat) :
    (withIF cfg flags b).testBit j = if j = cfg.ifBit then b else flags.testBit j := testBit_setWordBit ..

/-- R44: every bit of the flags word at reset. -/
theorem testBit_flagsAtReset (cfg : Config) (flags : XWord) (j : Nat) :
    (flagsAtReset cfg flags).testBit j = if j = cfg.ifBit then false else flags.testBit j := testBit_setWordBit ..

@[simp] theorem setIF_IF (s : State) (b : Bool) : (s.setIF b).IF = b := by simp [State.IF]

/-- `IF` is read from the CPU and the parameters alone. -/
theorem IF_congr {s t : State} (hc : t.cpu.flags = s.cpu.flags) (hg : t.cfg = s.cfg) : t.IF = s.IF := by
  simp [State.IF, hc, hg]

/-- The reset flags have `IF` at 0 (R44). -/
theorem flagsAtReset_IF (cfg : Config) (flags : XWord) : flagIF cfg (flagsAtReset cfg flags) = false := by
  rw [flagIF, testBit_flagsAtReset, if_pos rfl]

end Sys2Proof.Machine
end

