-- ==== Sys2Proof/Laws/Guards.lean ====
section
/-! SUPPORT. The enabling conditions, once: when a guarded meaning runs, and what a next state says about the guards. -/

namespace Sys2Proof.Machine

open Sys2Proof

/-- In mainline nothing blocks. -/
theorem mainlineBlock_of_mainline {s : State} (h : s.Mainline) : mainlineBlock s = none := by
  simp [mainlineBlock, h.2.1, h.2.2.1, h.2.2.2]

/-- R286: in mainline a guarded operation runs. -/
theorem whenMainline_of_mainline {s : State} (h : s.Mainline) (k : Out) : whenMainline s k = k := by
  simp [whenMainline, whenRunning, h.1, mainlineBlock_of_mainline h]

/-- A running machine runs. -/
theorem whenRunning_of_running {s : State} (h : s.stop = none) (k : Out) : whenRunning s k = k := by
  simp [whenRunning, h]

/-- R39: a stopped machine answers its stop. -/
theorem whenRunning_of_stopped {s : State} {r : StopReason} (h : s.stop = some r) (k : Out) :
    whenRunning s k = stoppedOutcome r := by
  simp [whenRunning, h]

theorem whenMainline_of_stopped {s : State} {r : StopReason} (h : s.stop = some r) (k : Out) :
    whenMainline s k = stoppedOutcome r := whenRunning_of_stopped h _

/-- With its lock free an operation runs. -/
theorem whenFree_of_free {s : State} {r : Resource} (h : s.lock r = .free) (k : Out) : whenFree r s k = k := by
  simp [whenFree, h]

/-- A stop is never a next state. -/
theorem stoppedOutcome_ne_next (r : StopReason) (t : State) : stoppedOutcome r ≠ .next t := by
  cases r <;> simp [stoppedOutcome, StopReason.kind]

theorem blocked_ne_next (w : Blocked) (t : State) : blocked w ≠ .next t := by simp [blocked]

/-- What a next state of a guarded operation says: the machine was running. -/
theorem whenRunning_next {s t : State} {k : Out} (h : whenRunning s k = .next t) : s.stop = none ∧ k = .next t := by
  cases hs : s.stop with
  | none => exact ⟨rfl, by simpa [whenRunning, hs] using h⟩
  | some r => exact absurd (by simpa [whenRunning, hs] using h) (stoppedOutcome_ne_next r t)

/-- What a next state of a mainline operation says: `Mainline(S)` held. -/
theorem whenMainline_next {s t : State} {k : Out} (h : whenMainline s k = .next t) : s.Mainline ∧ k = .next t := by
  obtain ⟨hs, h⟩ := whenRunning_next h
  cases hb : mainlineBlock s with
  | some w => rw [hb] at h; exact absurd h (blocked_ne_next w t)
  | none =>
    rw [hb] at h
    refine ⟨⟨hs, ?_⟩, h⟩
    unfold mainlineBlock at hb
    split at hb
    · cases hb
    · split at hb
      · cases hb
      · split at hb
        · cases hb
        · simp_all

/-- What a next state of an operation that needs a lock says: the lock was free. -/
theorem whenFree_next {s t : State} {r : Resource} {k : Out} (h : whenFree r s k = .next t) :
    s.lock r = .free ∧ k = .next t := by
  cases hl : s.lock r with
  | free => exact ⟨rfl, by simpa [whenFree, hl] using h⟩
  | heldByMainline => exact absurd (by simpa [whenFree, hl] using h) (blocked_ne_next _ t)

/-- What a next state says of an operation that a condition enables: the condition held. -/
theorem guard_next {p : Prop} [Decidable p] {t : State} {k : Out} {w : Blocked}
    (h : (if p then k else blocked w) = .next t) : p ∧ k = .next t := by
  by_cases hp : p
  · exact ⟨hp, by simpa [hp] using h⟩
  · simp only [hp, if_false] at h
    exact absurd h (blocked_ne_next w t)

end Sys2Proof.Machine
end

