-- ==== Sys2Proof/Laws/Pic.lean ====
section
/-! SUPPORT. What a byte at a controller, a port transaction, a request and an acceptance can do, once each. -/

namespace Sys2Proof.Machine

open Sys2Proof

/-! ## Bytes of a controller, and the smallest set bit -/

/-- R176: the smallest set bit is set, and no smaller one is. -/
theorem lowestSet_eq_some {v : Byte} {i : Fin 8} (h : lowestSet v = some i) :
    v.getLsbD i.val = true ∧ ∀ j : Fin 8, j < i → v.getLsbD j.val = false := by
  revert v i; decide

/-- R179: no bit is set where none is found. -/
theorem lowestSet_eq_none {v : Byte} (h : lowestSet v = none) : v = 0#8 := by
  revert v; decide

/-- The output of a controller with nothing in service is its highest-priority request (R179). -/
theorem inServiceUpTo_zero (p : Fin 8) : inServiceUpTo 0#8 p = false := by revert p; decide

/-- R179: what an interrupt output says. -/
theorem intOutOf_eq_some {p : Pic} {req : Byte} {i : Fin 8} (h : intOutOf p req = some i) :
    p.init = .ready ∧ lowestSet (req &&& ~~~p.imr) = some i ∧ inServiceUpTo p.isr i = false := by
  unfold intOutOf at h
  split at h
  · split at h
    · cases h
    · split at h
      · cases h
      · rename_i h1 _ _ h2 h3
        cases h; exact ⟨h1, h2, by simpa using h3⟩
  · cases h

/-! ## Frames: a byte at controller `c` changes that controller's registers, or stops -/

/-- `t` is `s` but for the registers of controller `c`, or `s` stopped. -/
def PicStep (c : Ctrl) (s t : State) : Prop := t = s.setPic c (t.pic c) ∨ ∃ r, t = s.stopAt r

theorem setPic_picStep (c : Ctrl) (s : State) (p : Pic) : PicStep c s (s.setPic c p) :=
  .inl (by rw [State.setPic_pic_self])

theorem stopAt_picStep (c : Ctrl) (s : State) (r : StopReason) : PicStep c s (s.stopAt r) := .inr ⟨r, rfl⟩

theorem picIcw1_step (c : Ctrl) (s : State) : PicStep c s (picIcw1 c s) := by
  unfold picIcw1; split
  · exact setPic_picStep ..
  · exact stopAt_picStep ..

theorem picIcw2_step (c : Ctrl) (b : Byte) (s : State) : PicStep c s (picIcw2 c b s) := by
  unfold picIcw2; split
  · exact setPic_picStep ..
  · exact stopAt_picStep ..

theorem picIcw3_step (c : Ctrl) (b : Byte) (s : State) : PicStep c s (picIcw3 c b s) := by
  unfold picIcw3; split
  · exact setPic_picStep ..
  · exact stopAt_picStep ..

theorem picIcw4_step (c : Ctrl) (b : Byte) (s : State) : PicStep c s (picIcw4 c b s) := by
  unfold picIcw4; split
  · exact setPic_picStep ..
  · exact stopAt_picStep ..

theorem picOcw1_step (c : Ctrl) (b : Byte) (s : State) : PicStep c s (picOcw1 c b s) := setPic_picStep ..

theorem picEoi_step (c : Ctrl) (s : State) : PicStep c s (picEoi c s) := by
  unfold picEoi; split
  · exact setPic_picStep ..
  · exact stopAt_picStep ..

/-- R170: a command-port byte. -/
theorem picCommand_step (c : Ctrl) (b : Byte) (s : State) : PicStep c s (picCommand c b s) := by
  unfold picCommand; split
  · exact picIcw1_step ..
  · split
    · exact picEoi_step ..
    · exact stopAt_picStep ..

/-- R103: a data-port byte. -/
theorem picData_step (c : Ctrl) (b : Byte) (s : State) : PicStep c s (picData c b s) := by
  unfold picData; split
  · exact stopAt_picStep ..
  · exact picIcw2_step ..
  · exact picIcw3_step ..
  · exact picIcw4_step ..
  · exact picOcw1_step ..

/-- R280: a port write is logged, then acts at one controller or stops. -/
theorem portWrite_step (port : Half) (b : Byte) (s : State) :
    ∃ c, PicStep c (s.pushLog (.output port b)) (portWrite port b s) := by
  unfold portWrite; split
  · exact ⟨_, picCommand_step ..⟩
  · split
    · exact ⟨_, picCommand_step ..⟩
    · split
      · exact ⟨_, picData_step ..⟩
      · split
        · exact ⟨_, picData_step ..⟩
        · exact ⟨.master, stopAt_picStep ..⟩

/-- The fields a controller step leaves alone. -/
structure SameButPic (s t : State) : Prop where
  cpu : t.cpu = s.cpu
  ivt : t.ivt = s.ivt
  ivtBuilt : t.ivtBuilt = s.ivtBuilt
  idtActive : t.idtActive = s.idtActive
  kbd : t.kbd = s.kbd
  mem : t.mem = s.mem
  writer : t.writer = s.writer
  locks : t.locks = s.locks
  diag : t.diag = s.diag
  cfg : t.cfg = s.cfg
  prog : t.prog = s.prog
  draws : t.draws = s.draws
  result : t.result = s.result

theorem SameButPic.refl (s : State) : SameButPic s s := ⟨rfl, rfl, rfl, rfl, rfl, rfl, rfl, rfl, rfl, rfl, rfl, rfl, rfl⟩

theorem SameButPic.trans {s t u : State} (h : SameButPic s t) (k : SameButPic t u) : SameButPic s u :=
  ⟨k.cpu.trans h.cpu, k.ivt.trans h.ivt, k.ivtBuilt.trans h.ivtBuilt, k.idtActive.trans h.idtActive, k.kbd.trans h.kbd,
    k.mem.trans h.mem, k.writer.trans h.writer, k.locks.trans h.locks, k.diag.trans h.diag, k.cfg.trans h.cfg,
    k.prog.trans h.prog, k.draws.trans h.draws, k.result.trans h.result⟩

theorem PicStep.same {c : Ctrl} {s t : State} (h : PicStep c s t) : SameButPic s t := by
  rcases h with h | ⟨r, h⟩ <;> rw [h] <;> constructor <;> simp

/-- A controller step logs nothing of its own. -/
theorem PicStep.iolog {c : Ctrl} {s t : State} (h : PicStep c s t) : t.iolog = s.iolog := by
  rcases h with h | ⟨r, h⟩ <;> rw [h] <;> simp

/-- R280: a port write changes controllers, the log and the stop alone. -/
theorem portWrite_same (port : Half) (b : Byte) (s : State) : SameButPic s (portWrite port b s) := by
  obtain ⟨c, h⟩ := portWrite_step port b s
  exact SameButPic.trans (by constructor <;> simp) h.same

/-- R280: "The log entry is appended even when the write then stops." -/
theorem portWrite_iolog (port : Half) (b : Byte) (s : State) :
    (portWrite port b s).iolog = s.iolog ++ [.output port b] := by
  obtain ⟨c, h⟩ := portWrite_step port b s
  rw [h.iolog, State.pushLog_iolog]

/-- R327: port writes in order change controllers, the log and the stop alone. -/
theorem portWrites_same (ws : List (Half × Byte)) (s : State) : SameButPic s (portWrites ws s) := by
  unfold portWrites
  induction ws generalizing s with
  | nil => exact .refl s
  | cons w ws ih =>
    refine SameButPic.trans ?_ (ih _)
    show SameButPic s (s.andThen (portWrite w.1 w.2))
    rcases State.andThen_cases s (portWrite w.1 w.2) with ⟨_, h⟩ | ⟨_, h⟩ <;> rw [h]
    · exact portWrite_same ..
    · exact .refl s

/-- R190: `Ack` changes controllers, the log and the stop alone. -/
theorem ack_same (v : Byte) (s : State) : SameButPic s (ackVector v s) := by
  unfold ackVector; split
  · exact portWrites_same ..
  · constructor <;> simp

/-- R177: a request changes controllers alone. -/
theorem request_same (c : Ctrl) (i : Fin 8) (s : State) :
    SameButPic s (request c i s) ∧ (request c i s).iolog = s.iolog ∧ (request c i s).stop = s.stop := by
  unfold request; split
  · exact ⟨by constructor <;> simp, by simp, by simp⟩
  · exact ⟨.refl s, rfl, rfl⟩

/-- R181: what an acceptance does, in full: the master's line, or through the cascade the slave's. -/
theorem accept_cases {s t : State} {v : Byte} (h : accept s = some (t, v)) :
    (∃ p, intOut s .master = some p ∧ p ≠ s.cfg.cascadeLine ∧ t = takeLine .master p s ∧ v = lineVector s.master.offset p) ∨
    (∃ ps, intOut s .master = some s.cfg.cascadeLine ∧ intOut s .slave = some ps ∧
      t = takeLine .slave ps (takeCascade s) ∧ v = lineVector s.slave.offset ps) := by
  unfold accept at h
  split at h
  · cases h
  · split at h
    · cases h; exact .inl ⟨_, ‹_›, ‹_›, rfl, rfl⟩
    · split at h
      · cases h
      · cases h
        rename_i hp hn _ _ hs
        exact .inr ⟨_, by rw [hp]; simpa using hn, hs, rfl, rfl⟩

/-- R180: the cascade input requests only while the slave's output does. -/
theorem slave_out_of_cascade {s : State} (h : intOut s .master = some s.cfg.cascadeLine) :
    ∃ ps, intOut s .slave = some ps := by
  obtain ⟨_, hl, _⟩ := intOutOf_eq_some h
  have hbit := (lowestSet_eq_some hl).1
  rw [BitVec.getLsbD_and, Bool.and_eq_true] at hbit
  have hb := hbit.1
  rw [effIrr, getLsbD_setBit _ _ _ _ s.cfg.cascadeLine.isLt, if_pos rfl] at hb
  exact Option.isSome_iff_exists.1 hb

/-- R296: where the master's output is raised, an acceptance happens. -/
theorem accept_isSome {s : State} (h : intOut s .master ≠ none) : ∃ t v, accept s = some (t, v) := by
  cases hp : intOut s .master with
  | none => exact absurd hp h
  | some p =>
    by_cases hc : p = s.cfg.cascadeLine
    · obtain ⟨ps, hs⟩ := slave_out_of_cascade (hc ▸ hp)
      simp only [accept, hp, hc, hs, ne_eq, not_true_eq_false, if_false]
      exact ⟨_, _, rfl⟩
    · simp only [accept, hp, ne_eq, hc, not_false_eq_true, if_true]
      exact ⟨_, _, rfl⟩

/-- R181: an acceptance changes controllers alone, and neither logs nor stops. -/
theorem accept_same {s t : State} {v : Byte} (h : accept s = some (t, v)) :
    SameButPic s t ∧ t.iolog = s.iolog ∧ t.stop = s.stop := by
  rcases accept_cases h with ⟨p, _, _, rfl, _⟩ | ⟨ps, _, _, rfl, _⟩
  · exact ⟨by constructor <;> simp [takeLine], by simp [takeLine], by simp [takeLine]⟩
  · exact ⟨by constructor <;> simp [takeLine, takeCascade], by simp [takeLine, takeCascade], by simp [takeLine, takeCascade]⟩

/-- The smallest bit that is set, said bit by bit. -/
theorem lowestSet_eq_some_iff (v : Byte) (i : Fin 8) :
    lowestSet v = some i ↔ v.getLsbD i.val = true ∧ ∀ j : Fin 8, j < i → v.getLsbD j.val = false := by
  revert v i; decide +kernel

/-- R179: nothing of the same or higher priority in service, said bit by bit. -/
theorem inServiceUpTo_eq_false_iff (v : Byte) (p : Fin 8) :
    inServiceUpTo v p = false ↔ ∀ q : Fin 8, q ≤ p → v.getLsbD q.val = false := by
  revert v p; decide +kernel

end Sys2Proof.Machine
end

