-- ==== Sys2Proof/Laws/Valid.lean ====
section
/-! SUPPORT. What the constraints among the parameters (rule R9) give the proofs: one lemma per constraint, and what each port of
the map then does. -/

namespace Sys2Proof.Config

open Sys2Proof

variable {cfg : Config}

/-- R8: the width of the context words. -/
theorem valid_xlen (h : cfg.valid = true) :
    cfg.ifBit < cfg.xlen ∧ cfg.dfCode < 2 ^ cfg.xlen := by
  simp only [valid, Bool.and_eq_true, decide_eq_true_eq] at h
  exact h.1.1.1.1.1.1.1.1.1.1

/-- R9(a), R9(b). -/
theorem valid_base (h : cfg.valid = true) : 32 ≤ cfg.irqBase.toNat ∧ cfg.irqBase.toNat ≤ 240 ∧ cfg.irqBase.toNat % 8 = 0 := by
  simp only [valid, Bool.and_eq_true, decide_eq_true_eq] at h
  exact h.1.1.1.1.1.1.1.1.1.2

/-- R9(c). -/
theorem valid_ports (h : cfg.valid = true) : [cfg.pic1Cmd, cfg.pic1Data, cfg.pic2Cmd, cfg.pic2Data, cfg.kbdPort].Nodup := by
  simp only [valid, Bool.and_eq_true, decide_eq_true_eq] at h
  exact h.1.1.1.1.1.1.1.1.2

/-- R9(d): the newline is not printable. -/
theorem valid_newline (h : cfg.valid = true) : cfg.newline.toNat < cfg.printLo.toNat ∨ cfg.printHi.toNat < cfg.newline.toNat := by
  simp only [valid, Bool.and_eq_true, decide_eq_true_eq] at h
  exact h.1.1.1.1.1.1.2

/-- R9(f). -/
theorem valid_cascade (h : cfg.valid = true) : cfg.cascadeLine ≠ 0 ∧ cfg.cascadeLine ≠ 1 := by
  simp only [valid, Bool.and_eq_true, decide_eq_true_eq] at h
  exact h.1.1.1.1.2

/-- R102: bit 4 tells the two admitted command bytes apart. -/
theorem valid_commands (h : cfg.valid = true) : cfg.eoiCmd ≠ cfg.icw1Init := by
  intro e
  simp only [valid, Bool.and_eq_true, Bool.not_eq_true', e] at h
  have h1 := h.1.1.1.2
  rw [h.1.1.2] at h1
  cases h1

/-- The value a list of pairs gives a key is that of one of its pairs. -/
theorem mem_of_lookup {α β : Type} [BEq α] [LawfulBEq α] {l : List (α × β)} {a : α} {b : β} (h : l.lookup a = some b) :
    (a, b) ∈ l := by
  obtain ⟨l1, l2, rfl, _⟩ := List.lookup_eq_some_iff.1 h
  simp

/-- R114: the KeyId of a code of `KeyMap1`. -/
theorem valid_keyMap1 (h : cfg.valid = true) {c : BitVec 7} {k : KeyId} (hk : cfg.keyMap1.lookup c = some k) :
    k = 0#1 ++ c := by
  simp only [valid, keysNumbered, Bool.and_eq_true, List.all_eq_true, beq_iff_eq] at h
  exact h.2.1 _ (mem_of_lookup hk)

/-- R114: the KeyId of a code of `KeyMapExt`. -/
theorem valid_keyMapExt (h : cfg.valid = true) {c : BitVec 7} {k : KeyId} (hk : cfg.keyMapExt.lookup c = some k) :
    k = 1#1 ++ c := by
  simp only [valid, keysNumbered, Bool.and_eq_true, List.all_eq_true, beq_iff_eq] at h
  exact h.2.2 _ (mem_of_lookup hk)

/-- R114: "the two tables cannot collide". -/
theorem valid_keys_apart (h : cfg.valid = true) {c c' : BitVec 7} {k k' : KeyId} (hk : cfg.keyMap1.lookup c = some k)
    (hk' : cfg.keyMapExt.lookup c' = some k') : k ≠ k' := by
  rw [valid_keyMap1 h hk, valid_keyMapExt h hk']
  intro e
  have := congrArg (BitVec.getLsbD · 7) e
  simp only [BitVec.getLsbD_append, Nat.lt_irrefl, if_false] at this
  exact absurd this (by decide)

end Sys2Proof.Config

namespace Sys2Proof.Machine

open Sys2Proof

variable {s : State}

/-- R280: a write to a command port reaches its controller. -/
theorem portWrite_cmdPort (c : Ctrl) (b : Byte) :
    s.cfg.valid = true → portWrite (cmdPort s.cfg c) b s = picCommand c b (s.pushLog (.output (cmdPort s.cfg c) b)) := by
  intro h
  have := Config.valid_ports h
  simp only [List.nodup_cons, List.mem_cons, not_or, List.not_mem_nil] at this
  cases c
  · simp [portWrite, cmdPort]
  · simp [portWrite, cmdPort, Ne.symm this.1.2.1]

/-- R280: a write to a data port reaches its controller. -/
theorem portWrite_dataPort (c : Ctrl) (b : Byte) :
    s.cfg.valid = true → portWrite (dataPort s.cfg c) b s = picData c b (s.pushLog (.output (dataPort s.cfg c) b)) := by
  intro h
  have := Config.valid_ports h
  simp only [List.nodup_cons, List.mem_cons, not_or, List.not_mem_nil] at this
  cases c
  · simp [portWrite, dataPort, Ne.symm this.1.1, this.2.1.1]
  · simp [portWrite, dataPort, Ne.symm this.1.2.2.1, Ne.symm this.2.2.1.1, Ne.symm this.2.1.2.1]

/-- R280, R71: a write to any other port stops. -/
theorem portWrite_other {p : Half} (b : Byte) (hp : p ∉ [s.cfg.pic1Cmd, s.cfg.pic1Data, s.cfg.pic2Cmd, s.cfg.pic2Data]) :
    portWrite p b s = (s.pushLog (.output p b)).stopAt .rPort := by
  simp only [List.mem_cons, not_or, List.not_mem_nil] at hp
  simp [portWrite, hp]

/-- R281: a read of a data port. -/
theorem portRead_dataPort (c : Ctrl) :
    s.cfg.valid = true → portRead (dataPort s.cfg c) s = picDataRead c (dataPort s.cfg c) s := by
  intro h
  have := Config.valid_ports h
  simp only [List.nodup_cons, List.mem_cons, not_or, List.not_mem_nil] at this
  cases c
  · simp [portRead, dataPort, this.2.1.2.2.1]
  · simp [portRead, dataPort, this.2.2.2.1.1, Ne.symm this.2.1.2.1]

/-- R281, R170: a read of a command port stops. -/
theorem portRead_cmdPort (c : Ctrl) : s.cfg.valid = true → portRead (cmdPort s.cfg c) s = (s.stopAt .rPicCmd, none) := by
  intro h
  have := Config.valid_ports h
  simp only [List.nodup_cons, List.mem_cons, not_or, List.not_mem_nil] at this
  cases c
  · simp [portRead, cmdPort, this.1.1, this.1.2.2.1, this.1.2.2.2.1]
  · simp [portRead, cmdPort, this.2.2.1.1, this.2.2.1.2.1, Ne.symm this.2.1.1]

end Sys2Proof.Machine
end

