-- ==== Sys2Proof/Laws/Acknowledge.lean ====
section
/-! SUPPORT. The acknowledgment (rule R190) as one update of the state, with both controllers `Ready`. -/

namespace Sys2Proof.Machine

open Sys2Proof

variable {s : State}

/-- R176: the port write of the end-of-interrupt command at a `Ready` controller. -/
theorem portWrite_eoi (c : Ctrl) (hv : s.cfg.valid = true) (hr : (s.pic c).init = .ready) :
    portWrite (cmdPort s.cfg c) s.cfg.eoiCmd s =
      (s.pushLog (.output (cmdPort s.cfg c) s.cfg.eoiCmd)).setPic c { s.pic c with isr := eoiIsr (s.pic c).isr } := by
  rw [portWrite_cmdPort c _ hv, picCommand, State.pushLog_cfg, if_neg (Config.valid_commands hv), if_pos rfl, picEoi,
    State.pushLog_pic, if_pos hr]

/-- R190: the acknowledgment never stops once both controllers are `Ready`. -/
theorem ackVector_of_ready (v : Byte) (hs : s.stop = none) (hv : s.cfg.valid = true) (hm : s.master.init = .ready)
    (hl : s.slave.init = .ready) : ackVector v s = acked s v := by
  have e1 : ∀ o, inRange o v = decide (vectorOf o v) := fun _ => rfl
  rw [ackVector, if_pos ⟨hm, hl⟩, ackWrites, e1, e1]
  by_cases h1 : vectorOf s.slave.offset v
  · rw [if_pos (decide_eq_true h1)]
    have a : portWrite s.cfg.pic2Cmd s.cfg.eoiCmd s = _ := portWrite_eoi (s := s) .slave hv hl
    have b := portWrite_eoi (s := (s.pushLog (.output s.cfg.pic2Cmd s.cfg.eoiCmd)).setPic .slave
      { s.slave with isr := eoiIsr s.slave.isr }) .master hv hm
    have a' : s.andThen (portWrite s.cfg.pic2Cmd s.cfg.eoiCmd) = _ := (State.andThen_of_running hs _).trans a
    have e : portWrites [(s.cfg.pic2Cmd, s.cfg.eoiCmd), (s.cfg.pic1Cmd, s.cfg.eoiCmd)] s =
        (s.andThen (portWrite s.cfg.pic2Cmd s.cfg.eoiCmd)).andThen (portWrite s.cfg.pic1Cmd s.cfg.eoiCmd) := rfl
    rw [e, a', State.andThen_of_running (by exact hs)]
    refine Eq.trans b ?_
    unfold acked ackEvents
    rw [if_pos h1, if_pos h1, if_pos (.inl h1)]
    simp [State.setPic, State.pushLog, State.pic, cmdPort]
  · rw [if_neg (by simpa using h1)]
    by_cases h2 : vectorOf s.master.offset v
    · rw [if_pos (decide_eq_true h2)]
      have a : portWrite s.cfg.pic1Cmd s.cfg.eoiCmd s = _ := portWrite_eoi (s := s) .master hv hm
      refine Eq.trans (State.andThen_of_running hs _) (Eq.trans a ?_)
      unfold acked ackEvents
      rw [if_neg h1, if_pos h2, if_neg h1, if_pos (.inr h2)]
      rfl
    · rw [if_neg (by simpa using h2)]
      unfold acked ackEvents
      rw [if_neg h1, if_neg h2, if_neg h1, if_neg (by tauto), List.append_nil]
      rfl

/-- R190, R327: before both are `Ready` it stops, with no write. -/
theorem ackVector_of_not_ready (v : Byte) (h : ¬ (s.master.init = .ready ∧ s.slave.init = .ready)) :
    ackVector v s = s.stopAt .rPicCmd := by
  rw [ackVector, if_neg h]

/-- R190: a vector of the master alone: one write. -/
theorem acked_master {v : Byte} (h1 : ¬ vectorOf s.slave.offset v) (h2 : vectorOf s.master.offset v) :
    acked s v =
      { s with
        iolog := s.iolog ++ [.output s.cfg.pic1Cmd s.cfg.eoiCmd]
        master := { s.master with isr := eoiIsr s.master.isr } } := by
  unfold acked ackEvents
  rw [if_neg h1, if_pos h2, if_neg h1, if_pos (.inr h2)]

/-- R190: a vector of the slave: two writes, the slave's first. -/
theorem acked_slave {v : Byte} (h1 : vectorOf s.slave.offset v) :
    acked s v =
      { s with
        iolog := s.iolog ++ [.output s.cfg.pic2Cmd s.cfg.eoiCmd, .output s.cfg.pic1Cmd s.cfg.eoiCmd]
        slave := { s.slave with isr := eoiIsr s.slave.isr }
        master := { s.master with isr := eoiIsr s.master.isr } } := by
  unfold acked ackEvents
  rw [if_pos h1, if_pos h1, if_pos (.inl h1)]

end Sys2Proof.Machine
end

