-- ==== Sys2Proof/Laws/Decoder.lean ====
section
/-! SUPPORT. What each function of the keyboard decoder and of its output does, in the spec's words, once (rules R205, R211,
R215). -/

namespace Sys2Proof.Machine

open Sys2Proof

/-- R205: the model's UTF-8 encoding is the standard one. -/
theorem utf8_eq (ch : Char) : utf8 ch = (String.utf8EncodeChar ch).map UInt8.toBitVec := by
  have hn : ch.val.toNat < 0x110000 := by
    have h : ch.val.toNat < 0xD800 ∨ 0xDFFF < ch.val.toNat ∧ ch.val.toNat < 0x110000 := ch.valid
    omega
  simp only [utf8, String.utf8EncodeChar, Char.toNat, byteOf]
  by_cases h1 : ch.val.toNat < 0x80
  · rw [if_pos h1, if_pos (by omega)]; rfl
  by_cases h2 : ch.val.toNat < 0x800
  · rw [if_neg h1, if_pos h2, if_neg (by omega), if_pos (by omega), Nat.mod_eq_of_lt (by omega : _ / 64 < 32),
      Nat.add_comm, Nat.add_comm 0x80]
    rfl
  by_cases h3 : ch.val.toNat < 0x10000
  · rw [if_neg h1, if_neg h2, if_pos h3, if_neg (by omega), if_neg (by omega), if_pos (by omega),
      Nat.mod_eq_of_lt (by omega : _ / 4096 < 16), Nat.add_comm, Nat.add_comm 0x80, Nat.add_comm 0x80]
    rfl
  · rw [if_neg h1, if_neg h2, if_neg h3, if_neg (by omega), if_neg (by omega), if_neg (by omega),
      Nat.mod_eq_of_lt (by omega : _ / 262144 < 8), Nat.add_comm, Nat.add_comm 0x80, Nat.add_comm 0x80,
      Nat.add_comm 0x80]
    rfl

variable (cfg : Config) (d : Decoder)

/-- R211: the event of a code, its low seven bits named as the spec names them. -/
theorem lookupKey_eq (table : List (BitVec 7 × KeyId)) (b : Byte) :
    lookupKey table b = (table.lookup (b.extractLsb 6 0)).map fun k => ⟨k, keyStateOf b⟩ := rfl

/-- R211, R212, R213. -/
theorem addsByte_addByte (b : Byte) : addsByte cfg d b (addByte cfg d b).1 (addByte cfg d b).2 := by
  rintro _ rfl
  refine ⟨fun h hb => ?_, fun h hb => ?_, fun h => ?_⟩ <;> simp [addByte, lookupKey_eq, keyStateOf, *]

/-- R8, R228. -/
theorem laidOut_layoutOf (k : KeyId) (shift caps : Bool) : laidOut cfg k shift caps (layoutOf cfg k shift caps) := by
  refine ⟨fun h => by rw [layoutOf, h], fun row h => ?_⟩
  cases shift <;> cases caps <;> simp [layoutOf, h]

/-- A KeyState is compared as it is decided. -/
theorem beq_press (st : KeyState) : (st == .press) = decide (st = .press) := by cases st <;> rfl

/-- R215. -/
theorem processesKey_processKey (e : KeyEvent) :
    processesKey cfg d e (processKey cfg d e).1 (processKey cfg d e).2 := by
  refine ⟨fun h => ?_, fun h => ?_, fun h => ?_, fun h => ?_, fun h k => ?_, fun h k => ?_, fun h k => ?_, fun h k => ?_⟩
  all_goals (try rcases h with h | h) <;> simp [processKey, roleOf, beq_press, laidOut_layoutOf, *]

/-- R205. -/
theorem emits_emit (dk : DecodedKey) : emits cfg dk (emit cfg dk) := by
  refine ⟨fun ch h => ?_, fun k name h hk => ?_, fun k h hk => ?_⟩ <;> subst h
  · exact utf8_eq ch
  · rw [emit, keyNameOf, hk]
  · rw [emit, keyNameOf, hk]

end Sys2Proof.Machine
end

