-- ==== Sys2Proof/Laws/Memory.lean ====
section
/-! SUPPORT. The laws of the display memory: reading after writing, and the canonical form. -/

namespace Sys2Proof.Machine

open Sys2Proof

/-- A byte written is the byte read. -/
@[simp] theorem Memory.read_write_same (m : Memory) (a : Nat) (v : Byte) : (m.write a v).read a = some v := by
  induction m with
  | nil => simp [Memory.write, Memory.read]
  | cons x m ih =>
    obtain ⟨x, b⟩ := x
    by_cases h1 : a < x
    · simp [Memory.write, Memory.read, h1]
    · by_cases h2 : a = x
      · simp [Memory.write, Memory.read, h2]
      · have : ¬ x = a := fun h => h2 h.symm
        simp [Memory.write, Memory.read, h1, h2, this, ih]

/-- A write leaves every other byte alone. -/
theorem Memory.read_write_other (m : Memory) {a c : Nat} (v : Byte) (h : c ≠ a) : (m.write a v).read c = m.read c := by
  induction m with
  | nil => simp [Memory.write, Memory.read, Ne.symm h]
  | cons x m ih =>
    obtain ⟨x, b⟩ := x
    by_cases h1 : a < x
    · simp [Memory.write, Memory.read, h1, Ne.symm h]
    · by_cases h2 : a = x
      · subst h2; simp [Memory.write, Memory.read, Ne.symm h]
      · simp [Memory.write, Memory.read, h1, h2, ih]

/-- Which entries a write leaves: the new one and old ones. -/
theorem Memory.mem_write {m : Memory} {a : Nat} {v : Byte} {x : Host.Cell} (h : x ∈ m.write a v) : x = (a, v) ∨ x ∈ m := by
  induction m with
  | nil => simpa [Memory.write] using h
  | cons y m ih =>
    obtain ⟨y, b⟩ := y
    unfold Memory.write at h
    split at h
    · simpa using h
    · split at h
      · rcases List.mem_cons.1 h with h | h
        · exact .inl h
        · exact .inr (List.mem_cons_of_mem _ h)
      · rcases List.mem_cons.1 h with h | h
        · exact .inr (h ▸ List.mem_cons_self)
        · rcases ih h with h | h
          · exact .inl h
          · exact .inr (List.mem_cons_of_mem _ h)

/-- A write keeps the canonical form. -/
theorem Memory.write_wf {m : Memory} (h : m.wf) (a : Nat) (v : Byte) : (m.write a v).wf := by
  induction m with
  | nil => simp [Memory.write, Memory.wf]
  | cons x m ih =>
    obtain ⟨x, b⟩ := x
    obtain ⟨hx, hm⟩ := List.pairwise_cons.1 h
    by_cases h1 : a < x
    · simp only [Memory.write, h1, if_true]
      refine List.pairwise_cons.2 ⟨fun y hy => ?_, h⟩
      rcases List.mem_cons.1 hy with rfl | hy
      · exact h1
      · exact Nat.lt_trans h1 (hx y hy)
    · by_cases h2 : a = x
      · subst h2
        simp only [Memory.write, Nat.lt_irrefl, if_false, if_true]
        exact List.pairwise_cons.2 ⟨hx, hm⟩
      · simp only [Memory.write, h1, h2, if_false]
        refine List.pairwise_cons.2 ⟨fun y hy => ?_, ih hm⟩
        rcases Memory.mem_write hy with rfl | hy
        · show x < a; omega
        · exact hx y hy

/-- Reset memory has the canonical form. -/
theorem State.reset_mem_wf : State.reset.mem.wf := List.Pairwise.nil

variable (s : State)

/-- Reading the byte just written. -/
@[simp] theorem fbByte_putByte_same (a : Nat) (v : Byte) : fbByte (putByte s a v) a = v := by
  simp [fbByte, putByte]

/-- Reading another byte. -/
theorem fbByte_putByte_other {a c : Nat} (v : Byte) (h : c ≠ a) : fbByte (putByte s a v) c = fbByte s c := by
  simp [fbByte, putByte, Memory.read_write_other _ _ h]

/-- What is read depends on the memory and the parameters alone. -/
theorem fbByte_congr {s t : State} (hm : t.mem = s.mem) (hc : t.cfg = s.cfg) (a : Nat) : fbByte t a = fbByte s a := by
  simp [fbByte, hm, hc]

theorem fbHalf_congr {s t : State} (hm : t.mem = s.mem) (hc : t.cfg = s.cfg) (a : Nat) : fbHalf t a = fbHalf s a := by
  simp [fbHalf, fbByte_congr hm hc]

theorem fbCell_congr {s t : State} (hm : t.mem = s.mem) (hc : t.cfg = s.cfg) (r c : Nat) : fbCell t r c = fbCell s r c := by
  simp [fbCell, hc, fbHalf_congr hm hc]

@[simp] theorem cellChar_mkCell (a c : Byte) : cellChar (mkCell a c) = c :=
  BitVec.extractLsb'_append_eq_right

@[simp] theorem cellAttr_mkCell (a c : Byte) : cellAttr (mkCell a c) = a :=
  BitVec.extractLsb'_append_eq_left

/-- A cell is its attribute above its character. -/
@[simp] theorem mkCell_parts (v : Half) : mkCell (cellAttr v) (cellChar v) = v := by
  have h := BitVec.extractLsb'_append_extractLsb'_eq_extractLsb' (x := v) (start₁ := 0) (start₂ := 8) (len₁ := 8)
    (len₂ := 8) rfl
  simpa [mkCell, cellAttr, cellChar] using h

/-- Reading the 16-bit value just written. -/
@[simp] theorem fbHalf_putHalf_same (a : Nat) (v : Half) : fbHalf (putHalf s a v) a = v := by
  have h : fbByte (putHalf s a v) a = cellChar v := by
    simp [putHalf, fbByte_putByte_other _ _ (show a ≠ a + 1 by omega)]
  simp [fbHalf, h]
  simp [putHalf]

/-- Reading a byte outside a 16-bit write. -/
theorem fbByte_putHalf_other {a c : Nat} (v : Half) (h1 : c ≠ a) (h2 : c ≠ a + 1) :
    fbByte (putHalf s a v) c = fbByte s c := by
  simp [putHalf, fbByte_putByte_other _ _ h1, fbByte_putByte_other _ _ h2]

/-- Reading a 16-bit value disjoint from a 16-bit write. -/
theorem fbHalf_putHalf_other {a c : Nat} (v : Half) (h1 : c ≠ a) (h2 : c ≠ a + 1) (h3 : c + 1 ≠ a) :
    fbHalf (putHalf s a v) c = fbHalf s c := by
  simp [fbHalf, fbByte_putHalf_other _ _ h1 h2, fbByte_putHalf_other s v h3 (by omega)]

/-- R61: the addresses of two different cells of the grid differ. -/
theorem cellAddr_inj (cfg : Config) {r c r' c' : Nat} (hc : c < Config.fbCols) (hc' : c' < Config.fbCols)
    (h : ¬ (r = r' ∧ c = c')) : cellAddr cfg r c ≠ cellAddr cfg r' c' := by
  simp only [cellAddr, Config.cellBytes, Config.fbCols] at *
  omega

/-- Every cell starts at an even offset. -/
theorem cellAddr_even (cfg : Config) (r c : Nat) :
    cfg.fbBase ≤ cellAddr cfg r c ∧ (cellAddr cfg r c - cfg.fbBase) % 2 = 0 := by
  simp only [cellAddr, Config.cellBytes]
  omega

/-- A cell write changes the memory alone. -/
theorem putCell_eq (r c : Nat) (v : Half) : putCell s r c v = s.setMem (putCell s r c v).mem := rfl

@[simp] theorem putCell_cfg (r c : Nat) (v : Half) : (putCell s r c v).cfg = s.cfg := rfl
@[simp] theorem putHalf_cfg (a : Nat) (v : Half) : (putHalf s a v).cfg = s.cfg := rfl
@[simp] theorem putByte_cfg (a : Nat) (v : Byte) : (putByte s a v).cfg = s.cfg := rfl

/-- Reading a cell after a cell write. -/
theorem fbCell_putCell {r c r' c' : Nat} (v : Half) (hc : c < Config.fbCols) (hc' : c' < Config.fbCols) :
    fbCell (putCell s r c v) r' c' = if r' = r ∧ c' = c then v else fbCell s r' c' := by
  by_cases h : r' = r ∧ c' = c
  · obtain ⟨rfl, rfl⟩ := h
    rw [if_pos ⟨rfl, rfl⟩, fbCell, putCell_cfg, putCell, fbHalf_putHalf_same]
  · have hne := cellAddr_inj s.cfg hc' hc h
    have h1 := cellAddr_even s.cfg r c
    have h2 := cellAddr_even s.cfg r' c'
    rw [if_neg h, fbCell, putCell_cfg, putCell, fbHalf_putHalf_other s v hne (by omega) (by omega), fbCell]

/-- R61, R63, R64: every cell of the grid lies in the region, at an even offset. -/
theorem cellAddr_inRegion (cfg : Config) {r c : Nat} (hr : r < Config.fbRows) (hc : c < Config.fbCols) :
    halfInRegion cfg (cellAddr cfg r c) = true := by
  simp only [Config.fbRows, Config.fbCols] at hr hc
  refine decide_eq_true ?_
  simp only [cellAddr, Config.cellBytes, Config.fbBytes, Config.fbRows, Config.fbCols]
  omega

/-- R63: `MemRead` at a cell of the grid gives the cell. -/
theorem memRead2_cell {r c : Nat} (hr : r < Config.fbRows) (hc : c < Config.fbCols) :
    memRead2 s (cellAddr s.cfg r c) = some (fbCell s r c) := by
  simp [memRead2, cellAddr_inRegion s.cfg hr hc, fbCell]

/-- R64: `MemWrite` at a cell of the grid writes the cell. -/
theorem memWrite2_cell {r c : Nat} (v : Half) (hr : r < Config.fbRows) (hc : c < Config.fbCols) :
    memWrite2 s (cellAddr s.cfg r c) v = putCell s r c v := by
  simp [memWrite2, cellAddr_inRegion s.cfg hr hc, putCell]

/-- R282: where a 16-bit access by offset is in the region. -/
theorem offAddr_half (s : State) (off : BitVec 12) :
    halfInRegion s.cfg (offAddr s.cfg off) = decide (off.toNat % 2 = 0 ∧ off.toNat < 4000) := by
  unfold halfInRegion offAddr
  congr 1
  simp only [Config.fbBytes, Config.fbRows, Config.fbCols, Config.cellBytes]
  apply propext; constructor <;> intro h <;> omega

/-- R284: where an 8-bit access by offset is in the region. -/
theorem offAddr_byte (s : State) (off : BitVec 12) :
    byteInRegion s.cfg (offAddr s.cfg off) = decide (off.toNat < 4000) := by
  unfold byteInRegion offAddr
  congr 1
  simp only [Config.fbBytes, Config.fbRows, Config.fbCols, Config.cellBytes]
  apply propext; constructor <;> intro h <;> omega

end Sys2Proof.Machine
end

