-- ==== Sys2Proof/Laws/Display.lean ====
section
/-! SUPPORT. What the display driver can do, once: `Scroll` and `WriteByte` change the memory and the cursor alone, and what
every cell holds after them. -/

namespace Sys2Proof.Machine

open Sys2Proof

/-! ## Only the memory and the cursor change -/

/-- `t` is `s` but for the display memory. -/
def SameButMem (s t : State) : Prop := t = s.setMem t.mem

/-- `t` is `s` but for the display memory and the cursor column. -/
def SameButScreen (s t : State) : Prop := t = (s.setMem t.mem).setCol t.writer.col

theorem SameButMem.refl (s : State) : SameButMem s s := rfl

theorem SameButMem.trans {s t u : State} (h1 : SameButMem s t) (h2 : SameButMem t u) : SameButMem s u := by
  unfold SameButMem at *
  rw [h2, h1]
  rfl

theorem SameButScreen.refl (s : State) : SameButScreen s s := rfl

theorem SameButScreen.trans {s t u : State} (h1 : SameButScreen s t) (h2 : SameButScreen t u) : SameButScreen s u := by
  unfold SameButScreen at *
  rw [h2, h1]
  rfl

/-- A field of the state after a step that changes the screen alone. -/
theorem SameButScreen.field {s t : State} (h : SameButScreen s t) {α : Type} (f : State → α) :
    f t = f ((s.setMem t.mem).setCol t.writer.col) := congrArg f h

theorem SameButScreen.cpu {s t : State} (h : SameButScreen s t) : t.cpu = s.cpu := h.field State.cpu
theorem SameButScreen.cfg {s t : State} (h : SameButScreen s t) : t.cfg = s.cfg := h.field State.cfg
theorem SameButScreen.master {s t : State} (h : SameButScreen s t) : t.master = s.master := h.field State.master
theorem SameButScreen.slave {s t : State} (h : SameButScreen s t) : t.slave = s.slave := h.field State.slave
theorem SameButScreen.ivt {s t : State} (h : SameButScreen s t) : t.ivt = s.ivt := h.field State.ivt
theorem SameButScreen.ivtBuilt {s t : State} (h : SameButScreen s t) : t.ivtBuilt = s.ivtBuilt := h.field State.ivtBuilt
theorem SameButScreen.idtActive {s t : State} (h : SameButScreen s t) : t.idtActive = s.idtActive := h.field State.idtActive
theorem SameButScreen.kbd {s t : State} (h : SameButScreen s t) : t.kbd = s.kbd := h.field State.kbd
theorem SameButScreen.locks {s t : State} (h : SameButScreen s t) : t.locks = s.locks := h.field State.locks
theorem SameButScreen.diag {s t : State} (h : SameButScreen s t) : t.diag = s.diag := h.field State.diag
theorem SameButScreen.iolog {s t : State} (h : SameButScreen s t) : t.iolog = s.iolog := h.field State.iolog
theorem SameButScreen.stop {s t : State} (h : SameButScreen s t) : t.stop = s.stop := h.field State.stop
theorem SameButScreen.prog {s t : State} (h : SameButScreen s t) : t.prog = s.prog := h.field State.prog
theorem SameButScreen.draws {s t : State} (h : SameButScreen s t) : t.draws = s.draws := h.field State.draws
theorem SameButScreen.result {s t : State} (h : SameButScreen s t) : t.result = s.result := h.field State.result
theorem SameButScreen.color {s t : State} (h : SameButScreen s t) : t.writer.color = s.writer.color :=
  h.field fun s => s.writer.color

theorem SameButMem.toScreen {s t : State} (h : SameButMem s t) : SameButScreen s t := by
  unfold SameButMem SameButScreen at *
  rw [h]
  rfl

theorem SameButMem.cfg {s t : State} (h : SameButMem s t) : t.cfg = s.cfg := by rw [h]; rfl
theorem SameButMem.writer {s t : State} (h : SameButMem s t) : t.writer = s.writer := by rw [h]; rfl

/-- A fold of steps that change the memory alone changes the memory alone. -/
theorem SameButMem.foldl {α : Type} (f : State → α → State) (hf : ∀ s a, SameButMem s (f s a)) (l : List α) (s : State) :
    SameButMem s (l.foldl f s) := by
  induction l generalizing s with
  | nil => exact .refl s
  | cons a l ih => exact (hf s a).trans (ih (f s a))

theorem putCell_sameButMem (s : State) (r c : Nat) (v : Half) : SameButMem s (putCell s r c v) := rfl

theorem copyRowUp_sameButMem (s : State) (r : Nat) : SameButMem s (copyRowUp s r) :=
  .foldl _ (fun _ _ => putCell_sameButMem ..) _ s

theorem copyRowsUp_sameButMem (s : State) : SameButMem s (copyRowsUp s) := .foldl _ copyRowUp_sameButMem _ s

theorem blankLastRow_sameButMem (s : State) : SameButMem s (blankLastRow s) :=
  .foldl _ (fun s c => putCell_sameButMem s _ c _) _ s

theorem setCol_sameButScreen (s : State) (c : Nat) : SameButScreen s (s.setCol c) := rfl

/-- `Scroll` changes the memory and the cursor alone. -/
theorem scroll_sameButScreen (s : State) : SameButScreen s (scroll s) :=
  ((copyRowsUp_sameButMem s).trans (blankLastRow_sameButMem _)).toScreen.trans (setCol_sameButScreen _ 0)

theorem putGlyph_sameButScreen (s : State) (g : Byte) : SameButScreen s (putGlyph s g) := rfl

theorem scrollIfFull_sameButScreen (s : State) : SameButScreen s (scrollIfFull s) := by
  unfold scrollIfFull
  split
  · exact scroll_sameButScreen s
  · exact .refl s

/-- `WriteByte` changes the memory and the cursor alone. -/
theorem writeByte_sameButScreen (b : Byte) (s : State) : SameButScreen s (writeByte b s) := by
  unfold writeByte
  split
  · exact scroll_sameButScreen s
  · exact (scrollIfFull_sameButScreen s).trans (putGlyph_sameButScreen ..)

/-- `write_string` changes the memory and the cursor alone. -/
theorem writeBytes_sameButScreen (bs : List Byte) (s : State) : SameButScreen s (writeBytes bs s) := by
  induction bs generalizing s with
  | nil => exact .refl s
  | cons b bs ih => exact (writeByte_sameButScreen b s).trans (ih (writeByte b s))

/-! ## The cursor -/

@[simp] theorem scroll_col (s : State) : (scroll s).writer.col = 0 := rfl

/-- R251: before a character is written the cursor is inside the row. -/
theorem scrollIfFull_col (s : State) : (scrollIfFull s).writer.col < Config.fbCols := by
  unfold scrollIfFull
  split
  · simp [Config.fbCols]
  · omega

/-- R251: "`writer.col` after the operation is between 0 and 80". -/
theorem writeByte_col (b : Byte) (s : State) : (writeByte b s).writer.col ≤ Config.fbCols := by
  unfold writeByte
  split
  · simp
  · exact scrollIfFull_col s

/-! ## What the cells hold -/

/-- A fold over columns that writes one cell of row `r` per column, from values `v` fixed in advance. -/
theorem fbCell_fold (r : Nat) (v : Nat → Half) (f : State → Nat → State) (n : Nat) (hn : n ≤ Config.fbCols) (s : State)
    (hf : ∀ t c, c < n → SameButMem s t → (∀ d, c ≤ d → d < n → fbCell t r d = fbCell s r d) →
      (∀ q d, q ≠ r → d < Config.fbCols → fbCell t q d = fbCell s q d) → f t c = putCell t r c (v c)) :
    SameButMem s ((List.range n).foldl f s) ∧
    ∀ q d, d < Config.fbCols →
      fbCell ((List.range n).foldl f s) q d = if q = r ∧ d < n then v d else fbCell s q d := by
  have key : ∀ m, m ≤ n → SameButMem s ((List.range m).foldl f s) ∧
      ∀ q d, d < Config.fbCols →
        fbCell ((List.range m).foldl f s) q d = if q = r ∧ d < m then v d else fbCell s q d := by
    intro m
    induction m with
    | zero => intro _; exact ⟨.refl s, by simp⟩
    | succ m ih =>
      intro hm
      obtain ⟨hs, hc⟩ := ih (by omega)
      have hstep := hf ((List.range m).foldl f s) m (by omega) hs
        (fun d h1 h2 => by rw [hc r d (by omega)]; simp [show ¬ d < m by omega])
        (fun q d h1 h2 => by rw [hc q d h2]; simp [h1])
      rw [List.range_succ, List.foldl_append, List.foldl_cons, List.foldl_nil, hstep]
      refine ⟨hs.trans (putCell_sameButMem ..), fun q d hd => ?_⟩
      rw [fbCell_putCell _ _ (by omega) hd, hc q d hd]
      by_cases h1 : q = r <;> by_cases h2 : d = m
      · subst h2; simp [h1]
      · have : d < m + 1 ↔ d < m := by omega
        simp [h1, h2, this]
      · simp [h1]
      · simp [h1]
  exact key n (Nat.le_refl n)

/-- R255: after row `r` has taken the content of row `r + 1`. -/
theorem fbCell_copyRowUp (s : State) (r q d : Nat) (hd : d < Config.fbCols) :
    fbCell (copyRowUp s r) q d = if q = r then fbCell s (r + 1) d else fbCell s q d := by
  have h := (fbCell_fold r (fun c => fbCell s (r + 1) c) (copyCellUp r) Config.fbCols (Nat.le_refl _) s
    (fun t c hc _ _ ho => by rw [copyCellUp, ho (r + 1) c (by omega) hc])).2 q d hd
  simpa [copyRowUp, hd] using h

/-- R255: after the first `n` rows have moved. -/
theorem fbCell_copyRows (s : State) (n q d : Nat) (hd : d < Config.fbCols) :
    fbCell ((List.range n).foldl copyRowUp s) q d = if q < n then fbCell s (q + 1) d else fbCell s q d := by
  induction n generalizing q with
  | zero => simp
  | succ n ih =>
    rw [List.range_succ, List.foldl_append, List.foldl_cons, List.foldl_nil, fbCell_copyRowUp _ _ _ _ hd, ih, ih]
    by_cases h : q = n
    · subst h; simp
    · have : q < n + 1 ↔ q < n := by omega
      simp [h, this]

/-- R255: after the last row has become blank. -/
theorem fbCell_blankLastRow (s : State) (q d : Nat) (hd : d < Config.fbCols) :
    fbCell (blankLastRow s) q d = if q = Config.fbRows - 1 then blankCell s else fbCell s q d := by
  have h := (fbCell_fold (Config.fbRows - 1) (fun _ => blankCell s) blankLastCell Config.fbCols (Nat.le_refl _) s
    (fun t c _ ht _ _ => by simp [blankLastCell, blankCell, ht.cfg, ht.writer])).2 q d hd
  simpa [blankLastRow, hd] using h

/-- The blank cell does not depend on the memory. -/
theorem SameButMem.blankCell {s t : State} (h : SameButMem s t) : blankCell t = Machine.blankCell s := by
  simp [Machine.blankCell, h.cfg, h.writer]

/-- R255: every cell after `Scroll`: "row *i* after scroll equals row *i+1* before scroll, for all rows except the last, which
becomes blank". -/
theorem fbCell_scroll (s : State) (q d : Nat) (hq : q < Config.fbRows) (hd : d < Config.fbCols) :
    fbCell (scroll s) q d = if q = Config.fbRows - 1 then blankCell s else fbCell s (q + 1) d := by
  have h : fbCell (scroll s) q d = fbCell (blankLastRow (copyRowsUp s)) q d :=
    fbCell_congr (State.setCol_mem ..) (State.setCol_cfg ..) q d
  rw [h, fbCell_blankLastRow _ _ _ hd, (copyRowsUp_sameButMem s).blankCell, copyRowsUp, fbCell_copyRows _ _ _ _ hd]
  by_cases hl : q = Config.fbRows - 1
  · rw [if_pos hl, if_pos hl]
  · rw [if_neg hl, if_neg hl, if_pos (by omega)]

/-! ## The canonical form -/

/-- A cell write keeps the memory's canonical form. -/
theorem putCell_wf {s : State} (h : s.mem.wf) (r c : Nat) (v : Half) : (putCell s r c v).mem.wf :=
  Memory.write_wf (Memory.write_wf h _ _) _ _

theorem foldl_wf {α : Type} (f : State → α → State) (hf : ∀ s a, s.mem.wf → (f s a).mem.wf) (l : List α) {s : State}
    (h : s.mem.wf) : (l.foldl f s).mem.wf := by
  induction l generalizing s with
  | nil => exact h
  | cons a l ih => exact ih (hf s a h)

theorem copyRowsUp_wf {s : State} (h : s.mem.wf) : (copyRowsUp s).mem.wf :=
  foldl_wf copyRowUp (fun _ _ h => foldl_wf _ (fun _ _ h => putCell_wf h ..) _ h) _ h

theorem blankLastRow_wf {s : State} (h : s.mem.wf) : (blankLastRow s).mem.wf :=
  foldl_wf blankLastCell (fun _ _ h => putCell_wf h ..) _ h

/-- `Scroll` keeps the memory's canonical form. -/
theorem scroll_wf {s : State} (h : s.mem.wf) : (scroll s).mem.wf := by
  rw [scroll, State.setCol_mem]
  exact blankLastRow_wf (copyRowsUp_wf h)

/-- `WriteByte` keeps the memory's canonical form. -/
theorem writeByte_wf {s : State} (h : s.mem.wf) (b : Byte) : (writeByte b s).mem.wf := by
  have hs : (scrollIfFull s).mem.wf := by
    unfold scrollIfFull
    split
    · exact scroll_wf h
    · exact h
  unfold writeByte
  split
  · exact scroll_wf h
  · exact putCell_wf hs ..

theorem writeBytes_wf {s : State} (h : s.mem.wf) (bs : List Byte) : (writeBytes bs s).mem.wf :=
  foldl_wf _ (fun _ b h => writeByte_wf h b) bs h

/-- The raw writes keep the memory's canonical form. -/
theorem memWrite2_wf {s : State} (h : s.mem.wf) (a : Nat) (v : Half) : (memWrite2 s a v).mem.wf := by
  unfold memWrite2
  split
  · exact Memory.write_wf (Memory.write_wf h _ _) _ _
  · exact h

theorem memWrite1_wf {s : State} (h : s.mem.wf) (a : Nat) (v : Byte) : (memWrite1 s a v).mem.wf := by
  unfold memWrite1
  split
  · exact Memory.write_wf h _ _
  · exact h

/-! ## What the driver reads: the screen and the parameters alone -/

/-- Two states with the same memory, writer and parameters. -/
def SameScreen (s t : State) : Prop := t.mem = s.mem ∧ t.writer = s.writer ∧ t.cfg = s.cfg

theorem SameScreen.putCell {s t : State} (h : SameScreen s t) (r c : Nat) (v : Half) :
    SameScreen (putCell s r c v) (putCell t r c v) := by
  obtain ⟨h1, h2, h3⟩ := h
  refine ⟨?_, h2, h3⟩
  simp only [Machine.putCell, putHalf, putByte, State.setMem, h1, h3]

theorem SameScreen.setCol {s t : State} (h : SameScreen s t) (c : Nat) : SameScreen (s.setCol c) (t.setCol c) := by
  obtain ⟨h1, h2, h3⟩ := h
  exact ⟨h1, by simp only [State.setCol, h2], h3⟩

theorem SameScreen.fold {α : Type} (f : State → α → State)
    (hf : ∀ s t a, SameScreen s t → SameScreen (f s a) (f t a)) (l : List α) {s t : State} (h : SameScreen s t) :
    SameScreen (l.foldl f s) (l.foldl f t) := by
  induction l generalizing s t with
  | nil => exact h
  | cons a l ih => exact ih (hf s t a h)

theorem SameScreen.scroll {s t : State} (h : SameScreen s t) : SameScreen (scroll s) (scroll t) := by
  have h1 : SameScreen (copyRowsUp s) (copyRowsUp t) := by
    refine .fold copyRowUp (fun s t r h => .fold (copyCellUp r) (fun s t c h => ?_) _ h) _ h
    rw [copyCellUp, copyCellUp, fbCell_congr h.1 h.2.2]
    exact h.putCell ..
  refine SameScreen.setCol (.fold blankLastCell (fun s t c h => ?_) _ h1) 0
  rw [blankLastCell, blankLastCell, Machine.blankCell, Machine.blankCell, h.2.1, h.2.2]
  exact h.putCell ..

theorem SameScreen.writeByte {s t : State} (h : SameScreen s t) (b : Byte) : SameScreen (writeByte b s) (writeByte b t) := by
  have hs : SameScreen (scrollIfFull s) (scrollIfFull t) := by
    unfold scrollIfFull
    rw [h.2.1]
    split
    · exact h.scroll
    · exact h
  unfold Machine.writeByte
  rw [h.2.2]
  split
  · exact h.scroll
  · rw [putGlyph, putGlyph, hs.2.1]
    exact (hs.putCell ..).setCol _

/-- `write_string` writes the same to two states with the same screen. -/
theorem SameScreen.writeBytes {s t : State} (h : SameScreen s t) (bs : List Byte) :
    SameScreen (writeBytes bs s) (writeBytes bs t) := .fold _ (fun _ _ b h => h.writeByte b) bs h

/-- `WriteByte` on a state with the same screen: its memory and writer are those `WriteByte` gives the other. -/
theorem writeByte_of_sameScreen {s t : State} (h : SameScreen s t) (b : Byte) :
    writeByte b t = { t with mem := (writeByte b s).mem, writer := (writeByte b s).writer } := by
  obtain ⟨h1, h2, _⟩ := h.writeByte b
  have e := writeByte_sameButScreen b t
  have c := e.color
  unfold SameButScreen at e
  rw [e, h1, ← h2]
  simp only [State.setMem, State.setCol]
  congr 1
  cases hw : (writeByte b t).writer
  rw [hw] at c
  simp only [← c]

theorem writeBytes_of_sameScreen {s t : State} (h : SameScreen s t) (bs : List Byte) :
    writeBytes bs t = { t with mem := (writeBytes bs s).mem, writer := (writeBytes bs s).writer } := by
  obtain ⟨h1, h2, _⟩ := h.writeBytes bs
  have e := writeBytes_sameButScreen bs t
  have c := e.color
  unfold SameButScreen at e
  rw [e, h1, ← h2]
  simp only [State.setMem, State.setCol]
  congr 1
  cases hw : (writeBytes bs t).writer
  rw [hw] at c
  simp only [← c]

end Sys2Proof.Machine
end

