-- ==== Sys2Proof/Laws/Encoding.lean ====
section
/-! SUPPORT. The fields of the words the encoder packs, and the words' bits under a mask. -/

namespace Sys2Proof

@[simp] theorem fieldK_packP (k : BitVec 4) (p : Half) (d : Byte) : fieldK (packP k p d) = k := by
  rw [fieldK, packP, BitVec.extractLsb'_append_eq_of_le (by decide), BitVec.extractLsb'_append_eq_of_le (by decide), BitVec.extractLsb'_append_eq_of_le (by decide)]
  exact BitVec.extractLsb'_eq_self

@[simp] theorem fieldSub_packP (k : BitVec 4) (p : Half) (d : Byte) : fieldSub (packP k p d) = 0#4 := by
  rw [fieldSub, packP, BitVec.extractLsb'_append_eq_of_le (by decide), BitVec.extractLsb'_append_eq_of_le (by decide)]
  exact BitVec.extractLsb'_append_eq_right

@[simp] theorem fieldPort_packP (k : BitVec 4) (p : Half) (d : Byte) : fieldPort (packP k p d) = p := by
  rw [fieldPort, packP, BitVec.extractLsb'_append_eq_of_le (by decide)]
  exact BitVec.extractLsb'_append_eq_right

@[simp] theorem fieldLow_packP (k : BitVec 4) (p : Half) (d : Byte) : fieldLow (packP k p d) = d := by
  rw [fieldLow, packP]
  exact BitVec.extractLsb'_append_eq_right

@[simp] theorem fieldK_packS (k sub : BitVec 4) (a2 a1 : Byte) : fieldK (packS k sub a2 a1) = k := by
  rw [fieldK, packS, BitVec.extractLsb'_append_eq_of_le (by decide), BitVec.extractLsb'_append_eq_of_le (by decide), BitVec.extractLsb'_append_eq_of_le (by decide), BitVec.extractLsb'_append_eq_of_le (by decide)]
  exact BitVec.extractLsb'_eq_self

@[simp] theorem fieldSub_packS (k sub : BitVec 4) (a2 a1 : Byte) : fieldSub (packS k sub a2 a1) = sub := by
  rw [fieldSub, packS, BitVec.extractLsb'_append_eq_of_le (by decide), BitVec.extractLsb'_append_eq_of_le (by decide), BitVec.extractLsb'_append_eq_of_le (by decide)]
  exact BitVec.extractLsb'_append_eq_right

@[simp] theorem fieldLow_packS (k sub : BitVec 4) (a2 a1 : Byte) : fieldLow (packS k sub a2 a1) = a1 := by
  rw [fieldLow, packS]
  exact BitVec.extractLsb'_append_eq_right

@[simp] theorem fieldA2_packS (k sub : BitVec 4) (a2 a1 : Byte) : fieldA2 (packS k sub a2 a1) = a2 := by
  rw [fieldA2, packS, BitVec.extractLsb'_append_eq_of_le (by decide)]
  exact BitVec.extractLsb'_append_eq_right

@[simp] theorem fieldMbz_packS (k sub : BitVec 4) (a2 a1 : Byte) : fieldMbz (packS k sub a2 a1) = 0#8 := by
  rw [fieldMbz, packS, BitVec.extractLsb'_append_eq_of_le (by decide), BitVec.extractLsb'_append_eq_of_le (by decide)]
  exact BitVec.extractLsb'_append_eq_right

@[simp] theorem fieldK_packM (k : BitVec 4) (off : BitVec 12) (data : Half) : fieldK (packM k off data) = k := by
  rw [fieldK, packM, BitVec.extractLsb'_append_eq_of_le (by decide), BitVec.extractLsb'_append_eq_of_le (by decide)]
  exact BitVec.extractLsb'_eq_self

@[simp] theorem fieldOff_packM (k : BitVec 4) (off : BitVec 12) (data : Half) : fieldOff (packM k off data) = off := by
  rw [fieldOff, packM, BitVec.extractLsb'_append_eq_of_le (by decide)]
  exact BitVec.extractLsb'_append_eq_right

@[simp] theorem fieldData_packM (k : BitVec 4) (off : BitVec 12) (data : Half) : fieldData (packM k off data) = data := by
  rw [fieldData, packM]
  exact BitVec.extractLsb'_append_eq_right

/-- The high byte of the data field (R94). -/
@[simp] theorem fieldA2_packM (k : BitVec 4) (off : BitVec 12) (hi lo : Byte) :
    fieldA2 (packM k off (hi ++ lo)) = hi := by
  rw [fieldA2, packM, BitVec.extractLsb'_append_eq_of_add_le (by decide)]
  exact BitVec.extractLsb'_append_eq_left

/-- The low byte of the data field (R94). -/
@[simp] theorem fieldLow_packM (k : BitVec 4) (off : BitVec 12) (hi lo : Byte) :
    fieldLow (packM k off (hi ++ lo)) = lo := by
  rw [fieldLow, packM, BitVec.extractLsb'_append_eq_of_add_le (by decide)]
  exact BitVec.extractLsb'_append_eq_right

/-- The line operand of `IRQ` (R95). -/
theorem irqOperand (n : Fin 16) :
    (BitVec.ofNat 8 n.val).extractLsb' 4 4 = 0#4 ∧ ((BitVec.ofNat 8 n.val).extractLsb' 0 4).toFin = n := by
  revert n; decide

/-- The resource operand of `LOCK` and `UNLOCK` (R96). -/
@[simp] theorem resourceOfByte_resourceByte (r : Resource) : resourceOfByte (resourceByte r) = some r := by
  cases r <;> rfl

/-- A word of three fields under a mask of three fields. -/
theorem and_append3 {u v w : Nat} (a a' : BitVec u) (b b' : BitVec v) (c c' : BitVec w) :
    (a ++ b ++ c) &&& (a' ++ b' ++ c') = (a &&& a') ++ (b &&& b') ++ (c &&& c') := by
  simp only [BitVec.and_append]

/-- A word of five fields under a mask of five fields. -/
theorem and_append5 {t u v w x : Nat} (a a' : BitVec t) (b b' : BitVec u) (c c' : BitVec v) (d d' : BitVec w)
    (e e' : BitVec x) :
    (a ++ b ++ c ++ d ++ e) &&& (a' ++ b' ++ c' ++ d' ++ e') =
      (a &&& a') ++ (b &&& b') ++ (c &&& c') ++ (d &&& d') ++ (e &&& e') := by
  simp only [BitVec.and_append]

/-- The bits of a format S word under a mask. -/
theorem packS_and (k sub k' sub' : BitVec 4) (a2 a1 z a2' a1' : Byte) :
    packS k sub a2 a1 &&& (k' ++ sub' ++ z ++ a2' ++ a1') =
      (k &&& k') ++ (sub &&& sub') ++ (0#8 &&& z) ++ (a2 &&& a2') ++ (a1 &&& a1') :=
  and_append5 ..

/-- A word of four fields under a mask of four fields. -/
theorem and_append4 {t u v w : Nat} (a a' : BitVec t) (b b' : BitVec u) (c c' : BitVec v) (d d' : BitVec w) :
    (a ++ b ++ c ++ d) &&& (a' ++ b' ++ c' ++ d') = (a &&& a') ++ (b &&& b') ++ (c &&& c') ++ (d &&& d') := by
  simp only [BitVec.and_append]

/-- The bits of a format P word under a mask. -/
theorem packP_and (k k' z : BitVec 4) (p p' : Half) (d d' : Byte) :
    packP k p d &&& (k' ++ z ++ p' ++ d') = (k &&& k') ++ (0#4 &&& z) ++ (p &&& p') ++ (d &&& d') :=
  and_append4 ..

/-- The bits of a format M word under a mask. -/
theorem packM_and (k k' : BitVec 4) (off off' : BitVec 12) (d d' : Half) :
    packM k off d &&& (k' ++ off' ++ d') = (k &&& k') ++ (off &&& off') ++ (d &&& d') :=
  and_append3 ..

/-! ## A word is its fields -/

/-- R92: format P. -/
theorem word_fieldsP (w : Word) : fieldK w ++ fieldSub w ++ fieldPort w ++ fieldLow w = w := by
  unfold fieldK fieldSub fieldPort fieldLow
  have h1 := BitVec.extractLsb'_append_extractLsb'_eq_extractLsb' (x := w) (start₁ := 24) (start₂ := 28) (len₁ := 4)
    (len₂ := 4) rfl
  have h2 := BitVec.extractLsb'_append_extractLsb'_eq_extractLsb' (x := w) (start₁ := 8) (start₂ := 24) (len₁ := 16)
    (len₂ := 8) rfl
  have h3 := BitVec.extractLsb'_append_extractLsb'_eq_extractLsb' (x := w) (start₁ := 0) (start₂ := 8) (len₁ := 8)
    (len₂ := 24) rfl
  rw [h1, h2, h3]
  simp

/-- R93: format S. -/
theorem word_fieldsS (w : Word) : fieldK w ++ fieldSub w ++ fieldMbz w ++ fieldA2 w ++ fieldLow w = w := by
  unfold fieldK fieldSub fieldMbz fieldA2 fieldLow
  have h1 := BitVec.extractLsb'_append_extractLsb'_eq_extractLsb' (x := w) (start₁ := 24) (start₂ := 28) (len₁ := 4)
    (len₂ := 4) rfl
  have h2 := BitVec.extractLsb'_append_extractLsb'_eq_extractLsb' (x := w) (start₁ := 16) (start₂ := 24) (len₁ := 8)
    (len₂ := 8) rfl
  have h3 := BitVec.extractLsb'_append_extractLsb'_eq_extractLsb' (x := w) (start₁ := 8) (start₂ := 16) (len₁ := 8)
    (len₂ := 16) rfl
  have h4 := BitVec.extractLsb'_append_extractLsb'_eq_extractLsb' (x := w) (start₁ := 0) (start₂ := 8) (len₁ := 8)
    (len₂ := 24) rfl
  rw [h1, h2, h3, h4]
  simp

/-- R94: format M. -/
theorem word_fieldsM (w : Word) : fieldK w ++ fieldOff w ++ fieldData w = w := by
  unfold fieldK fieldOff fieldData
  have h1 := BitVec.extractLsb'_append_extractLsb'_eq_extractLsb' (x := w) (start₁ := 16) (start₂ := 28) (len₁ := 12)
    (len₂ := 4) rfl
  have h2 := BitVec.extractLsb'_append_extractLsb'_eq_extractLsb' (x := w) (start₁ := 0) (start₂ := 16) (len₁ := 16)
    (len₂ := 16) rfl
  rw [h1, h2]
  simp

/-- R94: the data field by its bytes. -/
theorem fieldData_bytes (w : Word) : fieldA2 w ++ fieldLow w = fieldData w :=
  BitVec.extractLsb'_append_extractLsb'_eq_extractLsb' (x := w) (start₁ := 0) (start₂ := 8) (len₁ := 8) (len₂ := 8) rfl

/-! ## What an accepted word says, form by form -/

theorem acceptIf_ok {b : Bool} {r : Reject} {i j : Instr} (h : acceptIf b r i = .ok j) : b = true ∧ i = j := by
  unfold acceptIf at h; split at h
  · cases h; exact ⟨‹_›, rfl⟩
  · cases h

theorem resourceOfByte_some {b : Byte} {r : Resource} (h : resourceOfByte b = some r) : resourceByte r = b := by
  unfold resourceOfByte at h
  split at h
  · cases h; simp [resourceByte, *]
  · split at h
    · cases h; simp [resourceByte, *]
    · split at h
      · cases h; simp [resourceByte, *]
      · cases h

/-- R95: the line operand is the low nibble. -/
theorem irqByte (b : Byte) : b.extractLsb' 4 4 = 0#4 → BitVec.ofNat 8 (b.extractLsb' 0 4).toFin.val = b := by
  revert b; decide

/-- R97: the key state operand is bit 0. -/
theorem keyStateByte_of (b : Byte) :
    b.extractLsb' 1 7 = 0#7 → keyStateByte (if b.getLsbD 0 then .release else .press) = b := by
  revert b; decide

theorem sOne_ok {w : Word} {f : Byte → Instr} {j : Instr} (h : sOne w f = .ok j) :
    j = f (fieldLow w) ∧ packS (fieldK w) (fieldSub w) 0#8 (fieldLow w) = w := by
  obtain ⟨h1, h2⟩ := acceptIf_ok h
  simp only [Bool.and_eq_true, beq_iff_eq] at h1
  have := word_fieldsS w
  rw [h1.1, h1.2] at this
  exact ⟨h2.symm, this⟩

theorem sNone_ok {w : Word} {i j : Instr} (h : sNone w i = .ok j) :
    j = i ∧ packS (fieldK w) (fieldSub w) 0#8 0#8 = w := by
  obtain ⟨h1, h2⟩ := acceptIf_ok h
  simp only [Bool.and_eq_true, beq_iff_eq] at h1
  have := word_fieldsS w
  rw [h1.1.1, h1.1.2, h1.2] at this
  exact ⟨h2.symm, this⟩

theorem decodeLock_ok {w : Word} {f : Resource → Instr} {j : Instr} (h : decodeLock w f = .ok j) :
    ∃ r, j = f r ∧ packS (fieldK w) (fieldSub w) 0#8 (resourceByte r) = w := by
  unfold decodeLock at h
  split at h
  · rename_i h1
    simp only [Bool.and_eq_true, beq_iff_eq] at h1
    unfold withResource at h
    split at h
    · rename_i r hr
      cases h
      have := word_fieldsS w
      rw [h1.1, h1.2] at this
      exact ⟨r, rfl, by rw [resourceOfByte_some hr]; exact this⟩
    · cases h
  · cases h

/-! ## The hardware's bytes -/

theorem scanByte_release (r : Bool) (k : BitVec 7) : (scanByte r k).getLsbD 7 = r := by revert r k; decide
theorem scanByte_code (r : Bool) (k : BitVec 7) : (scanByte r k).extractLsb' 0 7 = k := by revert r k; decide
theorem scanByte_of (b : Byte) : scanByte (b.getLsbD 7) (b.extractLsb' 0 7) = b := by revert b; decide
theorem offsetByte_of (b : Byte) : b.extractLsb' 0 3 = 0#3 → offsetByte (b.extractLsb' 3 5) = b := by revert b; decide
theorem offsetByte_low (o : BitVec 5) : (offsetByte o).extractLsb' 0 3 = 0#3 := by revert o; decide
theorem offsetByte_high (o : BitVec 5) : (offsetByte o).extractLsb' 3 5 = o := by revert o; decide

end Sys2Proof
end

