-- ==== Sys2Proof/Laws/Trap.lean ====
section
/-! SUPPORT. Taking an exception and returning from one, once: everything `TrapEntry` and the return can do. -/

namespace Sys2Proof.Machine

open Sys2Proof

/-- R330: `TrapEntry` stops, for one of its three reasons, or enters the handler of the entry. -/
theorem trapEntry_cases (v : Byte) (code : Option XWord) (s : State) :
    (s.idtActive = false ∧ trapEntry v code s = s.stopAt .rNoTable) ∨
    (s.idtActive = true ∧ (s.entry v).handler = .unhandled ∧ trapEntry v code s = s.stopAt (.fUnhandled v)) ∨
    (s.idtActive = true ∧ (s.entry v).handler ≠ .unhandled ∧ (s.entry v).stack.isSome = true ∧ s.cfg.altStackOk = false ∧
      trapEntry v code s = s.stopAt .fTriple) ∨
    (s.idtActive = true ∧ (s.entry v).handler ≠ .unhandled ∧ ((s.entry v).stack.isSome = true → s.cfg.altStackOk = true) ∧
      trapEntry v code s = enterHandler s (s.entry v).handler code) := by
  unfold trapEntry
  by_cases ha : s.idtActive = false
  · exact .inl ⟨ha, by simp [ha]⟩
  · have ha' : s.idtActive = true := by simpa using ha
    by_cases hu : (s.entry v).handler = .unhandled
    · exact .inr (.inl ⟨ha', hu, by simp [ha', hu]⟩)
    · by_cases hs : (s.entry v).stack.isSome = true ∧ s.cfg.altStackOk = false
      · exact .inr (.inr (.inl ⟨ha', hu, hs.1, hs.2, by simp [ha', hu, hs.1, hs.2]⟩))
      · refine .inr (.inr (.inr ⟨ha', hu, fun h => ?_, ?_⟩))
        · cases ho : s.cfg.altStackOk with
          | true => rfl
          | false => exact absurd ⟨h, ho⟩ hs
        · have hb : ((s.entry v).stack.isSome && !s.cfg.altStackOk) = false := by
            cases h1 : (s.entry v).stack.isSome <;> cases h2 : s.cfg.altStackOk <;> simp_all
          simp [ha', hu, hb]

@[simp] theorem enterHandler_handler (s : State) (h : HandlerId) (code : Option XWord) :
    (enterHandler s h code).cpu.handler = some ⟨h, s.frame, code⟩ := rfl

@[simp] theorem enterHandler_IF (s : State) (h : HandlerId) (code : Option XWord) : (enterHandler s h code).IF = false := by
  simp [enterHandler, State.IF]

/-- An entry changes the CPU alone. -/
theorem enterHandler_eq (s : State) (h : HandlerId) (code : Option XWord) :
    enterHandler s h code = s.setCpu (enterHandler s h code).cpu := rfl

/-- R330: `TrapEntry` changes the CPU or the stop alone. -/
theorem trapEntry_frame (v : Byte) (code : Option XWord) (s : State) :
    (∃ c, trapEntry v code s = s.setCpu c) ∨ ∃ r, trapEntry v code s = s.stopAt r := by
  rcases trapEntry_cases v code s with ⟨_, h⟩ | ⟨_, _, h⟩ | ⟨_, _, _, _, h⟩ | ⟨_, _, _, h⟩
  · exact .inr ⟨_, h⟩
  · exact .inr ⟨_, h⟩
  · exact .inr ⟨_, h⟩
  · exact .inl ⟨_, h.trans (enterHandler_eq ..)⟩

/-- R333: the return restores what the entry saved, and changes nothing else. -/
theorem trapReturn_of_entered {s : State} {e : Entered} (h : s.cpu.handler = some e) :
    trapReturn s =
      s.setCpu { s.cpu with ip := e.frame.ip, sp := e.frame.sp, flags := e.frame.flags, handler := none } := by
  simp [trapReturn, h]

/-- R330: where none of the three stops applies, `TrapEntry` enters the handler. -/
theorem trapEntry_enter {s : State} {v : Byte} {code : Option XWord} (h1 : s.idtActive = true)
    (h2 : (s.entry v).handler ≠ .unhandled) (h3 : (s.entry v).stack = none ∨ s.cfg.altStackOk = true) :
    trapEntry v code s = enterHandler s (s.entry v).handler code := by
  unfold trapEntry
  rw [if_neg (by simp [h1]), if_neg h2, if_neg]
  rcases h3 with h | h <;> simp [h]

end Sys2Proof.Machine
end

