-- ==== Sys2Proof/Laws/Exec.lean ====
section
/-! SUPPORT. Each meaning once: everything a next state of it says about the state before. Proofs about a step cite these and
do not unfold a meaning. -/

namespace Sys2Proof.Machine

open Sys2Proof

variable {s t : State}

theorem next_inj {a b : State} (h : (.next a : Out) = .next b) : b = a := by cases h; rfl

theorem execIow_next {p : Half} {d : Byte} (h : execIow p d s = .next t) : s.Mainline ∧ t = portWrite p d s := by
  obtain ⟨hm, h⟩ := whenMainline_next h
  exact ⟨hm, next_inj h⟩

theorem execIor_next {p : Half} (h : execIor p s = .next t) : s.Mainline ∧ t = returnByte (portRead p s) := by
  obtain ⟨hm, h⟩ := whenMainline_next h
  exact ⟨hm, next_inj h⟩

theorem execMw16_next {o : BitVec 12} {d : Half} (h : execMw16 o d s = .next t) :
    s.Mainline ∧ t = memWrite2 s (offAddr s.cfg o) d := by
  obtain ⟨hm, h⟩ := whenMainline_next h
  exact ⟨hm, next_inj h⟩

theorem execMr16_next {o : BitVec 12} (h : execMr16 o s = .next t) :
    s.Mainline ∧ ((∃ v, memRead2 s (offAddr s.cfg o) = some v ∧ t = s.setResult (.half v)) ∨
      (memRead2 s (offAddr s.cfg o) = none ∧ t = s.stopAt .rMem)) := by
  obtain ⟨hm, h⟩ := whenMainline_next h
  refine ⟨hm, ?_⟩
  split at h
  · exact .inl ⟨_, ‹_›, next_inj h⟩
  · exact .inr ⟨‹_›, next_inj h⟩

theorem execMw8_next {o : BitVec 12} {d : Byte} (h : execMw8 o d s = .next t) :
    s.Mainline ∧ t = memWrite1 s (offAddr s.cfg o) d := by
  obtain ⟨hm, h⟩ := whenMainline_next h
  exact ⟨hm, next_inj h⟩

theorem execMr8_next {o : BitVec 12} (h : execMr8 o s = .next t) :
    s.Mainline ∧ ((∃ v, memRead1 s (offAddr s.cfg o) = some v ∧ t = s.setResult (.byte v)) ∨
      (memRead1 s (offAddr s.cfg o) = none ∧ t = s.stopAt .rMem)) := by
  obtain ⟨hm, h⟩ := whenMainline_next h
  refine ⟨hm, ?_⟩
  split at h
  · exact .inl ⟨_, ‹_›, next_inj h⟩
  · exact .inr ⟨‹_›, next_inj h⟩

theorem execIrq_next {n : Fin 16} (h : execIrq n s = .next t) :
    s.stop = none ∧ (((n.val = s.cfg.cascadeLine.val ∨ n.val = 1) ∧ t = s.stopAt .rLine) ∨
      (n.val ≠ s.cfg.cascadeLine.val ∧ n.val ≠ 1 ∧ t = request (lineCtrl n) (lineInput n) s)) := by
  obtain ⟨hr, h⟩ := whenRunning_next h
  refine ⟨hr, ?_⟩
  split at h
  · exact .inl ⟨‹_›, next_inj h⟩
  · rename_i hn
    exact .inr ⟨fun e => hn (.inl e), fun e => hn (.inr e), next_inj h⟩

theorem execKey_next {b : Byte} (h : execKey b s = .next t) :
    s.stop = none ∧ s.kbd.obuf = none ∧ t = request .master 1 (s.setObuf (some b)) := by
  obtain ⟨hr, h⟩ := whenRunning_next h
  split at h
  · exact absurd h (blocked_ne_next _ t)
  · exact ⟨hr, ‹_›, next_inj h⟩

theorem execExc_next {v c : Byte} (h : execExc v c s = .next t) : s.Mainline ∧ t = trapEntry v (excCode v c) s := by
  obtain ⟨hm, h⟩ := whenMainline_next h
  exact ⟨hm, next_inj h⟩

theorem execInta_next (h : execInta s = .next t) :
    s.stop = none ∧ s.cpu.halted = false ∧ s.cpu.handler = none ∧ s.IF = true ∧
      ∃ u v, accept s = some (u, v) ∧ t = trapEntry v none u := by
  obtain ⟨hr, h⟩ := whenRunning_next h
  split at h
  · exact absurd h (blocked_ne_next _ t)
  · split at h
    · exact absurd h (blocked_ne_next _ t)
    · split at h
      · exact absurd h (blocked_ne_next _ t)
      · split at h
        · exact absurd h (blocked_ne_next _ t)
        · rename_i h1 h2 h3 _ u v hu
          exact ⟨hr, by simpa using h1, by simpa using h2, by simpa using h3, u, v, hu, next_inj h⟩

theorem execHrun_next (h : execHrun s = .next t) :
    s.stop = none ∧ s.cpu.halted = false ∧ ∃ e, s.cpu.handler = some e ∧ heldLock s (needs e.handler s) = none ∧
      ((e.handler = .breakpoint ∧ t = breakpointBody e s) ∨ (e.handler = .doubleFault ∧ t = doubleFaultBody e s) ∨
        (e.handler = .timer ∧ t = timerBody s) ∨ (e.handler = .keyboard ∧ t = keyboardBody s)) := by
  obtain ⟨hr, h⟩ := whenRunning_next h
  split at h
  · exact absurd h (blocked_ne_next _ t)
  · rename_i e he
    split at h
    · exact absurd h (blocked_ne_next _ t)
    · rename_i hh
      split at h
      · exact absurd h (blocked_ne_next _ t)
      · rename_i hl
        refine ⟨hr, by simpa using hh, e, he, hl, ?_⟩
        unfold runBody at h
        split at h
        · exact absurd h (blocked_ne_next _ t)
        · exact .inl ⟨‹_›, next_inj h⟩
        · exact .inr (.inl ⟨‹_›, next_inj h⟩)
        · exact .inr (.inr (.inl ⟨‹_›, next_inj h⟩))
        · exact .inr (.inr (.inr ⟨‹_›, next_inj h⟩))

theorem execCli_next (h : execCli s = .next t) : s.Mainline ∧ t = s.setIF false := by
  obtain ⟨hm, h⟩ := whenMainline_next h
  exact ⟨hm, next_inj h⟩

theorem execSti_next (h : execSti s = .next t) :
    s.Mainline ∧ ((s.idtActive = true ∧ s.master.init = .ready ∧ s.slave.init = .ready ∧ t = s.setIF true) ∨
      (¬ (s.idtActive = true ∧ s.master.init = .ready ∧ s.slave.init = .ready) ∧ t = s.stopAt .rBootOrder)) := by
  obtain ⟨hm, h⟩ := whenMainline_next h
  refine ⟨hm, ?_⟩
  split at h
  · rename_i hb
    exact .inl ⟨hb.1, hb.2.1, hb.2.2, next_inj h⟩
  · exact .inr ⟨‹_›, next_inj h⟩

theorem execHlt_next (h : execHlt s = .next t) : s.Mainline ∧ t = s.setCpu { s.cpu with waiting := true } := by
  obtain ⟨hm, h⟩ := whenMainline_next h
  exact ⟨hm, next_inj h⟩

theorem execLock_next {r : Resource} (h : execLock r s = .next t) :
    s.Mainline ∧ s.lock r = .free ∧ t = s.setLock r .heldByMainline := by
  obtain ⟨hm, h⟩ := whenMainline_next h
  obtain ⟨hl, h⟩ := whenFree_next h
  exact ⟨hm, hl, next_inj h⟩

theorem execUnlock_next {r : Resource} (h : execUnlock r s = .next t) :
    s.Mainline ∧ ((s.lock r = .heldByMainline ∧ t = s.setLock r .free) ∨
      (s.lock r ≠ .heldByMainline ∧ t = s.stopAt .rLock)) := by
  obtain ⟨hm, h⟩ := whenMainline_next h
  refine ⟨hm, ?_⟩
  split at h
  · exact .inl ⟨‹_›, next_inj h⟩
  · exact .inr ⟨‹_›, next_inj h⟩

theorem execBuild_next (h : execBuild s = .next t) :
    s.Mainline ∧ ((s.idtActive = true ∧ t = s.stopAt .rTableActive) ∨
      (s.idtActive = false ∧ t = { s with ivt := builtTable s.cfg, ivtBuilt := true })) := by
  obtain ⟨hm, h⟩ := whenMainline_next h
  refine ⟨hm, ?_⟩
  split at h
  · exact .inl ⟨‹_›, next_inj h⟩
  · rename_i ha
    exact .inr ⟨by simpa using ha, next_inj h⟩

theorem execActivate_next (h : execActivate s = .next t) :
    s.Mainline ∧ ((s.ivtBuilt = false ∧ t = s.stopAt .rNotBuilt) ∨
      (s.ivtBuilt = true ∧ s.IF = true ∧ t = s.stopAt .rBootOrder) ∨
      (s.ivtBuilt = true ∧ s.IF = false ∧ t = { s with idtActive := true })) := by
  obtain ⟨hm, h⟩ := whenMainline_next h
  refine ⟨hm, ?_⟩
  split at h
  · exact .inl ⟨‹_›, next_inj h⟩
  · rename_i hb
    split at h
    · exact .inr (.inl ⟨by simpa using hb, ‹_›, next_inj h⟩)
    · rename_i hi
      exact .inr (.inr ⟨by simpa using hb, by simpa using hi, next_inj h⟩)

theorem execPicinit_next {b : Byte} (h : execPicinit b s = .next t) :
    s.Mainline ∧ s.locks.pic = .free ∧ ((baseOk b = true ∧ t = portWrites (picInitWrites s.cfg b) s) ∨
      (baseOk b = false ∧ t = s.stopAt .rBase)) := by
  obtain ⟨hm, h⟩ := whenMainline_next h
  obtain ⟨hl, h⟩ := whenFree_next h
  refine ⟨hm, hl, ?_⟩
  split at h
  · exact .inl ⟨‹_›, next_inj h⟩
  · rename_i hb
    exact .inr ⟨by simpa using hb, next_inj h⟩

theorem execAck_next {v : Byte} (h : execAck v s = .next t) : s.Mainline ∧ s.locks.pic = .free ∧ t = ackVector v s := by
  obtain ⟨hm, h⟩ := whenMainline_next h
  obtain ⟨hl, h⟩ := whenFree_next h
  exact ⟨hm, hl, next_inj h⟩

theorem execWrbyte_next {b : Byte} (h : execWrbyte b s = .next t) :
    s.Mainline ∧ s.locks.writer = .free ∧ t = writeByte b s := by
  obtain ⟨hm, h⟩ := whenMainline_next h
  obtain ⟨hl, h⟩ := whenFree_next h
  exact ⟨hm, hl, next_inj h⟩

theorem execScroll_next (h : execScroll s = .next t) : s.Mainline ∧ s.locks.writer = .free ∧ t = scroll s := by
  obtain ⟨hm, h⟩ := whenMainline_next h
  obtain ⟨hl, h⟩ := whenFree_next h
  exact ⟨hm, hl, next_inj h⟩

theorem execAddbyte_next {b : Byte} (h : execAddbyte b s = .next t) :
    s.Mainline ∧ s.locks.kbd = .free ∧ t = addByteStep b s := by
  obtain ⟨hm, h⟩ := whenMainline_next h
  obtain ⟨hl, h⟩ := whenFree_next h
  exact ⟨hm, hl, next_inj h⟩

theorem execProcess_next {k : KeyId} {st : KeyState} (h : execProcess k st s = .next t) :
    s.Mainline ∧ s.locks.kbd = .free ∧
      ((producible s.cfg k = true ∧ t = (s.setDec (processKey s.cfg s.kbd.dec ⟨k, st⟩).1).setResult
        (.decoded (processKey s.cfg s.kbd.dec ⟨k, st⟩).2)) ∨ (producible s.cfg k = false ∧ t = s.stopAt .rKeyId)) := by
  obtain ⟨hm, h⟩ := whenMainline_next h
  obtain ⟨hl, h⟩ := whenFree_next h
  refine ⟨hm, hl, ?_⟩
  split at h
  · exact .inl ⟨‹_›, next_inj h⟩
  · rename_i hk
    exact .inr ⟨by simpa using hk, next_inj h⟩

theorem execIcw1_next {c : Ctrl} (h : execIcw1 c s = .next t) :
    s.Mainline ∧ t = picIcw1 c (logCommand c s.cfg.icw1Init s) := by
  obtain ⟨hm, h⟩ := whenMainline_next h
  exact ⟨hm, next_inj h⟩

theorem execIcw2_next {c : Ctrl} {o : BitVec 5} (h : execIcw2 c o s = .next t) :
    s.Mainline ∧ t = writeData c (offsetByte o) s := by
  obtain ⟨hm, h⟩ := whenMainline_next h
  exact ⟨hm, next_inj h⟩

theorem execIcw3Master_next (h : execIcw3Master s = .next t) :
    s.Mainline ∧ t = writeData .master (icw3Byte s.cfg .master) s := by
  obtain ⟨hm, h⟩ := whenMainline_next h
  exact ⟨hm, next_inj h⟩

theorem execIcw3Slave_next (h : execIcw3Slave s = .next t) :
    s.Mainline ∧ t = writeData .slave (icw3Byte s.cfg .slave) s := by
  obtain ⟨hm, h⟩ := whenMainline_next h
  exact ⟨hm, next_inj h⟩

theorem execIcw4_next {c : Ctrl} (h : execIcw4 c s = .next t) : s.Mainline ∧ t = writeData c s.cfg.icw4Mode s := by
  obtain ⟨hm, h⟩ := whenMainline_next h
  exact ⟨hm, next_inj h⟩

theorem execEoi_next {c : Ctrl} (h : execEoi c s = .next t) :
    s.Mainline ∧ t = picEoi c (logCommand c s.cfg.eoiCmd s) := by
  obtain ⟨hm, h⟩ := whenMainline_next h
  exact ⟨hm, next_inj h⟩

theorem execOcw1_next {c : Ctrl} {m : Byte} (h : execOcw1 c m s = .next t) : s.Mainline ∧ t = writeData c m s := by
  obtain ⟨hm, h⟩ := whenMainline_next h
  exact ⟨hm, next_inj h⟩

theorem execScanPrefix_next {b : Byte} (h : execScanPrefix b s = .next t) :
    s.Mainline ∧ s.locks.kbd = .free ∧ t = addByteStep b s := by
  obtain ⟨hm, h⟩ := whenMainline_next h
  obtain ⟨hl, h⟩ := whenFree_next h
  exact ⟨hm, hl, next_inj h⟩

theorem execScanKey_next {r : Bool} {k : BitVec 7} (h : execScanKey r k s = .next t) :
    s.Mainline ∧ s.locks.kbd = .free ∧ t = addByteStep (scanByte r k) s := by
  obtain ⟨hm, h⟩ := whenMainline_next h
  obtain ⟨hl, h⟩ := whenFree_next h
  exact ⟨hm, hl, next_inj h⟩

end Sys2Proof.Machine
end

