-- ==== Sys2Proof/Laws/PicMove.lean ====
section
/-! SUPPORT. What any sequence of port writes can do to the registers of one controller, once (`PicMove`), and the properties
of a controller every such write keeps. -/

namespace Sys2Proof.Machine

open Sys2Proof

/-- One write can do this to the registers of controller `c`, and nothing else (R170 to R176). -/
inductive PicMove (cfg : Config) (c : Ctrl) (p : Pic) : Pic → Prop
  | same : PicMove cfg c p p
  | icw1 : p.init = .uninit → PicMove cfg c p { p with init := .waitIcw2, irr := 0#8, isr := 0#8, imr := 0#8 }
  | icw2 (b : Byte) : p.init = .waitIcw2 → offsetOk b = true → PicMove cfg c p { p with offset := b, init := .waitIcw3 }
  | icw3 : p.init = .waitIcw3 → PicMove cfg c p { p with icw3 := icw3Byte cfg c, init := .waitIcw4 }
  | icw4 : p.init = .waitIcw4 → PicMove cfg c p { p with icw4 := cfg.icw4Mode, init := .ready }
  | ocw1 (m : Byte) : p.init = .ready → PicMove cfg c p { p with imr := m }
  | eoi : p.init = .ready → PicMove cfg c p { p with isr := eoiIsr p.isr }

/-- Any number of writes. -/
inductive PicMoves (cfg : Config) (c : Ctrl) : Pic → Pic → Prop
  | refl (p : Pic) : PicMoves cfg c p p
  | tail {p q r : Pic} : PicMoves cfg c p q → PicMove cfg c q r → PicMoves cfg c p r

theorem PicMove.moves {cfg : Config} {c : Ctrl} {p q : Pic} (h : PicMove cfg c p q) : PicMoves cfg c p q :=
  .tail (.refl p) h

theorem PicMoves.trans {cfg : Config} {c : Ctrl} {p q r : Pic} (h : PicMoves cfg c p q) (k : PicMoves cfg c q r) :
    PicMoves cfg c p r := by
  induction k with
  | refl => exact h
  | tail _ k ih => exact .tail ih k

/-- A property every single write keeps is kept by any number. -/
theorem PicMoves.keep {cfg : Config} {c : Ctrl} {P : Pic → Prop} (hP : ∀ p q, PicMove cfg c p q → P p → P q) {p q : Pic}
    (h : PicMoves cfg c p q) (hp : P p) : P q := by
  induction h with
  | refl => exact hp
  | tail _ k ih => exact hP _ _ k ih

variable {s : State}

/-- Setting the registers of controller `c` by a move is a move of every controller. -/
theorem PicMove.setPic {c : Ctrl} {q : Pic} (h : PicMove s.cfg c (s.pic c) q) (d : Ctrl) :
    PicMove s.cfg d (s.pic d) ((s.setPic c q).pic d) := by
  rw [State.setPic_pic]
  split
  · rename_i e; subst e; exact h
  · exact .same

theorem PicMove.stopAt (r : StopReason) (d : Ctrl) : PicMove s.cfg d (s.pic d) ((s.stopAt r).pic d) := by
  rw [State.stopAt_pic]; exact .same

theorem picIcw1_move (c d : Ctrl) : PicMove s.cfg d (s.pic d) ((picIcw1 c s).pic d) := by
  unfold picIcw1; split
  · exact (PicMove.icw1 ‹_›).setPic d
  · exact .stopAt ..

theorem picEoi_move (c d : Ctrl) : PicMove s.cfg d (s.pic d) ((picEoi c s).pic d) := by
  unfold picEoi; split
  · exact (PicMove.eoi ‹_›).setPic d
  · exact .stopAt ..

theorem picCommand_move (c d : Ctrl) (b : Byte) : PicMove s.cfg d (s.pic d) ((picCommand c b s).pic d) := by
  unfold picCommand; split
  · exact picIcw1_move c d
  · split
    · exact picEoi_move c d
    · exact .stopAt ..

theorem picData_move (c d : Ctrl) (b : Byte) : PicMove s.cfg d (s.pic d) ((picData c b s).pic d) := by
  unfold picData; split
  · exact .stopAt ..
  · unfold picIcw2; split
    · exact (PicMove.icw2 b ‹_› ‹_›).setPic d
    · exact .stopAt ..
  · unfold picIcw3; split
    · rename_i hb; rw [hb]; exact (PicMove.icw3 ‹_›).setPic d
    · exact .stopAt ..
  · unfold picIcw4; split
    · rename_i hb; rw [hb]; exact (PicMove.icw4 ‹_›).setPic d
    · exact .stopAt ..
  · exact (PicMove.ocw1 b ‹_›).setPic d

theorem logCommand_pic (c d : Ctrl) (b : Byte) : (logCommand c b s).pic d = s.pic d := State.pushLog_pic ..
theorem logData_pic (c d : Ctrl) (b : Byte) : (logData c b s).pic d = s.pic d := State.pushLog_pic ..

/-- A byte at a data port. -/
theorem writeData_move (c d : Ctrl) (b : Byte) : PicMove s.cfg d (s.pic d) ((writeData c b s).pic d) := by
  have h := picData_move (s := logData c b s) c d b
  rwa [logData_pic] at h

/-- R280: a port write. -/
theorem portWrite_move (port : Half) (b : Byte) (d : Ctrl) : PicMove s.cfg d (s.pic d) ((portWrite port b s).pic d) := by
  have hp := State.pushLog_pic s (.output port b) d
  have hc : (s.pushLog (.output port b)).cfg = s.cfg := rfl
  unfold portWrite
  split
  · have h := picCommand_move (s := s.pushLog (.output port b)) .master d b; rwa [hp, hc] at h
  · split
    · have h := picCommand_move (s := s.pushLog (.output port b)) .slave d b; rwa [hp, hc] at h
    · split
      · have h := picData_move (s := s.pushLog (.output port b)) .master d b; rwa [hp, hc] at h
      · split
        · have h := picData_move (s := s.pushLog (.output port b)) .slave d b; rwa [hp, hc] at h
        · have h := PicMove.stopAt (s := s.pushLog (.output port b)) .rPort d; rwa [hp, hc] at h

/-- R327: port writes in order. -/
theorem portWrites_moves (ws : List (Half × Byte)) (d : Ctrl) :
    PicMoves s.cfg d (s.pic d) ((portWrites ws s).pic d) := by
  unfold portWrites
  induction ws generalizing s with
  | nil => exact .refl _
  | cons w ws ih =>
    rw [List.foldl_cons]
    rcases State.andThen_cases s (portWrite w.1 w.2) with ⟨_, h⟩ | ⟨_, h⟩ <;> rw [h]
    · have k := ih (s := portWrite w.1 w.2 s)
      rw [(portWrite_same w.1 w.2 s).cfg] at k
      exact (portWrite_move w.1 w.2 d).moves.trans k
    · exact ih

/-- R190: an acknowledgment. -/
theorem ack_moves (v : Byte) (d : Ctrl) : PicMoves s.cfg d (s.pic d) ((ackVector v s).pic d) := by
  unfold ackVector; split
  · exact portWrites_moves ..
  · rw [State.stopAt_pic]; exact .refl _

/-! ## Properties every write keeps -/

/-- A controller past its second byte holds an admitted offset. -/
def OffsetHeld (p : Pic) : Prop := p.init ≠ .uninit → p.init ≠ .waitIcw2 → offsetOk p.offset = true

/-- A controller that has met its first byte holds no request on input `n`. -/
def NoRequest (n : Nat) (p : Pic) : Prop := p.init ≠ .uninit → p.irr.getLsbD n = false

/-- A controller that has met its first byte has nothing in service. -/
def NoService (p : Pic) : Prop := p.init ≠ .uninit → p.isr = 0#8

variable {cfg : Config} {c : Ctrl} {p q : Pic}

theorem PicMove.offsetHeld (h : PicMove cfg c p q) (k : OffsetHeld p) : OffsetHeld q := by
  cases h <;> simp_all [OffsetHeld]

theorem PicMove.noRequest {n : Nat} (h : PicMove cfg c p q) (k : NoRequest n p) : NoRequest n q := by
  cases h <;> simp_all [NoRequest]

theorem eoiIsr_zero : eoiIsr 0#8 = 0#8 := by decide

theorem PicMove.noService (h : PicMove cfg c p q) (k : NoService p) : NoService q := by
  cases h <;> simp_all [NoService, eoiIsr_zero]

/-- "must run exactly once": a `Ready` controller stays `Ready`. -/
theorem PicMove.ready (h : PicMove cfg c p q) (k : p.init = .ready) : q.init = .ready := by
  cases h <;> simp_all

/-- R176: after an end-of-interrupt the one line in service is out of service. -/
theorem eoiIsr_bit8 (i : Fin 8) : eoiIsr (bit8 i) = 0#8 := by revert i; decide

end Sys2Proof.Machine
end

