-- ==== Sys2Proof/Laws/Handlers.lean ====
section
/-! SUPPORT. The display region under the driver's writes, and what a handler body can do, once. -/

namespace Sys2Proof.Machine

open Sys2Proof

variable {s t : State}

/-! ## Every byte the driver writes lies in the display region (R61) -/

theorem memInRegion_congr (hm : t.mem = s.mem) (hc : t.cfg = s.cfg) (h : memInRegion s) : memInRegion t := by
  unfold memInRegion; rw [hm, hc]; exact h

theorem putByte_region {a : Nat} (b : Byte) (ha : byteInRegion s.cfg a = true) (h : memInRegion s) :
    memInRegion (putByte s a b) := by
  intro x hx
  rcases Memory.mem_write hx with rfl | hx
  · exact ha
  · exact h x hx

theorem halfInRegion_bytes {cfg : Config} {a : Nat} (h : halfInRegion cfg a = true) :
    byteInRegion cfg a = true ∧ byteInRegion cfg (a + 1) = true := by
  have h := of_decide_eq_true h
  exact ⟨decide_eq_true (by omega), decide_eq_true (by omega)⟩

theorem putHalf_region {a : Nat} (v : Half) (ha : halfInRegion s.cfg a = true) (h : memInRegion s) :
    memInRegion (putHalf s a v) :=
  putByte_region (s := putByte s a (cellChar v)) _ (halfInRegion_bytes ha).2 (putByte_region _ (halfInRegion_bytes ha).1 h)

theorem putCell_region {r c : Nat} (v : Half) (hr : r < Config.fbRows) (hc : c < Config.fbCols) (h : memInRegion s) :
    memInRegion (putCell s r c v) := putHalf_region v (cellAddr_inRegion s.cfg hr hc) h

/-- A fold of steps that keep a property keeps it. -/
theorem foldl_keep {α : Type} {P : State → Prop} (f : State → α → State) (l : List α)
    (hf : ∀ s a, a ∈ l → P s → P (f s a)) (h : P s) : P (l.foldl f s) := by
  induction l generalizing s with
  | nil => exact h
  | cons a l ih =>
    exact ih (fun s b hb => hf s b (List.mem_cons_of_mem _ hb)) (hf s a List.mem_cons_self h)

theorem scroll_region (h : memInRegion s) : memInRegion (scroll s) := by
  have h1 : memInRegion (copyRowsUp s) := by
    refine foldl_keep _ _ (fun s r hr hs => foldl_keep _ _ (fun s c hc hs => ?_) hs) h
    have := List.mem_range.1 hr
    exact putCell_region _ (by simp only [Config.fbRows] at *; omega) (List.mem_range.1 hc) hs
  have h2 : memInRegion (blankLastRow (copyRowsUp s)) :=
    foldl_keep _ _ (fun s c hc hs => putCell_region _ (by decide) (List.mem_range.1 hc) hs) h1
  exact memInRegion_congr (State.setCol_mem ..) (State.setCol_cfg ..) h2

theorem scrollIfFull_region (h : memInRegion s) : memInRegion (scrollIfFull s) := by
  unfold scrollIfFull; split
  · exact scroll_region h
  · exact h

theorem writeByte_region (b : Byte) (h : memInRegion s) : memInRegion (writeByte b s) := by
  unfold writeByte; split
  · exact scroll_region h
  · exact putCell_region _ (by decide) (scrollIfFull_col s) (scrollIfFull_region h)

theorem memWrite2_region (a : Nat) (v : Half) (h : memInRegion s) : memInRegion (memWrite2 s a v) := by
  unfold memWrite2; split
  · exact putHalf_region v ‹_› h
  · exact h

theorem memWrite1_region (a : Nat) (b : Byte) (h : memInRegion s) : memInRegion (memWrite1 s a b) := by
  unfold memWrite1; split
  · exact putByte_region b ‹_› h
  · exact h

/-- R61: a cell of the grid has its two bytes inside the region. -/
theorem fbByte_putCell_outside {r c a : Nat} (v : Half) (hr : r < Config.fbRows) (hc : c < Config.fbCols)
    (h : a < s.cfg.fbBase ∨ s.cfg.fbBase + Config.fbBytes ≤ a) : fbByte (putCell s r c v) a = fbByte s a := by
  have hi := of_decide_eq_true (cellAddr_inRegion s.cfg hr hc)
  have hb : Config.fbBytes = 4000 := rfl
  exact fbByte_putHalf_other s v (by omega) (by omega)

/-- `Scroll` changes no byte outside the region. -/
theorem fbByte_scroll_outside {a : Nat} (h : a < s.cfg.fbBase ∨ s.cfg.fbBase + Config.fbBytes ≤ a) :
    fbByte (scroll s) a = fbByte s a := by
  let P : State → Prop := fun t => t.cfg = s.cfg ∧ fbByte t a = fbByte s a
  have hp : ∀ t r c v, r < Config.fbRows → c < Config.fbCols → P t → P (putCell t r c v) := fun t r c v hr hc ht =>
    ⟨ht.1, (fbByte_putCell_outside v hr hc (by rw [ht.1]; exact h)).trans ht.2⟩
  have h1 : P (copyRowsUp s) := by
    refine foldl_keep _ _ (fun t r hr ht => foldl_keep _ _ (fun t c hc ht => ?_) ht) ⟨rfl, rfl⟩
    have := List.mem_range.1 hr
    exact hp _ _ _ _ (by simp only [Config.fbRows] at *; omega) (List.mem_range.1 hc) ht
  have h2 : P (blankLastRow (copyRowsUp s)) :=
    foldl_keep _ _ (fun t c hc ht => hp _ _ _ _ (by decide) (List.mem_range.1 hc) ht) h1
  exact (fbByte_congr (State.setCol_mem ..) (State.setCol_cfg ..) a).trans h2.2

/-! ## One byte written, cell by cell -/

/-- R251: with the cursor inside the row a byte other than the newline changes the cell at the cursor alone. -/
theorem fbCell_writeByte {b : Byte} (hb : b ≠ s.cfg.newline) (hc : s.writer.col < Config.fbCols) (q d : Nat)
    (hd : d < Config.fbCols) :
    fbCell (writeByte b s) q d =
      if q = Config.fbRows - 1 ∧ d = s.writer.col then mkCell s.writer.color (glyph s.cfg b) else fbCell s q d := by
  have e : scrollIfFull s = s := if_neg (by omega)
  have h : fbCell (writeByte b s) q d =
      fbCell (putCell s (Config.fbRows - 1) s.writer.col (mkCell s.writer.color (glyph s.cfg b))) q d := by
    rw [writeByte, if_neg hb, e, putGlyph]
    exact fbCell_congr (State.setCol_mem ..) (State.setCol_cfg ..) q d
  rw [h, fbCell_putCell _ _ hc hd]

/-- R251: past the last column a byte other than the newline is written after a scroll. -/
theorem writeByte_full {b : Byte} (hb : b ≠ s.cfg.newline) (hc : Config.fbCols ≤ s.writer.col) :
    writeByte b s = writeByte b (scroll s) := by
  have hs := scroll_sameButScreen s
  have e : scrollIfFull s = scroll s := if_pos hc
  have e' : scrollIfFull (scroll s) = scroll s := if_neg (by simp [Config.fbCols])
  rw [writeByte, writeByte, hs.cfg, if_neg hb, if_neg hb, e, e']

/-- R251: the cursor after a byte other than the newline, inside the row. -/
theorem writeByte_col_of_lt {b : Byte} (hb : b ≠ s.cfg.newline) (hc : s.writer.col < Config.fbCols) :
    (writeByte b s).writer.col = s.writer.col + 1 := by
  rw [writeByte, if_neg hb, scrollIfFull, if_neg (by omega)]
  rfl

/-! ## The bodies -/

/-- A property of the screen that `WriteByte` keeps, `write_string` keeps. -/
theorem writeBytes_keep {P : State → Prop} (hP : ∀ s b, P s → P (writeByte b s)) (bs : List Byte) (h : P s) :
    P (writeBytes bs s) := foldl_keep _ _ (fun s b _ => hP s b) h

theorem writeBytes_col (bs : List Byte) (h : s.writer.col ≤ Config.fbCols) :
    (writeBytes bs s).writer.col ≤ Config.fbCols :=
  writeBytes_keep (P := fun s => s.writer.col ≤ Config.fbCols) (fun s b _ => writeByte_col b s) bs h

/-- R204: a read of the keyboard port changes the keyboard, the log and the model's counter alone. -/
theorem kbdRead_eq (s : State) :
    kbdRead s = { s with kbd := { s.kbd with obuf := none }, iolog := s.iolog ++ [.input s.cfg.kbdPort (kbdByte s)],
                         draws := (kbdRead s).draws } := by
  unfold kbdRead kbdTake
  cases h : s.kbd.obuf with
  | none =>
    simp only [State.pushLog]
    congr 1
    rw [← h]
  | some b => rfl

/-- R201: before its acknowledgment the keyboard body changes the keyboard, the log, the screen and the model's counter
alone. -/
theorem keyboardOutput_eq (s : State) :
    SameButScreen
      { s with
        kbd := ⟨none, (decodeForDisplay s.cfg s.kbd.dec (kbdByte s)).1⟩
        iolog := s.iolog ++ [.input s.cfg.kbdPort (kbdByte s)]
        draws := (kbdRead s).draws }
      (keyboardOutput s) := by
  unfold keyboardOutput
  have h := writeBytes_sameButScreen (decodeForDisplay s.cfg s.kbd.dec (kbdByte s)).2
    ((kbdRead s).setDec (decodeForDisplay s.cfg s.kbd.dec (kbdByte s)).1)
  have e : (kbdRead s).setDec (decodeForDisplay s.cfg s.kbd.dec (kbdByte s)).1 =
      { s with
        kbd := ⟨none, (decodeForDisplay s.cfg s.kbd.dec (kbdByte s)).1⟩
        iolog := s.iolog ++ [.input s.cfg.kbdPort (kbdByte s)]
        draws := (kbdRead s).draws } := by
    conv_lhs => rw [kbdRead_eq]
    rfl
  rw [e] at h ⊢
  exact h

end Sys2Proof.Machine
end

