-- ==== Sys2Proof/Laws/Initialise.lean ====
section
/-! SUPPORT. The initialisation sequence (rules R171 to R174, R185), byte by byte and as a whole, and port writes as operations
(rule R118). -/

namespace Sys2Proof.Machine

open Sys2Proof

/-- `s` with the two controllers and the log replaced: what port writes make of it. -/
def State.withPics (s : State) (m sl : Pic) (l : List IoEvent) : State :=
  { s with master := m, slave := sl, iolog := s.iolog ++ l }

theorem State.withPics_self (s : State) : s.withPics s.master s.slave [] = s := by simp [State.withPics]

variable {s : State} {m sl : Pic} {l : List IoEvent} {b : Byte}

/-- R171 at the master. -/
theorem portWrite_icw1_master (hv : s.cfg.valid = true) (h : m.init = .uninit) :
    portWrite s.cfg.pic1Cmd s.cfg.icw1Init (s.withPics m sl l) =
      s.withPics { m with init := .waitIcw2, irr := 0#8, isr := 0#8, imr := 0#8 } sl
        (l ++ [.output s.cfg.pic1Cmd s.cfg.icw1Init]) := by
  refine Eq.trans (portWrite_cmdPort (s := s.withPics m sl l) .master s.cfg.icw1Init hv) ?_
  unfold picCommand picIcw1
  rw [if_pos (by rfl), if_pos (by exact h)]
  simp [State.withPics, State.pushLog, State.setPic, State.pic, cmdPort]

/-- R171 at the slave. -/
theorem portWrite_icw1_slave (hv : s.cfg.valid = true) (h : sl.init = .uninit) :
    portWrite s.cfg.pic2Cmd s.cfg.icw1Init (s.withPics m sl l) =
      s.withPics m { sl with init := .waitIcw2, irr := 0#8, isr := 0#8, imr := 0#8 }
        (l ++ [.output s.cfg.pic2Cmd s.cfg.icw1Init]) := by
  refine Eq.trans (portWrite_cmdPort (s := s.withPics m sl l) .slave s.cfg.icw1Init hv) ?_
  unfold picCommand picIcw1
  rw [if_pos (by rfl), if_pos (by exact h)]
  simp [State.withPics, State.pushLog, State.setPic, State.pic, cmdPort]

/-- R171 refused at the master. -/
theorem portWrite_reinit_master (hv : s.cfg.valid = true) (h : m.init ≠ .uninit) :
    portWrite s.cfg.pic1Cmd s.cfg.icw1Init (s.withPics m sl l) =
      (s.withPics m sl (l ++ [.output s.cfg.pic1Cmd s.cfg.icw1Init])).stopAt .rReinit := by
  refine Eq.trans (portWrite_cmdPort (s := s.withPics m sl l) .master s.cfg.icw1Init hv) ?_
  unfold picCommand picIcw1
  rw [if_pos (by rfl), if_neg (by exact h)]
  simp [State.withPics, State.pushLog, State.stopAt, cmdPort]

/-- R171 refused at the slave. -/
theorem portWrite_reinit_slave (hv : s.cfg.valid = true) (h : sl.init ≠ .uninit) :
    portWrite s.cfg.pic2Cmd s.cfg.icw1Init (s.withPics m sl l) =
      (s.withPics m sl (l ++ [.output s.cfg.pic2Cmd s.cfg.icw1Init])).stopAt .rReinit := by
  refine Eq.trans (portWrite_cmdPort (s := s.withPics m sl l) .slave s.cfg.icw1Init hv) ?_
  unfold picCommand picIcw1
  rw [if_pos (by rfl), if_neg (by exact h)]
  simp [State.withPics, State.pushLog, State.stopAt, cmdPort]

theorem portWrite_data_master (hv : s.cfg.valid = true) :
    portWrite s.cfg.pic1Data b (s.withPics m sl l) =
      picData .master b (s.withPics m sl (l ++ [.output s.cfg.pic1Data b])) := by
  refine Eq.trans (portWrite_dataPort (s := s.withPics m sl l) .master b hv) ?_
  congr 1; simp [State.withPics, State.pushLog, dataPort]

theorem portWrite_data_slave (hv : s.cfg.valid = true) :
    portWrite s.cfg.pic2Data b (s.withPics m sl l) =
      picData .slave b (s.withPics m sl (l ++ [.output s.cfg.pic2Data b])) := by
  refine Eq.trans (portWrite_dataPort (s := s.withPics m sl l) .slave b hv) ?_
  congr 1; simp [State.withPics, State.pushLog, dataPort]

/-- R172 to R174 at the master: the byte each position admits. -/
theorem picData_icw2_master (h : m.init = .waitIcw2) (ho : offsetOk b = true) :
    picData .master b (s.withPics m sl l) = s.withPics { m with offset := b, init := .waitIcw3 } sl l := by
  simp only [picData]
  rw [show ((s.withPics m sl l).pic .master).init = .waitIcw2 from h]
  simp [picIcw2, ho, State.withPics, State.setPic, State.pic]

theorem picData_icw2_slave (h : sl.init = .waitIcw2) (ho : offsetOk b = true) :
    picData .slave b (s.withPics m sl l) = s.withPics m { sl with offset := b, init := .waitIcw3 } l := by
  simp only [picData]
  rw [show ((s.withPics m sl l).pic .slave).init = .waitIcw2 from h]
  simp [picIcw2, ho, State.withPics, State.setPic, State.pic]

theorem picData_icw3_master (h : m.init = .waitIcw3) :
    picData .master (icw3Byte s.cfg .master) (s.withPics m sl l) =
      s.withPics { m with icw3 := icw3Byte s.cfg .master, init := .waitIcw4 } sl l := by
  simp only [picData]
  rw [show ((s.withPics m sl l).pic .master).init = .waitIcw3 from h]
  simp [picIcw3, State.withPics, State.setPic, State.pic]

theorem picData_icw3_slave (h : sl.init = .waitIcw3) :
    picData .slave (icw3Byte s.cfg .slave) (s.withPics m sl l) =
      s.withPics m { sl with icw3 := icw3Byte s.cfg .slave, init := .waitIcw4 } l := by
  simp only [picData]
  rw [show ((s.withPics m sl l).pic .slave).init = .waitIcw3 from h]
  simp [picIcw3, State.withPics, State.setPic, State.pic]

theorem picData_icw4_master (h : m.init = .waitIcw4) :
    picData .master s.cfg.icw4Mode (s.withPics m sl l) =
      s.withPics { m with icw4 := s.cfg.icw4Mode, init := .ready } sl l := by
  simp only [picData]
  rw [show ((s.withPics m sl l).pic .master).init = .waitIcw4 from h]
  simp [picIcw4, State.withPics, State.setPic, State.pic]

theorem picData_icw4_slave (h : sl.init = .waitIcw4) :
    picData .slave s.cfg.icw4Mode (s.withPics m sl l) =
      s.withPics m { sl with icw4 := s.cfg.icw4Mode, init := .ready } l := by
  simp only [picData]
  rw [show ((s.withPics m sl l).pic .slave).init = .waitIcw4 from h]
  simp [picIcw4, State.withPics, State.setPic, State.pic]

/-- R186: a legal base gives two legal offsets. -/
theorem offsetOk_of_base (b : Byte) (h : 32 ≤ b.toNat ∧ b.toNat ≤ 240 ∧ b.toNat % 8 = 0) :
    offsetOk b = true ∧ offsetOk (b + 8#8) = true := by
  revert b; decide +kernel

/-- R185: the eight writes from two `Uninit` controllers. -/
theorem portWrites_picInit {base : Byte} (hv : s.cfg.valid = true) (hs : s.stop = none)
    (hb : 32 ≤ base.toNat ∧ base.toNat ≤ 240 ∧ base.toNat % 8 = 0) (h1 : s.master.init = .uninit)
    (h2 : s.slave.init = .uninit) :
    portWrites (picInitWrites s.cfg base) s =
      s.withPics ⟨base, .ready, 0#8, 0#8, 0#8, icw3Byte s.cfg .master, s.cfg.icw4Mode⟩
        ⟨base + 8#8, .ready, 0#8, 0#8, 0#8, icw3Byte s.cfg .slave, s.cfg.icw4Mode⟩
        ((picInitWrites s.cfg base).map fun w => .output w.1 w.2) := by
  obtain ⟨o1, o2⟩ := offsetOk_of_base base hb
  have ns : ∀ m sl l, (s.withPics m sl l).stop = none := fun _ _ _ => hs
  conv_lhs => rw [← s.withPics_self]
  unfold portWrites picInitWrites
  simp only [List.foldl_cons, List.foldl_nil, State.andThen_of_running (ns ..)]
  rw [show (s.withPics s.master s.slave []).cfg = s.cfg from rfl, portWrite_icw1_master hv h1,
    State.andThen_of_running (ns ..), portWrite_icw1_slave hv h2,
    State.andThen_of_running (ns ..), portWrite_data_master hv, picData_icw2_master rfl o1,
    State.andThen_of_running (ns ..), portWrite_data_slave hv, picData_icw2_slave rfl o2,
    State.andThen_of_running (ns ..), portWrite_data_master hv, picData_icw3_master rfl,
    State.andThen_of_running (ns ..), portWrite_data_slave hv, picData_icw3_slave rfl,
    State.andThen_of_running (ns ..), portWrite_data_master hv, picData_icw4_master rfl,
    State.andThen_of_running (ns ..), portWrite_data_slave hv, picData_icw4_slave rfl]
  rfl

/-- R327: port writes after a stop do nothing. -/
theorem portWrites_of_stopped (ws : List (Half × Byte)) (h : s.stop ≠ none) : portWrites ws s = s := by
  induction ws with
  | nil => rfl
  | cons w ws ih =>
    obtain ⟨r, hr⟩ := Option.ne_none_iff_exists'.1 h
    unfold portWrites
    rw [List.foldl_cons, State.andThen_of_stopped hr]
    exact ih

/-- R118: port writes that do not stop are as many `IOW`. -/
theorem execAll_iow (ws : List (Half × Byte)) (hm : s.Mainline) (hn : (portWrites ws s).stop = none) :
    execAll (ws.map fun w => .iow w.1 w.2) s = .next (portWrites ws s) := by
  induction ws generalizing s with
  | nil => rfl
  | cons w ws ih =>
    have e : portWrites (w :: ws) s = portWrites ws (portWrite w.1 w.2 s) := by
      unfold portWrites; rw [List.foldl_cons, State.andThen_of_running hm.1]
    rw [e] at hn ⊢
    have h0 : (portWrite w.1 w.2 s).stop = none := by
      by_contra hc
      rw [portWrites_of_stopped _ hc] at hn
      exact hc hn
    have hx : exec (.iow w.1 w.2) s = .next (portWrite w.1 w.2 s) := by
      simp only [exec, execIow, whenMainline_of_mainline hm]
    simp only [List.map_cons, execAll, hx]
    exact ih ⟨h0, by rw [(portWrite_same w.1 w.2 s).cpu]; exact hm.2⟩ hn

end Sys2Proof.Machine
end

