-- ==== Sys2Proof/Laws/Table.lean ====
section
/-! SUPPORT. The content of the table `BUILD` constructs (rule R136). -/

namespace Sys2Proof.Machine

open Sys2Proof

/-- R131, R136: the entry of every vector. -/
theorem builtTable_entry (cfg : Config) (h32 : 32 ≤ cfg.irqBase.toNat) (h240 : cfg.irqBase.toNat ≤ 240) (v : Byte) :
    (builtTable cfg)[v.toNat]'(v.isLt) =
      if v = Config.vecBp then ⟨.breakpoint, none⟩
      else if v = Config.vecDf then ⟨.doubleFault, some cfg.dfStackIndex⟩
      else if v = cfg.vecTimer then ⟨.timer, none⟩
      else if v = cfg.vecKeyboard then ⟨.keyboard, none⟩
      else ⟨.unhandled, none⟩ := by
  have hk : cfg.vecKeyboard.toNat = cfg.irqBase.toNat + 1 := by
    simp [Config.vecKeyboard, BitVec.toNat_add]; omega
  have ht : cfg.vecTimer.toNat = cfg.irqBase.toNat := rfl
  have hb : Config.vecBp.toNat = 3 := rfl
  have hd : Config.vecDf.toNat = 8 := rfl
  have e : ∀ w : Byte, (v = w) ↔ (w.toNat = v.toNat) := fun w => by rw [← BitVec.toNat_inj]; exact eq_comm
  simp only [builtTable, Vector.getElem_setIfInBounds, Vector.getElem_replicate, e, hk, ht, hb, hd]
  split_ifs <;> first | rfl | omega

end Sys2Proof.Machine
end

