-- ==== Sys2Proof/Laws/Invariant.lean ====
section
/-! SUPPORT. What each shared operation does to the invariant `MachineInv`, once. -/

namespace Sys2Proof.Machine

open Sys2Proof

variable {s t : State}

/-- R22: the bits of a word from `XLEN` up are 0. -/
theorem fitsXlen_iff {cfg : Config} {w : XWord} : fitsXlen cfg w ↔ ∀ j, cfg.xlen ≤ j → w.testBit j = false :=
  ⟨fun h _ hj => Nat.testBit_lt_two_pow (Nat.lt_of_lt_of_le h (Nat.pow_le_pow_right (by decide) hj)),
    Nat.lt_pow_two_of_testBit _⟩

/-- R23: setting or clearing `IF` keeps the flags word within `XLEN` bits. -/
theorem withIF_fits {cfg : Config} {w : XWord} {b : Bool} (hv : cfg.valid = true) (h : fitsXlen cfg w) :
    fitsXlen cfg (withIF cfg w b) := by
  rw [fitsXlen_iff] at h ⊢
  intro j hj
  have := (Config.valid_xlen hv).1
  rw [testBit_withIF, if_neg (by omega)]
  exact h j hj

/-- R295: a widened byte is a code of the right width. -/
theorem zextByte_fits (cfg : Config) (b : Byte) : codeFits cfg (zextByte b) :=
  Nat.lt_of_lt_of_le b.isLt (Nat.pow_le_pow_right (by decide) (Nat.le_max_left ..))

/-- A step that touches nothing the invariant reads keeps it. -/
theorem MachineInv.congr (hi : MachineInv s) (hcpu : t.cpu = s.cpu) (hm : t.mem = s.mem) (hc : t.cfg = s.cfg)
    (hw : t.writer = s.writer) (h1 : t.ivt = s.ivt) (h2 : t.ivtBuilt = s.ivtBuilt) (h3 : t.idtActive = s.idtActive)
    (h4 : t.master = s.master) (h5 : t.slave = s.slave) : MachineInv t := by
  have hIF : t.IF = s.IF := IF_congr (by rw [hcpu]) hc
  have hb : booted s → booted t := by unfold booted; rw [h3, h4, h5]; exact id
  have hp : ∀ c, t.pic c = s.pic c := fun c => by cases c <;> simp [State.pic, h4, h5]
  constructor
  · rw [hm]; exact hi.memWf
  · exact memInRegion_congr hm hc hi.memRegion
  · rw [hw]; exact hi.colLe
  · rw [hw, hc]; exact hi.color
  · rw [h2, h1, hc]; exact hi.table
  · rw [h2, h3]; exact hi.activeBuilt
  · intro c; rw [hp]; exact hi.offsets c
  · unfold cascadeNotStored; rw [h4, hc]; exact hi.cascade
  · rw [hcpu, hIF]; exact hi.masked
  · rw [hcpu, h3]; exact hi.enteredActive
  · rw [hcpu]; exact hi.enteredHandled
  · rw [hcpu]; exact hi.haltedEntered
  · rw [hcpu]; exact hi.enteredAwake
  · rw [hIF]; exact fun h => hb (hi.enabledBooted h)
  · rw [hcpu, hc]; exact fun e h k => hb (hi.frameBooted e h k)
  · unfold wordsFit; rw [hcpu, hc]; exact hi.words

/-- What a step that changes the CPU alone owes the invariant. -/
theorem MachineInv.setCpu (hi : MachineInv s) (c : Cpu)
    (m : c.handler ≠ none → flagIF s.cfg c.flags = false)
    (a : c.handler ≠ none → s.idtActive = true)
    (hh : ∀ e, c.handler = some e → e.handler ≠ .unhandled)
    (hl : c.halted = true → ∃ e, c.handler = some e ∧ e.handler = .doubleFault)
    (w : c.handler ≠ none → c.waiting = false)
    (en : flagIF s.cfg c.flags = true → booted s)
    (fr : ∀ e, c.handler = some e → flagIF s.cfg e.frame.flags = true → booted s)
    (wf : wordsFit (s.setCpu c)) : MachineInv (s.setCpu c) :=
  ⟨hi.memWf, hi.memRegion, hi.colLe, hi.color, hi.table, hi.activeBuilt, hi.offsets, hi.cascade, m, a, hh, hl, w, en, fr, wf⟩

/-- What a step that changes the controllers (and what the invariant does not read) owes the invariant. -/
theorem MachineInv.pics (hi : MachineInv s) (h : SameButPic s t) (ho : offsetsOk t) (hc : cascadeNotStored t)
    (hr : booted s → booted t) : MachineInv t := by
  have hIF : t.IF = s.IF := IF_congr (by rw [h.cpu]) h.cfg
  constructor
  · rw [h.mem]; exact hi.memWf
  · exact memInRegion_congr h.mem h.cfg hi.memRegion
  · rw [h.writer]; exact hi.colLe
  · rw [h.writer, h.cfg]; exact hi.color
  · rw [h.ivtBuilt, h.ivt, h.cfg]; exact hi.table
  · rw [h.ivtBuilt, h.idtActive]; exact hi.activeBuilt
  · exact ho
  · exact hc
  · rw [h.cpu, hIF]; exact hi.masked
  · rw [h.cpu, h.idtActive]; exact hi.enteredActive
  · rw [h.cpu]; exact hi.enteredHandled
  · rw [h.cpu]; exact hi.haltedEntered
  · rw [h.cpu]; exact hi.enteredAwake
  · rw [hIF]; exact fun k => hr (hi.enabledBooted k)
  · rw [h.cpu, h.cfg]; exact fun e k l => hr (hi.frameBooted e k l)
  · unfold wordsFit; rw [h.cpu, h.cfg]; exact hi.words

/-- Bytes at the controllers keep the invariant. -/
theorem MachineInv.moves (hi : MachineInv s) (h : SameButPic s t) (hm : ∀ d, PicMoves s.cfg d (s.pic d) (t.pic d)) :
    MachineInv t := by
  refine hi.pics h ?_ ?_ ?_
  · intro c
    exact (hm c).keep (P := OffsetHeld) (fun _ _ => PicMove.offsetHeld) (hi.offsets c)
  · unfold cascadeNotStored
    rw [h.cfg]
    exact (hm .master).keep (P := NoRequest s.cfg.cascadeLine.val) (fun _ _ => PicMove.noRequest) hi.cascade
  · rintro ⟨a, b, c⟩
    exact ⟨by rw [h.idtActive]; exact a, (hm .master).keep (P := fun p => p.init = .ready) (fun _ _ => PicMove.ready) b,
      (hm .slave).keep (P := fun p => p.init = .ready) (fun _ _ => PicMove.ready) c⟩

theorem MachineInv.portWrite (hi : MachineInv s) (p : Half) (b : Byte) : MachineInv (portWrite p b s) :=
  hi.moves (portWrite_same ..) fun _ => (portWrite_move ..).moves

theorem MachineInv.portWrites (hi : MachineInv s) (ws : List (Half × Byte)) : MachineInv (portWrites ws s) :=
  hi.moves (portWrites_same ..) fun _ => portWrites_moves ..

theorem MachineInv.ackVector (hi : MachineInv s) (v : Byte) : MachineInv (ackVector v s) :=
  hi.moves (ack_same ..) fun _ => ack_moves ..

/-- What a step that changes the screen alone owes the invariant. -/
theorem MachineInv.screen (hi : MachineInv s) (h : SameButScreen s t) (h1 : t.mem.wf) (h2 : memInRegion t)
    (h3 : t.writer.col ≤ Config.fbCols) : MachineInv t := by
  have hIF : t.IF = s.IF := IF_congr (by rw [h.cpu]) h.cfg
  have hb : booted s → booted t := by unfold booted; rw [h.master, h.slave, h.idtActive]; exact id
  have hp : ∀ c, t.pic c = s.pic c := fun c => by cases c <;> simp [State.pic, h.master, h.slave]
  constructor
  · exact h1
  · exact h2
  · exact h3
  · rw [h.color, h.cfg]; exact hi.color
  · rw [h.ivt, h.ivtBuilt, h.cfg]; exact hi.table
  · rw [h.ivtBuilt, h.idtActive]; exact hi.activeBuilt
  · intro c; rw [hp]; exact hi.offsets c
  · unfold cascadeNotStored; rw [h.master, h.cfg]; exact hi.cascade
  · rw [h.cpu, hIF]; exact hi.masked
  · rw [h.cpu, h.idtActive]; exact hi.enteredActive
  · rw [h.cpu]; exact hi.enteredHandled
  · rw [h.cpu]; exact hi.haltedEntered
  · rw [h.cpu]; exact hi.enteredAwake
  · rw [hIF]; exact fun k => hb (hi.enabledBooted k)
  · rw [h.cpu, h.cfg]; exact fun e k l => hb (hi.frameBooted e k l)
  · unfold wordsFit; rw [h.cpu, h.cfg]; exact hi.words

theorem MachineInv.writeByte (hi : MachineInv s) (b : Byte) : MachineInv (writeByte b s) :=
  hi.screen (writeByte_sameButScreen ..) (writeByte_wf hi.memWf b) (writeByte_region b hi.memRegion) (writeByte_col ..)

theorem MachineInv.stopAt (hi : MachineInv s) (r : StopReason) : MachineInv (s.stopAt r) :=
  hi.congr rfl rfl rfl rfl rfl rfl rfl rfl rfl

/-- A request on any line but the cascade input keeps the invariant. -/
theorem MachineInv.request (hi : MachineInv s) (c : Ctrl) (i : Fin 8) (h : c = .master → i ≠ s.cfg.cascadeLine) :
    MachineInv (request c i s) := by
  unfold Machine.request
  split
  · refine hi.pics (by constructor <;> simp) ?_ ?_ ?_
    · intro d
      rw [State.setPic_pic]
      split
      · rename_i e; subst e; exact hi.offsets d
      · exact hi.offsets d
    · cases c
      · intro k
        simp only [State.setPic]
        rw [getLsbD_setBit _ _ _ _ s.cfg.cascadeLine.isLt, if_neg (by intro e; exact h rfl (Fin.ext e.symm))]
        exact hi.cascade k
      · exact hi.cascade
    · rintro ⟨a, b, d⟩
      cases c <;> exact ⟨a, b, d⟩
  · exact hi

theorem MachineInv.take (hi : MachineInv s) (c : Ctrl) (i : Fin 8) : MachineInv (takeLine c i s) := by
  unfold takeLine
  refine hi.pics (by constructor <;> simp) ?_ ?_ ?_
  · intro d
    rw [State.setPic_pic]
    split
    · rename_i e; subst e; exact hi.offsets d
    · exact hi.offsets d
  · cases c
    · intro k
      simp only [State.setPic]
      rw [getLsbD_setBit _ _ _ _ s.cfg.cascadeLine.isLt]
      split
      · rfl
      · exact hi.cascade k
    · exact hi.cascade
  · rintro ⟨a, b, d⟩
    cases c <;> exact ⟨a, b, d⟩

theorem MachineInv.takeCascade (hi : MachineInv s) : MachineInv (takeCascade s) := by
  unfold Machine.takeCascade
  refine hi.pics (by constructor <;> simp) ?_ hi.cascade fun ⟨a, b, d⟩ => ⟨a, b, d⟩
  intro d
  rw [State.setPic_pic]
  split
  · rename_i e; subst e; exact hi.offsets .master
  · exact hi.offsets d

theorem MachineInv.accept (hi : MachineInv s) {v : Byte} (h : accept s = some (t, v)) : MachineInv t := by
  rcases accept_cases h with ⟨p, _, _, rfl, _⟩ | ⟨ps, _, _, rfl, _⟩
  · exact hi.take ..
  · exact hi.takeCascade.take ..

/-- Taking an exception keeps the invariant. -/
theorem MachineInv.trapEntry (hi : MachineInv s) (hv : s.cfg.valid = true) (hh : s.cpu.halted = false) (v : Byte)
    (c : Option XWord) (hc : ∀ x, c = some x → codeFits s.cfg x) : MachineInv (trapEntry v c s) := by
  rcases trapEntry_cases v c s with ⟨_, h⟩ | ⟨_, _, h⟩ | ⟨_, _, _, _, h⟩ | ⟨ha, hu, _, h⟩ <;> rw [h]
  · exact hi.stopAt _
  · exact hi.stopAt _
  · exact hi.stopAt _
  · obtain ⟨⟨w1, w2, w3⟩, _⟩ := hi.words
    refine hi.setCpu _ ?_ ?_ ?_ ?_ ?_ ?_ ?_ ?_
    · intro _; simp
    · intro _; exact ha
    · intro e he; cases he; exact hu
    · intro k; simp [hh] at k
    · intro _; rfl
    · intro k; simp at k
    · intro e he k; cases he; exact hi.enabledBooted k
    · refine ⟨⟨w1, w2, withIF_fits hv w3⟩, ?_⟩
      intro e he; cases he
      exact ⟨⟨w1, w2, w3⟩, hc⟩

/-- Returning from one keeps the invariant. -/
theorem MachineInv.trapReturn (hi : MachineInv s) (hh : s.cpu.halted = false) : MachineInv (trapReturn s) := by
  cases he : s.cpu.handler with
  | none => unfold Machine.trapReturn; rw [he]; exact hi
  | some e =>
    rw [trapReturn_of_entered he]
    refine hi.setCpu _ ?_ ?_ ?_ ?_ ?_ ?_ ?_ ?_
    · intro k; exact absurd rfl k
    · intro k; exact absurd rfl k
    · intro e he; cases he
    · intro k; simp [hh] at k
    · intro k; exact absurd rfl k
    · intro k; exact hi.frameBooted e he k
    · intro e he; cases he
    · exact ⟨(hi.words.2 e he).1, fun e he => by cases he⟩

theorem MachineInv.andThenReturn (hi : MachineInv s) (hh : s.cpu.halted = false) :
    MachineInv (s.andThen Machine.trapReturn) := by
  rcases State.andThen_cases s Machine.trapReturn with ⟨_, h⟩ | ⟨_, h⟩ <;> rw [h]
  · exact hi.trapReturn hh
  · exact hi

end Sys2Proof.Machine
end

