-- ==== Sys2Proof/Laws/PerInstr.lean ====
section
/-! SUPPORT. The family `EncodesInTable`: every well-formed instruction's encoding has the bits spec/opcode_table.json fixes
for its row (`match` and `mask`; for a byte row its pattern, under the default profile). -/

namespace Sys2Proof.Laws.EncodesInTable

open Sys2Proof

/-- The bits of a unit. -/
def unitBits : BusUnit → Word
  | .opWord w => w
  | .command _ b => 0#24 ++ b
  | .data _ b => 0#24 ++ b
  | .scan b => 0#24 ++ b

/-- `match` and `mask` of a constructor's row in spec/opcode_table.json; a byte row's fixed bits as an 8-bit pattern. -/
def row : Instr → Word × Word
  | .iow _ _ => (0x10000000#32, 0xFF000000#32)
  | .ior _ => (0x20000000#32, 0xFF0000FF#32)
  | .mw16 _ _ => (0x30000000#32, 0xF0000000#32)
  | .mr16 _ => (0x40000000#32, 0xF000FFFF#32)
  | .mw8 _ _ => (0x50000000#32, 0xF000FF00#32)
  | .mr8 _ => (0x60000000#32, 0xF000FFFF#32)
  | .irq _ => (0x70000000#32, 0xFFFFFFF0#32)
  | .key _ => (0x71000000#32, 0xFFFFFF00#32)
  | .exc _ _ => (0x80000000#32, 0xFFFF0000#32)
  | .inta => (0x81000000#32, 0xFFFFFFFF#32)
  | .hrun => (0x82000000#32, 0xFFFFFFFF#32)
  | .cli => (0x83000000#32, 0xFFFFFFFF#32)
  | .sti => (0x84000000#32, 0xFFFFFFFF#32)
  | .hlt => (0x85000000#32, 0xFFFFFFFF#32)
  | .lock _ => (0x86000000#32, 0xFFFFFFFC#32)
  | .unlock _ => (0x87000000#32, 0xFFFFFFFC#32)
  | .build => (0x90000000#32, 0xFFFFFFFF#32)
  | .activate => (0x91000000#32, 0xFFFFFFFF#32)
  | .picinit _ => (0x92000000#32, 0xFFFFFF00#32)
  | .ack _ => (0x93000000#32, 0xFFFFFF00#32)
  | .wrbyte _ => (0x94000000#32, 0xFFFFFF00#32)
  | .scroll => (0x95000000#32, 0xFFFFFFFF#32)
  | .addbyte _ => (0x96000000#32, 0xFFFFFF00#32)
  | .process _ _ => (0x97000000#32, 0xFFFFFE00#32)
  | .icw1 _ => (0b00010001#32, 0xFF#32)
  | .icw2 _ _ => (0#32, 0b111#32)
  | .icw3Master => (0b00000100#32, 0xFF#32)
  | .icw3Slave => (0b00000010#32, 0xFF#32)
  | .icw4 _ => (0b00000001#32, 0xFF#32)
  | .eoi _ => (0b00100000#32, 0xFF#32)
  | .ocw1 _ _ => (0#32, 0#32)
  | .scanPrefix _ => (0b11100000#32, 0xFF#32)
  | .scanKey _ _ => (0#32, 0#32)

/-- The encoding of `i` has the fixed bits of its table row. -/
def Statement (i : Instr) : Prop :=
  i.wf defaultProfile = true → unitBits (encode defaultProfile i) &&& (row i).2 = (row i).1

variable (x y : Byte) (h : Half) (o : BitVec 12)

/-- A format S word under a mask of its `a2` and `a1` fields. -/
theorem packS_row (k sub : BitVec 4) (a2 a1 m2 m1 : Byte) :
    packS k sub a2 a1 &&& (0xF#4 ++ 0xF#4 ++ 0xFF#8 ++ m2 ++ m1) = packS k sub (a2 &&& m2) (a1 &&& m1) := by
  have e : ∀ z : BitVec 4, z &&& 0xF#4 = z := by decide
  rw [packS_and, e, e]
  rfl

theorem iow : Statement (.iow h x) := fun _ =>
  (packP_and 0x1#4 0xF#4 0xF#4 h 0#16 x 0#8).trans (by simp; rfl)
theorem ior : Statement (.ior h) := fun _ =>
  (packP_and 0x2#4 0xF#4 0xF#4 h 0#16 0#8 0xFF#8).trans (by simp; rfl)
theorem mw16 : Statement (.mw16 o h) := fun _ => (packM_and 0x3#4 0xF#4 o 0#12 h 0#16).trans (by simp; rfl)
theorem mr16 : Statement (.mr16 o) := fun _ => (packM_and 0x4#4 0xF#4 o 0#12 0#16 0xFFFF#16).trans (by simp; rfl)
theorem mw8 : Statement (.mw8 o x) := fun _ =>
  (packM_and 0x5#4 0xF#4 o 0#12 (0#8 ++ x) (0xFF#8 ++ 0#8)).trans
    (by
      have : (0#8 ++ x : Half) &&& (0xFF#8 ++ 0#8 : Half) = 0#16 := (BitVec.and_append ..).trans (by simp)
      rw [this]; simp; rfl)
theorem mr8 : Statement (.mr8 o) := fun _ => (packM_and 0x6#4 0xF#4 o 0#12 0#16 0xFFFF#16).trans (by simp; rfl)
theorem irq (n : Fin 16) : Statement (.irq n) := by revert n; unfold Statement; decide
theorem key : Statement (.key x) := fun _ => (packS_row 0x7#4 0x1#4 0#8 x 0xFF#8 0#8).trans (by simp; rfl)
theorem exc : Statement (.exc x y) := fun _ => (packS_row 0x8#4 0x0#4 y x 0#8 0#8).trans (by simp; rfl)
theorem inta : Statement .inta := fun _ => by decide
theorem hrun : Statement .hrun := fun _ => by decide
theorem cli : Statement .cli := fun _ => by decide
theorem sti : Statement .sti := fun _ => by decide
theorem hlt : Statement .hlt := fun _ => by decide
theorem lock (r : Resource) : Statement (.lock r) := fun _ => by cases r <;> decide
theorem unlock (r : Resource) : Statement (.unlock r) := fun _ => by cases r <;> decide
theorem build : Statement .build := fun _ => by decide
theorem activate : Statement .activate := fun _ => by decide
theorem picinit : Statement (.picinit x) := fun _ => (packS_row 0x9#4 0x2#4 0#8 x 0xFF#8 0#8).trans (by simp; rfl)
theorem ack : Statement (.ack x) := fun _ => (packS_row 0x9#4 0x3#4 0#8 x 0xFF#8 0#8).trans (by simp; rfl)
theorem wrbyte : Statement (.wrbyte x) := fun _ => (packS_row 0x9#4 0x4#4 0#8 x 0xFF#8 0#8).trans (by simp; rfl)
theorem scroll : Statement .scroll := fun _ => by decide
theorem addbyte : Statement (.addbyte x) := fun _ => (packS_row 0x9#4 0x6#4 0#8 x 0xFF#8 0#8).trans (by simp; rfl)
theorem process (k : KeyId) (st : KeyState) : Statement (.process k st) := fun _ =>
  (packS_row 0x9#4 0x7#4 (keyStateByte st) k 0xFE#8 0#8).trans (by cases st <;> (simp [keyStateByte]; rfl))
theorem icw1 (c : Ctrl) : Statement (.icw1 c) := fun _ => by cases c <;> decide
theorem icw2 (c : Ctrl) (f : BitVec 5) : Statement (.icw2 c f) := by
  revert f; cases c <;> (unfold Statement; decide)
theorem icw3Master : Statement .icw3Master := fun _ => by decide
theorem icw3Slave : Statement .icw3Slave := fun _ => by decide
theorem icw4 (c : Ctrl) : Statement (.icw4 c) := fun _ => by cases c <;> decide
theorem eoi (c : Ctrl) : Statement (.eoi c) := fun _ => by cases c <;> decide
theorem ocw1 (c : Ctrl) : Statement (.ocw1 c x) := fun _ => BitVec.and_zero
theorem scanPrefix : Statement (.scanPrefix x) := fun h => by
  have : x = 0xE0#8 := by simpa [Instr.wf, defaultProfile] using h
  subst this; decide
theorem scanKey (r : Bool) (k : BitVec 7) : Statement (.scanKey r k) := fun _ => BitVec.and_zero

end Sys2Proof.Laws.EncodesInTable
end

