-- ==== Sys2Proof/Laws/Pseudo.lean ====
section
/-! SUPPORT. Lists of operations, and what the lines of a program stand for (rules R118, R299, R390), once. -/

namespace Sys2Proof.Machine

open Sys2Proof

variable {s t : State}

/-- R390: a list applied, then another from the state it gives. -/
theorem execAll_append (is js : List Instr) (s : State) :
    execAll (is ++ js) s =
      match execAll is s with
      | .next t => execAll js t
      | .fault r => .fault r
      | .refused r => .refused r := by
  induction is generalizing s with
  | nil => rfl
  | cons i is ih =>
    simp only [List.cons_append, execAll]
    cases exec i s with
    | next u => exact ih u
    | fault r => rfl
    | refused r => rfl

/-- Where a list runs to its end it comes to the state it gives. -/
theorem reached_of_next {is : List Instr} (h : execAll is s = .next t) : reached is s = t := by
  induction is generalizing s with
  | nil => cases h; rfl
  | cons i is ih =>
    simp only [execAll] at h
    simp only [reached]
    split at h
    · exact ih h
    · cases h
    · cases h

/-- R118, R299: a program is its first line and then its other lines, each expanded in the state it is entered in. -/
theorem execAll_expandAll_cons (p : Pseudo) (ps : List Pseudo) (s : State) :
    execAll (expandAll s (p :: ps)) s =
      match execAll (expand s p) s with
      | .next t => execAll (expandAll t ps) t
      | .fault r => .fault r
      | .refused r => .refused r := by
  rw [expandAll, execAll_append]
  split
  · rename_i h; rw [reached_of_next h]
  · rfl
  · rfl

/-- In mainline `CLI` runs. -/
theorem exec_cli (hm : s.Mainline) : exec .cli s = .next (s.setIF false) := by
  simp only [exec, execCli, whenMainline_of_mainline hm]

/-- R299: `WOI` in mainline: the body, whatever sections it nests, from `IF` at 0, then `STI` if the value read was 1. -/
theorem execAll_woi (body : List Pseudo) (hm : s.Mainline) :
    execAll (expand s (.woi body)) s =
      match execAll (expandAll (s.setIF false) body) (s.setIF false) with
      | .next t => if s.IF then exec .sti t else .next t
      | .fault r => .fault r
      | .refused r => .refused r := by
  have hr : reached [.cli] s = s.setIF false := by simp only [reached, exec_cli hm]
  rw [expand, hr, List.cons_append, execAll, exec_cli hm]
  simp only [execAll_append]
  split
  · cases s.IF <;> simp only [if_true, Bool.false_eq_true, if_false, execAll]
    split <;> simp_all
  · rfl
  · rfl

end Sys2Proof.Machine
end

