-- ==== Sys2Proof/Tests/Slice0.lean ====
section
/-! SUPPORT. Tests: ill-formed terms the check refuses, words written out from the spec's encodings, single steps on small
states (expected results from spec/95_test_vectors.md, by its group and number, or by hand from the rule named), and for every
obligation with hypotheses a witness that they can be met. -/

namespace Sys2Proof.Tests

-- One theorem at a time: many kernel evaluations at once take a thread, and its stack, each.
set_option Elab.async false

open Sys2Proof Sys2Proof.Machine

/-! ## Helpers -/

/-- `f` of the next state, if there is one. -/
def after {α : Type} (i : Instr) (s : State) (f : State → α) : Option α :=
  match exec i s with
  | .next t => some (f t)
  | .fault _ => none
  | .refused _ => none

/-- Why an instruction is not enabled, if it is not. -/
def blockedBy (i : Instr) (s : State) : Option Blocked :=
  match exec i s with
  | .fault (.notEnabled w) => some w
  | .fault (.stopped _) => none
  | .fault .programEnd => none
  | .next _ => none
  | .refused _ => none

/-- The stop after an instruction. -/
def stopOf (i : Instr) (s : State) : Option StopReason := (after i s (·.stop)).join

/-- `LOG0` of spec/95_test_vectors.md. -/
def log0 : List IoEvent :=
  [.output 0x20#16 0x11#8, .output 0xA0#16 0x11#8, .output 0x21#16 0x20#8, .output 0xA1#16 0x28#8,
   .output 0x21#16 0x04#8, .output 0xA1#16 0x02#8, .output 0x21#16 0x01#8, .output 0xA1#16 0x01#8]

/-- "Booted" of spec/95_test_vectors.md. -/
def booted0 : State :=
  { State.reset with
    cpu := { State.reset.cpu with flags := 0x200 }
    ivt := builtTable defaultProfile
    ivtBuilt := true
    idtActive := true
    master := ⟨0x20#8, .ready, 0#8, 0#8, 0#8, 0x04#8, 0x01#8⟩
    slave := ⟨0x28#8, .ready, 0#8, 0#8, 0#8, 0x02#8, 0x01#8⟩
    iolog := log0 }

/-- Booted, with handler `h` entered from a context with `IF = 1`. -/
def entered (h : HandlerId) (code : Option XWord) : State :=
  { booted0 with cpu := ⟨0x1000, 0x2000, 0, some ⟨h, ⟨0x3000, 0x4000, 0x200⟩, code⟩, false, false⟩ }

/-- Booted, with controller registers set. -/
def picState (mirr misr mimr sirr sisr : Byte) : State :=
  { booted0 with
    master := { booted0.master with irr := mirr, isr := misr, imr := mimr }
    slave := { booted0.slave with irr := sirr, isr := sisr } }

/-- After reset, with controller `c` at step `p` of its initialisation. -/
def atStep (c : Ctrl) (p : InitStep) : State := State.reset.setPic c { Pic.zero with init := p }

/-- After reset, with the decoder's modifiers (left shift, right shift, caps). -/
def modifiers (l r c : Bool) : State := State.reset.setDec ⟨.idle, l, r, false, false, c⟩

/-! ## Well-formedness: one ill-formed term for each check -/

theorem test_wf_exc_code_refused : (Instr.exc 3#8 1#8).wf defaultProfile = false := by decide +kernel
theorem test_wf_exc_code_of_double_fault : (Instr.exc 8#8 1#8).wf defaultProfile = true := by decide +kernel
theorem test_wf_prefix_refused : (Instr.scanPrefix 0x1E#8).wf defaultProfile = false := by decide +kernel
theorem test_wf_prefix : (Instr.scanPrefix 0xE0#8).wf defaultProfile = true := by decide +kernel

/-! ## Decoding: words of spec/95_test_vectors.md 2.1 and of R92 to R97, written out -/

theorem test_decode_ports :
    decodeWord 0x10002020#32 = .ok (.iow 0x20#16 0x20#8) ∧ decodeWord 0x11002020#32 = .error .mustBeZero ∧
    decodeWord 0x20006000#32 = .ok (.ior 0x60#16) ∧ decodeWord 0x20006001#32 = .error .mustBeZero := by decide +kernel

theorem test_decode_memory :
    decodeWord 0x3F9E1234#32 = .ok (.mw16 3998#12 0x1234#16) ∧ decodeWord 0x3FA00000#32 = .ok (.mw16 4000#12 0#16) ∧
    decodeWord 0x4F9E0000#32 = .ok (.mr16 3998#12) ∧ decodeWord 0x40000001#32 = .error .mustBeZero ∧
    decodeWord 0x5001004F#32 = .ok (.mw8 1#12 0x4F#8) ∧ decodeWord 0x50000100#32 = .error .mustBeZero ∧
    decodeWord 0x6F9F0000#32 = .ok (.mr8 3999#12) := by decide +kernel

theorem test_decode_devices :
    decodeWord 0x7000000F#32 = .ok (.irq 15) ∧ decodeWord 0x70000010#32 = .error .mustBeZero ∧
    decodeWord 0x7100001E#32 = .ok (.key 0x1E#8) ∧ decodeWord 0x72000000#32 = .error .illegalSub := by decide +kernel

theorem test_decode_cpu :
    decodeWord 0x80000003#32 = .ok (.exc 3#8 0#8) ∧ decodeWord 0x80000103#32 = .error .badOperand ∧
    decodeWord 0x80000508#32 = .ok (.exc 8#8 5#8) ∧ decodeWord 0x81000000#32 = .ok .inta ∧
    decodeWord 0x81000001#32 = .error .mustBeZero ∧ decodeWord 0x82000000#32 = .ok .hrun ∧
    decodeWord 0x83000000#32 = .ok .cli ∧ decodeWord 0x84000000#32 = .ok .sti ∧ decodeWord 0x85000000#32 = .ok .hlt ∧
    decodeWord 0x86000002#32 = .ok (.lock .pic) ∧ decodeWord 0x86000003#32 = .error .badOperand ∧
    decodeWord 0x87000001#32 = .ok (.unlock .keyboard) ∧ decodeWord 0x88000000#32 = .error .illegalSub := by
  decide +kernel

theorem test_decode_contract :
    decodeWord 0x90000000#32 = .ok .build ∧ decodeWord 0x90010000#32 = .error .mustBeZero ∧
    decodeWord 0x91000000#32 = .ok .activate ∧ decodeWord 0x920000F8#32 = .ok (.picinit 248#8) ∧
    decodeWord 0x93000029#32 = .ok (.ack 41#8) ∧ decodeWord 0x94000048#32 = .ok (.wrbyte 0x48#8) ∧
    decodeWord 0x95000000#32 = .ok .scroll ∧ decodeWord 0x960000E0#32 = .ok (.addbyte 0xE0#8) ∧
    decodeWord 0x970001C8#32 = .ok (.process 0xC8#8 .release) ∧ decodeWord 0x97000200#32 = .error .mustBeZero ∧
    decodeWord 0x98000000#32 = .error .illegalSub := by decide +kernel

theorem test_decode_illegal_classes :
    decodeWord 0x00000000#32 = .error .illegalClass ∧ decodeWord 0xA0000000#32 = .error .illegalClass ∧
    decodeWord 0xFFFFFFFF#32 = .error .illegalClass := by decide +kernel

/-- R102 to R109: a controller byte means what the controller's position says. -/
theorem test_decode_controller_bytes :
    decode resetCtx (.command .master 0x11#8) = .ok (.icw1 .master) ∧
    decode resetCtx (.command .slave 0x20#8) = .ok (.eoi .slave) ∧
    decode resetCtx (.command .master 0x0B#8) = .error .notAdmitted ∧
    decode (resetCtx.withInit .slave .waitIcw2) (.data .slave 0x28#8) = .ok (.icw2 .slave 5#5) ∧
    decode (resetCtx.withInit .slave .waitIcw2) (.data .slave 0x29#8) = .error .badOffset ∧
    decode (resetCtx.withInit .master .waitIcw3) (.data .master 0x04#8) = .ok .icw3Master ∧
    decode (resetCtx.withInit .slave .waitIcw3) (.data .slave 0x02#8) = .ok .icw3Slave ∧
    decode (resetCtx.withInit .slave .waitIcw4) (.data .slave 0x01#8) = .ok (.icw4 .slave) ∧
    decode (resetCtx.withInit .master .ready) (.data .master 0xFD#8) = .ok (.ocw1 .master 0xFD#8) ∧
    decode resetCtx (.data .master 0xFD#8) = .error .notAdmitted := by decide +kernel

/-- R113: a scancode byte means what the decoder's state says. -/
theorem test_decode_scancode_bytes :
    decode resetCtx (.scan 0xE0#8) = .ok (.scanPrefix 0xE0#8) ∧
    decode { resetCtx with stage := .awaitingContinuation } (.scan 0xE0#8) = .ok (.scanKey true 0x60#7) ∧
    decode resetCtx (.scan 0x9E#8) = .ok (.scanKey true 0x1E#7) ∧
    decode resetCtx (.scan 0x1E#8) = .ok (.scanKey false 0x1E#7) := by decide +kernel

/-- Every word row of spec/opcode_table.json, its operand bits 0. -/
theorem test_table_word_rows :
    [0x10000000, 0x20000000, 0x30000000, 0x40000000, 0x50000000, 0x60000000, 0x70000000, 0x71000000, 0x80000000,
      0x81000000, 0x82000000, 0x83000000].map (decodeTableWord 32) =
      [Instr.iow 0 0, .ior 0, .mw16 0 0, .mr16 0, .mw8 0 0, .mr8 0, .irq 0, .key 0, .exc 0 0, .inta, .hrun, .cli].map some ∧
    [0x84000000, 0x85000000, 0x86000000, 0x87000000, 0x90000000, 0x91000000, 0x92000000, 0x93000000, 0x94000000,
      0x95000000, 0x96000000, 0x97000000].map (decodeTableWord 32) =
      [Instr.sti, .hlt, .lock .writer, .unlock .writer, .build, .activate, .picinit 0, .ack 0, .wrbyte 0, .scroll,
        .addbyte 0, .process 0 .press].map some := by decide +kernel

/-- Every byte row of spec/opcode_table.json. -/
theorem test_table_byte_rows :
    [0x11, 0x00, 0x04, 0x02, 0x01, 0x20, 0x0F, 0xE0].map (decodeTableWord 8) =
      [Instr.icw1 .master, .icw2 .master 0, .icw3Master, .icw3Slave, .icw4 .master, .eoi .master, .ocw1 .master 0x0F#8,
        .scanPrefix 0xE0#8].map some := by decide +kernel

/-! ## Steps: the bus primitives (95 2.1, 2.4, 2.5, 2.8) -/

/-- 95 2.4(1). -/
theorem test_iow_icw1 :
    after (.iow 0x20#16 0x11#8) State.reset (fun t => (t.master.init, t.slave.init, t.iolog, t.stop)) =
      some (.waitIcw2, .uninit, [.output 0x20#16 0x11#8], none) := by decide +kernel

/-- 95 2.8(4). -/
theorem test_iow_unmapped :
    after (.iow 0x80#16 0x00#8) State.reset (fun t => (t.stop, t.iolog)) = some (some .rPort, [.output 0x80#16 0x00#8]) := by
  decide +kernel

/-- 95 2.5(1): the byte is taken, the request stays. -/
theorem test_ior_keyboard :
    after (.ior 0x60#16) ({ picState 0x02#8 0#8 0#8 0#8 0#8 with iolog := [], kbd := ⟨some 0x1E#8, booted0.kbd.dec⟩ })
      (fun t => (t.result, t.kbd.obuf, t.iolog, t.master.irr)) =
      some (some (.byte 0x1E#8), none, [.input 0x60#16 0x1E#8], 0x02#8) := by decide +kernel

/-- 95 2.4(1), 2.4(5): the mask is read; nothing is logged where the read stops. -/
theorem test_ior_mask :
    after (.ior 0x21#16) { picState 0#8 0#8 0xFD#8 0#8 0#8 with iolog := [] } (fun t => (t.result, t.iolog)) =
      some (some (.byte 0xFD#8), [.input 0x21#16 0xFD#8]) ∧
    after (.ior 0x21#16) State.reset (fun t => (t.stop, t.iolog)) = some (some .rPicCmd, []) := by decide +kernel

/-- 95 2.8(1): little-endian, the last cell. -/
theorem test_mw16_last_cell :
    after (.mw16 3998#12 0x1234#16) State.reset
      (fun t => (t.mem, fbCell t 24 79, t.writer.col, t.iolog)) =
      some ([(0xB8F9E, 0x34#8), (0xB8F9F, 0x12#8)], 0x1234#16, 0, []) := by decide +kernel

/-- 95 2.8(2). -/
theorem test_mw16_bad_offset :
    stopOf (.mw16 1#12 0#16) State.reset = some .rMem ∧ stopOf (.mw16 4000#12 0#16) State.reset = some .rMem := by
  decide +kernel

/-- 95 2.8(1). -/
theorem test_mr16_reads_cell :
    after (.mr16 0#12) (putCell State.reset 0 0 0x0F41#16) (·.result) = some (some (.half 0x0F41#16)) := by decide +kernel

/-- 95 2.8(2). -/
theorem test_mr16_bad_offset : stopOf (.mr16 3999#12) State.reset = some .rMem := by decide +kernel

/-- 95 2.8(1): the attribute of cell (0, 0). -/
theorem test_mw8_attribute :
    after (.mw8 1#12 0x4F#8) (putCell State.reset 0 0 0x0F41#16) (fun t => fbCell t 0 0) = some 0x4F41#16 := by
  decide +kernel

/-- 95 2.8(2). -/
theorem test_mw8_bad_offset : stopOf (.mw8 4095#12 0#8) State.reset = some .rMem := by decide +kernel

/-- 95 2.8(1): both bytes of a cell. -/
theorem test_mr8_reads_bytes :
    after (.mr8 3998#12) (putCell State.reset 24 79 0x1234#16) (·.result) = some (some (.byte 0x34#8)) ∧
    after (.mr8 3999#12) (putCell State.reset 24 79 0x1234#16) (·.result) = some (some (.byte 0x12#8)) := by decide +kernel

/-- 95 2.8(2). -/
theorem test_mr8_bad_offset : stopOf (.mr8 4000#12) State.reset = some .rMem := by decide +kernel

/-! ## Steps: device events (95 2.4, 2.5) -/

/-- 95 2.4(13), 2.4(15). -/
theorem test_irq_latches :
    after (.irq 0) booted0 (·.master.irr) = some 0x01#8 ∧ after (.irq 8) booted0 (·.slave.irr) = some 0x01#8 ∧
    after (.irq 0) State.reset (·.master.irr) = some 0#8 := by decide +kernel

/-- 95 2.4(14). -/
theorem test_irq_refused_lines : stopOf (.irq 2) booted0 = some .rLine ∧ stopOf (.irq 1) booted0 = some .rLine := by
  decide +kernel

/-- 95 2.5(1), 2.5(7). -/
theorem test_key_fills_buffer :
    after (.key 0x1E#8) booted0 (fun t => (t.kbd.obuf, t.master.irr)) = some (some 0x1E#8, 0x02#8) ∧
    after (.key 0x1E#8) State.reset (fun t => (t.kbd.obuf, t.master.irr)) = some (some 0x1E#8, 0#8) := by decide +kernel

/-- 95 2.5(1). -/
theorem test_key_buffer_full : blockedBy (.key 0x1F#8) (booted0.setObuf (some 0x1E#8)) = some .bufferFull := by decide +kernel

/-! ## Steps: dispatch (95 2.3, 2.4, 2.8, P1, P4, P7, P8, P9, P10) -/

/-- 95 2.3(2), 2.3(6). -/
theorem test_exc_enters :
    after (.exc 3#8 0#8) booted0 (fun t => (t.cpu.handler, t.IF, t.iolog)) =
      some (some ⟨.breakpoint, ⟨0, 0, 0x200⟩, none⟩, false, log0) ∧
    after (.exc 8#8 5#8) booted0 (·.cpu.handler) =
      some (some ⟨.doubleFault, ⟨0, 0, 0x200⟩, some 5⟩) := by decide +kernel

/-- 95 2.1, 2.3(5), 2.3(7). -/
theorem test_exc_stops :
    stopOf (.exc 3#8 0#8) State.reset = some .rNoTable ∧ stopOf (.exc 13#8 0#8) booted0 = some (.fUnhandled 13#8) ∧
    stopOf (.exc 8#8 0#8) { booted0 with cfg := { booted0.cfg with altStackOk := false } } = some .fTriple := by
  decide +kernel

/-- 95 P8: line 0 before line 1, although both are pending. -/
theorem test_inta_priority :
    after .inta (picState 0x03#8 0#8 0#8 0#8 0#8)
      (fun t => (t.cpu.handler.map (·.handler), t.IF, t.master.irr, t.master.isr)) =
      some (some .timer, false, 0x02#8, 0x01#8) := by decide +kernel

/-- 95 P10: a slave line through the cascade, with no handler for its vector. -/
theorem test_inta_slave :
    after .inta (picState 0#8 0#8 0#8 0x01#8 0#8)
      (fun t => (t.stop, t.master.isr, t.slave.isr, t.slave.irr, t.cpu.handler)) =
      some (some (.fUnhandled 40#8), 0x04#8, 0x01#8, 0#8, none) ∧
    blockedBy .inta booted0 = some .noInterrupt ∧ blockedBy .inta (picState 0x02#8 0x01#8 0#8 0#8 0#8) = some .noInterrupt := by
  decide +kernel

/-- 95 P1, 2.3(6), 2.3(1): the tick's effect with the timer's line in service; the exception handlers. -/
theorem test_hrun_timer_and_exceptions :
    after .hrun { entered .timer none with iolog := [], master := { booted0.master with isr := 0x01#8 } }
      (fun t => (fbCell t 24 0, t.master.isr, t.iolog, t.cpu)) =
      some (0x0E2E#16, 0#8, [.output 0x20#16 0x20#8], ⟨0x3000, 0x4000, 0x200, none, false, false⟩) ∧
    after .hrun (entered .doubleFault (some 5)) (fun t => (t.diag, t.cpu.halted, t.cpu.handler.isSome)) =
      some ([.doubleFaultReport ⟨0x3000, 0x4000, 0x200⟩ (some 5)], true, true) ∧
    after .hrun (entered .breakpoint none) (fun t => (t.diag, t.cpu.handler, t.IF)) =
      some ([.breakpointReport ⟨0x3000, 0x4000, 0x200⟩], none, true) := by decide +kernel

/-- Booted, with the keyboard handler entered, byte `b` in the buffer and the decoder in state `st`. -/
def keyboardState (b : Byte) (st : DecStage) : State :=
  { entered .keyboard none with iolog := [], kbd := ⟨some b, ⟨st, false, false, false, false, false⟩⟩ }

/-- 95 2.5(3), the second byte of ArrowUp: the key's name is written. -/
theorem test_hrun_keyboard :
    after .hrun (keyboardState 0x48#8 .awaitingContinuation) (fun t => ((List.range 7).map (fbCell t 24), t.writer.col)) =
      some ([0x0E41#16, 0x0E72#16, 0x0E72#16, 0x0E6F#16, 0x0E77#16, 0x0E55#16, 0x0E70#16], 7) ∧
    after .hrun (keyboardState 0x48#8 .awaitingContinuation) (fun t => (t.kbd.obuf, t.kbd.dec.stage, t.iolog)) =
      some (none, .idle, [.input 0x60#16 0x48#8, .output 0x20#16 0x20#8]) := by decide +kernel

/-! ## Steps: CPU control and locks (95 2.8) -/

/-- 95 2.8(6). -/
theorem test_cli : after .cli booted0 (fun t => (t.IF, t.cpu.flags)) = some (false, 0) := by decide +kernel

/-- 95 2.8(6), 2.8(7). -/
theorem test_sti :
    after .sti (booted0.setIF false) (·.IF) = some true ∧ stopOf .sti State.reset = some .rBootOrder ∧
    stopOf .sti { booted0 with idtActive := false } = some .rBootOrder := by decide +kernel

/-- 95 2.8(8). -/
theorem test_hlt :
    after .hlt booted0 (·.cpu.waiting) = some true ∧
    blockedBy (.wrbyte 0x41#8) { booted0 with cpu := { booted0.cpu with waiting := true } } = some .waiting := by
  decide +kernel

/-- 95 2.8(10). -/
theorem test_lock :
    after (.lock .pic) State.reset (·.locks) = some ⟨.free, .free, .heldByMainline⟩ ∧
    blockedBy (.lock .pic) (State.reset.setLock .pic .heldByMainline) = some (.lockHeld .pic) := by decide +kernel

/-- 95 2.8(10). -/
theorem test_unlock :
    stopOf (.unlock .keyboard) State.reset = some .rLock ∧
    after (.unlock .keyboard) (State.reset.setLock .keyboard .heldByMainline) (·.locks) = some ⟨.free, .free, .free⟩ := by
  decide +kernel

/-! ## Steps: contract commands (95 2.2, 2.4) -/

/-- 95 2.2(1). -/
theorem test_build :
    after .build State.reset (fun t => (t.ivtBuilt, [0#8, 3#8, 8#8, 32#8, 33#8, 34#8, 255#8].map t.entry)) =
      some (true, [⟨.unhandled, none⟩, ⟨.breakpoint, none⟩, ⟨.doubleFault, some 0⟩, ⟨.timer, none⟩, ⟨.keyboard, none⟩,
        ⟨.unhandled, none⟩, ⟨.unhandled, none⟩]) := by decide +kernel

/-- 95 2.2(5). -/
theorem test_build_active : stopOf .build booted0 = some .rTableActive := by decide +kernel

/-- 95 2.2(4), 2.2(3), 2.2(6). -/
theorem test_activate :
    after .activate { booted0 with idtActive := false, cpu := State.reset.cpu } (·.idtActive) = some true ∧
    stopOf .activate State.reset = some .rNotBuilt ∧ stopOf .activate booted0 = some .rBootOrder := by decide +kernel

/-- 95 2.4(8), 2.4(9). -/
theorem test_picinit :
    after (.picinit 32#8) State.reset (fun t => (t.master, t.slave, t.iolog)) = some (booted0.master, booted0.slave, log0) ∧
    after (.picinit 240#8) State.reset (fun t => (t.master.offset, t.slave.offset)) = some (240#8, 248#8) := by decide +kernel

/-- 95 2.4(10), 2.4(11). -/
theorem test_picinit_stops :
    [31#8, 0#8, 36#8, 248#8].map (fun b => after (.picinit b) State.reset fun t => (t.stop, t.iolog)) =
      List.replicate 4 (some (some .rBase, [])) ∧
    after (.picinit 32#8) booted0 (fun t => (t.stop, t.iolog)) = some (some .rReinit, log0 ++ [.output 0x20#16 0x11#8]) := by
  decide +kernel

/-- 95 2.4(19): no, one or two writes. -/
theorem test_ack_writes :
    [32#8, 39#8, 40#8, 47#8, 3#8, 31#8, 48#8, 255#8].map
      (fun v => after (.ack v) { booted0 with iolog := [] } fun t => t.iolog) =
      [some [.output 0x20#16 0x20#8], some [.output 0x20#16 0x20#8],
        some [.output 0xA0#16 0x20#8, .output 0x20#16 0x20#8], some [.output 0xA0#16 0x20#8, .output 0x20#16 0x20#8],
        some [], some [], some [], some []] ∧
    after (.ack 32#8) State.reset (fun t => (t.stop, t.iolog)) = some (some .rPicCmd, []) := by decide +kernel

/-- 95 2.4(21): the right vector, and the master's for a slave line. -/
theorem test_ack_in_service :
    after (.ack 40#8) (picState 0#8 0x04#8 0#8 0x02#8 0x01#8) (fun t => (t.master.isr, t.slave.isr)) = some (0#8, 0#8) ∧
    after (.ack 32#8) (picState 0#8 0x04#8 0#8 0x02#8 0x01#8) (fun t => (t.master.isr, t.slave.isr)) = some (0#8, 0x01#8) := by
  decide +kernel

/-! ## Steps: the display (95 2.7, Part 1) -/

/-- 95 2.7(1), E2. -/
theorem test_wrbyte :
    after (.wrbyte 0x48#8) State.reset (fun t => (t.mem, fbCell t 24 0, t.writer.col, t.iolog)) =
      some ([(0xB8F00, 0x48#8), (0xB8F01, 0x0E#8)], 0x0E48#16, 1, []) ∧
    [0x00#8, 0x1F#8, 0x20#8, 0x7E#8, 0x7F#8, 0xFF#8].map (fun b => after (.wrbyte b) State.reset fun t => fbCell t 24 0) =
      [0x0EFE#16, 0x0EFE#16, 0x0E20#16, 0x0E7E#16, 0x0EFE#16, 0x0EFE#16].map some := by decide +kernel

/-- 95 2.7(3), 2.7(10). -/
theorem test_wrbyte_last_column :
    after (.wrbyte 0x41#8) (State.reset.setCol 79) (fun t => (t.mem, t.writer.col)) =
      some ([(0xB8F9E, 0x41#8), (0xB8F9F, 0x0E#8)], 80) ∧
    blockedBy (.wrbyte 0x41#8) (State.reset.setLock .writer .heldByMainline) = some (.lockHeld .writer) := by decide +kernel

/-- 95 2.7(9): the attribute moves with its cell, and the last row is blank. -/
theorem test_scroll_keeps_colour :
    ∃ t, exec .scroll (putCell State.reset 24 0 0x4F41#16) = .next t ∧ t.writer.col = 0 ∧ fbCell t 23 0 = 0x4F41#16 ∧
      fbCell t 24 0 = 0x0E20#16 :=
  ⟨scroll (putCell State.reset 24 0 0x4F41#16), rfl, rfl,
    (fbCell_scroll _ 23 0 (by decide) (by decide)).trans (by decide +kernel),
    (fbCell_scroll _ 24 0 (by decide) (by decide)).trans (by decide +kernel)⟩

/-! ## Steps: the keyboard decoder (95 2.6) -/

/-- 95 2.6(1), 2.6(3). -/
theorem test_addbyte_idle :
    after (.addbyte 0xE0#8) State.reset (fun t => (t.kbd.dec.stage, t.result)) =
      some (.awaitingContinuation, some (.keyEvent none)) ∧
    [0x1E#8, 0x9E#8, 0x00#8, 0x54#8, 0xFF#8].map (fun b => after (.addbyte b) State.reset fun t => t.result) =
      [some ⟨0x1E#8, .press⟩, some ⟨0x1E#8, .release⟩, none, none, none].map fun e => some (some (.keyEvent e)) := by
  decide +kernel

/-- 95 2.6(1) to 2.6(3). -/
theorem test_addbyte_continuation :
    [0x48#8, 0xC8#8, 0xE0#8, 0x2A#8].map
      (fun b => after (.addbyte b) (State.reset.setDec ⟨.awaitingContinuation, false, false, false, false, false⟩)
        fun t => (t.kbd.dec.stage, t.result)) =
      [some ⟨0xC8#8, .press⟩, some ⟨0xC8#8, .release⟩, none, none].map
        fun e => some (.idle, some (.keyEvent e)) := by decide +kernel

/-- 95 2.6(5), 2.6(6): shift and caps. -/
theorem test_process_layout :
    [(false, false, false), (false, false, true), (true, false, true), (false, true, false)].map
      (fun m => after (.process 0x10#8 .press) (modifiers m.1 m.2.1 m.2.2) fun t => t.result) =
      [Char.ofNat 0x71, Char.ofNat 0x51, Char.ofNat 0x71, Char.ofNat 0x51].map
        (fun ch => some (some (.decoded (some (.unicode ch))))) ∧
    [(0x02#8, Char.ofNat 0x31), (0x1C#8, Char.ofNat 0x0A)].map
      (fun kc => after (.process kc.1 .press) (modifiers false false true) (fun t => t.result) ==
        some (some (.decoded (some (.unicode kc.2))))) = [true, true] := by decide +kernel

/-- 95 2.6(5), 2.6(7): the modifier keys, a raw key, an impossible KeyId. -/
theorem test_process_modifiers :
    after (.process 0x3A#8 .press) State.reset (fun t => (t.kbd.dec, t.result)) =
      some (⟨.idle, false, false, false, false, true⟩, some (.decoded none)) ∧
    after (.process 0x9D#8 .press) State.reset (fun t => t.kbd.dec) = some ⟨.idle, false, false, false, true, false⟩ ∧
    after (.process 0xC8#8 .press) State.reset (fun t => t.result) = some (some (.decoded (some (.rawKey 0xC8#8)))) ∧
    [0x54#8, 0x00#8, 0x80#8, 0xE0#8].map (fun k => stopOf (.process k .press) State.reset) =
      List.replicate 4 (some .rKeyId) := by decide +kernel

/-- R205, R229: the name of a raw key, as bytes ("ArrowUp", 95 2.5(3)); a two-byte character (95 E7, `ö`). -/
theorem test_emit :
    emit defaultProfile (.rawKey 0xC8#8) = [0x41#8, 0x72#8, 0x72#8, 0x6F#8, 0x77#8, 0x55#8, 0x70#8] ∧
    emit defaultProfile (.unicode (Char.ofNat 0xF6)) = [0xC3#8, 0xB6#8] := by decide +kernel

/-! ## Steps: the hardware's own bytes (R102 to R109, R113; 95 2.4) -/

theorem test_icw1 :
    after (.icw1 .slave) State.reset (fun t => (t.slave.init, t.iolog)) = some (.waitIcw2, [.output 0xA0#16 0x11#8]) ∧
    stopOf (.icw1 .slave) booted0 = some .rReinit := by decide +kernel

/-- 95 2.4(1), 2.4(3): an offset below 32 stops. -/
theorem test_icw2 :
    after (.icw2 .slave 5#5) (atStep .slave .waitIcw2) (fun t => (t.slave.offset, t.slave.init)) = some (0x28#8, .waitIcw3) ∧
    stopOf (.icw2 .master 1#5) (atStep .master .waitIcw2) = some .rBase := by decide +kernel

theorem test_icw3_master :
    after .icw3Master (atStep .master .waitIcw3) (fun t => (t.master.icw3, t.master.init, t.iolog)) =
      some (0x04#8, .waitIcw4, [.output 0x21#16 0x04#8]) := by decide +kernel

theorem test_icw3_slave :
    after .icw3Slave (atStep .slave .waitIcw3) (fun t => (t.slave.icw3, t.slave.init, t.iolog)) =
      some (0x02#8, .waitIcw4, [.output 0xA1#16 0x02#8]) := by decide +kernel

theorem test_icw4 :
    after (.icw4 .master) (atStep .master .waitIcw4) (fun t => (t.master.icw4, t.master.init)) = some (0x01#8, .ready) := by
  decide +kernel

/-- 95 2.4(18), 2.4(5). -/
theorem test_eoi :
    after (.eoi .slave) (picState 0#8 0x04#8 0#8 0x02#8 0x01#8)
      (fun t => (t.slave.isr, t.master.isr, intOut t .slave, intOut t .master)) =
      some (0#8, 0x04#8, some 1, none) ∧
    stopOf (.eoi .master) State.reset = some .rPicCmd := by decide +kernel

/-- 95 2.4(1), 2.4(5). -/
theorem test_ocw1 :
    after (.ocw1 .master 0xFD#8) booted0 (·.master.imr) = some 0xFD#8 ∧
    stopOf (.ocw1 .master 0xFF#8) State.reset = some .rPicCmd := by decide +kernel

theorem test_scan_prefix :
    after (.scanPrefix 0xE0#8) State.reset (fun t => (t.kbd.dec.stage, t.result)) =
      some (.awaitingContinuation, some (.keyEvent none)) := by decide +kernel

theorem test_scan_key :
    after (.scanKey true 0x1E#7) State.reset (·.result) = some (some (.keyEvent (some ⟨0x1E#8, .release⟩))) ∧
    blockedBy (.scanKey true 0x1E#7) (State.reset.setLock .keyboard .heldByMainline) = some (.lockHeld .keyboard) := by
  decide +kernel

/-! ## Fetching, the assembler syntax, the screen -/

/-- `f` of the state after a step, if there is one. -/
def afterStep {α : Type} (s : State) (f : State → α) : Option α :=
  match step s with
  | .next t => some (f t)
  | .fault _ => none
  | .refused _ => none

/-- R99, R39, R390: an illegal word stops, and nothing follows; the end of a program. -/
theorem test_step_stops :
    afterStep { State.reset with prog := [.opWord 0x98000000#32] } (fun t => (t.stop, t.prog)) = some (some .rEnc, []) :=
  by decide +kernel

theorem test_step_after_stop :
    step { State.reset with stop := some .rEnc, prog := [.opWord 0x83000000#32] } = .refused (.stopped .rEnc) := rfl

theorem test_step_program_end : step State.reset = .fault .programEnd := rfl

/-- A table word placed for the next step (log 3). -/
theorem test_step_fetches_table_words :
    afterStep (State.reset.withFetchWord 32 0x71000055) (·.kbd.obuf) = some (some 0x55#8) ∧
    afterStep (State.reset.withFetchWord 8 0x04) (fun t => (t.master.icw3, t.master.init)) = some (0x04#8, .waitIcw4) := by
  decide +kernel

/-- R90: "when a program is stored in bytes the word is little-endian". -/
theorem test_words_of_bytes :
    unitsOfBytes [0x20#8, 0x00#8, 0x00#8, 0x92#8, 0x00#8, 0x00#8, 0x00#8, 0x84#8] =
      some [.opWord 0x92000020#32, .opWord 0x84000000#32] := by decide +kernel

/-- R116. -/
theorem test_assemble :
    assembleLine defaultProfile "IOW 0x21, IRQ_BASE" = some (.iow 0x21#16 0x20#8) ∧
    assembleLine defaultProfile "EXC 3, 0 ; a breakpoint" = some (.exc 3#8 0#8) ∧
    assembleLine defaultProfile "IRQ 16" = none := by decide +kernel

/-- Blanks around an operand, and one inside it, which makes no operation (log 26). -/
theorem test_assemble_blanks :
    assembleLine defaultProfile "  IOW  0x21 , 32 " = some (.iow 0x21#16 0x20#8) ∧
    assembleLine defaultProfile "IRQ 1 5" = none ∧ assembleLine defaultProfile " CLI " = some .cli := by decide +kernel

/-- R114: parameters whose tables number a key otherwise are refused, one for each table. -/
theorem test_keys_numbered :
    { defaultProfile with keyMap1 := [(0x01#7, 0x02#8)] }.valid = false ∧
    { defaultProfile with keyMapExt := [(0x48#7, 0x48#8)] }.valid = false ∧
    { defaultProfile with keyMap1 := [(0x7F#7, 0x7F#8)], keyMapExt := [(0x7F#7, 0xFF#8)] }.valid = true := by decide +kernel

/-- 95 E12, R80: foreground 15 on background 4. -/
theorem test_screen_cell :
    mkAttr 4#4 15#4 = 0x4F#8 ∧ showCell 0x4F41#16 = ⟨0x41#8, 15#4, 4#4⟩ ∧ paletteColour 15#4 = .white := by decide +kernel

/-- 95 2.8(13). -/
theorem test_without_interrupts :
    expand booted0 (.woi [.op (.wrbyte 0x41#8)]) = [.cli, .wrbyte 0x41#8, .sti] ∧
    expand State.reset (.woi [.op (.wrbyte 0x41#8)]) = [.cli, .wrbyte 0x41#8] := by decide +kernel

/-- R299: an inner section leaves `IF` at 0, the outer one restores the value it read; entered with `IF` at 1 again (after an
`STI` in the outer body) the inner one restores that. -/
theorem test_without_interrupts_nested :
    expand booted0 (.woi [.woi [.wrstr [0x41#8]], .op .scroll]) = [.cli, .cli, .wrbyte 0x41#8, .scroll, .sti] ∧
    expand State.reset (.woi [.woi [.op .scroll]]) = [.cli, .cli, .scroll] ∧
    expand booted0 (.woi [.op .sti, .woi [.tick]]) = [.cli, .sti, .cli, .irq 0, .sti, .sti] := by decide +kernel

/-- R118, R190: `ACK v` as port writes: the writes once the controllers are `Ready`, `ACK v` before (log 27). -/
theorem test_ack_writes_expansion :
    expand booted0 (.ackWrites 41#8) = [.iow 0xA0#16 0x20#8, .iow 0x20#16 0x20#8] ∧
    expand State.reset (.ackWrites 32#8) = [.ack 32#8] := by decide +kernel

/-- R8, R23: context words of 128 bits, `IF` in bit 100 of the flags, the other bits carried. -/
theorem test_wide_context :
    { defaultProfile with xlen := 128, ifBit := 100 }.valid = true ∧
    after .cli { booted0 with
        cfg := { defaultProfile with xlen := 128, ifBit := 100 }, cpu := { booted0.cpu with flags := 2 ^ 127 + 2 ^ 100 + 1 } }
      (fun t => (t.IF, t.cpu.flags)) = some (false, 2 ^ 127 + 1) := by decide +kernel

/-! ## Witnesses: the hypotheses of each obligation can be met, clause by clause -/

/-- A step whose next state is `t`, from its evaluation. -/
theorem step_of_eval {s t : State} (h : afterStep s (fun u => decide (u = t)) = some true) : step s = .next t := by
  unfold afterStep at h
  split at h
  · rename_i u hu
    simp only [Option.some.injEq, decide_eq_true_eq] at h
    rw [hu, h]
  · cases h
  · cases h

/-- An instruction whose next state is `t`, from its evaluation. -/
theorem exec_of_eval {i : Instr} {s t : State} (h : after i s (fun u => decide (u = t)) = some true) :
    exec i s = .next t := by
  unfold after at h
  split at h
  · rename_i u hu
    simp only [Option.some.injEq, decide_eq_true_eq] at h
    rw [hu, h]
  · cases h
  · cases h

/-- A program of one word. -/
def running (s : State) (w : Word) : State := { s with prog := [.opWord w] }

theorem witness_StepRunsDecodedInstruction :
    (running booted0 0x83000000#32).stop = none ∧ (running booted0 0x83000000#32).prog = .opWord 0x83000000#32 :: [] ∧
    decode (running booted0 0x83000000#32).decodeCtx (.opWord 0x83000000#32) = .ok .cli := by decide +kernel

/-- `illegalWord` of a word is decidable. -/
def illegalWordDecidable (w : Word) : Decidable (illegalWord w) := by unfold illegalWord; infer_instance

/-- Whether every word of a list is illegal (`r = true`), or none is (`r = false`). -/
def allIllegal (r : Bool) (ws : List Word) : Bool := ws.all fun w => @decide _ (illegalWordDecidable w) == r

theorem illegal_of_all {ws : List Word} (h : allIllegal true ws = true) : ∀ w ∈ ws, illegalWord w := fun w hw =>
  @of_decide_eq_true _ (illegalWordDecidable w) (by simpa using List.all_eq_true.mp h w hw)

theorem legal_of_all {ws : List Word} (h : allIllegal false ws = true) : ∀ w ∈ ws, ¬ illegalWord w := fun w hw =>
  @of_decide_eq_false _ (illegalWordDecidable w) (by simpa using List.all_eq_true.mp h w hw)

/-- The last word before and the first past each limit of R99. -/
theorem witness_IllegalWordStops :
    (∀ w ∈ [0x0FFFFFFF#32, 0xA0000000#32, 0x11000000#32, 0x20000001#32, 0x40000001#32, 0x60008000#32, 0x50000100#32,
      0x70010000#32, 0x72000000#32, 0x70000100#32, 0x70000010#32], illegalWord w) ∧
    (∀ w ∈ [0x88000000#32, 0x80000103#32, 0x81000100#32, 0x85000001#32, 0x86000003#32, 0x98000000#32, 0x96000100#32,
      0x95000001#32, 0x97000200#32], illegalWord w) ∧
    (∀ w ∈ [0x10FFFFFF#32, 0x20FFFF00#32, 0x3FFFFFFF#32, 0x5FFF00FF#32, 0x6FFF0000#32, 0x7000000F#32, 0x71000000#32,
      0x8000FF08#32, 0x80000009#32, 0x87000002#32, 0x970001FF#32], ¬ illegalWord w) :=
  ⟨illegal_of_all (by decide +kernel), illegal_of_all (by decide +kernel), legal_of_all (by decide +kernel)⟩

theorem witness_DecodeReadsEncode :
    resetCtx.cfg.valid = true ∧ (Instr.scanPrefix 0xE0#8).wf resetCtx.cfg = true ∧
    readableIn resetCtx (.scanPrefix 0xE0#8) = true := by decide +kernel

theorem witness_EncodeReadsDecode :
    decode (resetCtx.withInit .slave .waitIcw2) (.data .slave 0xF8#8) = .ok (.icw2 .slave 31#5) := by decide +kernel

theorem witness_StoppedTakesNoStep :
    (State.reset.stopAt .fTriple).stop = some .fTriple ∧ (State.reset.stopAt .rLock).stop = some .rLock ∧
    ¬ (StopReason.rLock = .fTriple ∨ StopReason.rLock = .rNoTable ∨ ∃ v, StopReason.rLock = .fUnhandled v) :=
  ⟨rfl, rfl, by simp⟩

theorem witness_ResetValues : 0 ≠ defaultProfile.ifBit ∧ 8 ≠ defaultProfile.ifBit ∧ 10 ≠ defaultProfile.ifBit ∧ 1000 ≠ defaultProfile.ifBit := by decide

theorem launch_zero_wordsFit : Launch.zero.wordsFit defaultProfile := by
  unfold Launch.wordsFit fitsXlen; decide +kernel

theorem witness_InvariantsAtReset : Launch.zero.wordsFit defaultProfile := launch_zero_wordsFit

/-- Booted, the timer's handler entered from `IF = 1` with its line in service, the next word `HRUN`. -/
def timerEntered : State := running { entered .timer none with master := { booted0.master with isr := 0x01#8 } } 0x82000000#32

theorem timerEntered_inv : MachineInv timerEntered where
  memWf := List.Pairwise.nil
  memRegion := by intro x hx; cases hx
  colLe := by decide
  color := rfl
  table := fun _ => rfl
  activeBuilt := fun _ => rfl
  offsets := by intro c; cases c <;> decide
  cascade := by unfold cascadeNotStored; decide
  masked := by decide
  enteredActive := fun _ => rfl
  enteredHandled := by intro e he; cases he; decide
  haltedEntered := by decide
  enteredAwake := fun _ => rfl
  enabledBooted := fun h => absurd h (by decide)
  frameBooted := fun _ _ _ => ⟨rfl, rfl, rfl⟩
  words := ⟨by unfold Frame.wordsFit fitsXlen; decide +kernel,
    fun e he => by cases he; exact ⟨by unfold Frame.wordsFit fitsXlen; decide +kernel, fun c hc => by cases hc⟩⟩

theorem timerEntered_service : ServiceInv timerEntered :=
  fun _ => .inr (.inl ⟨0, by decide, rfl, rfl, rfl⟩)

theorem timerEntered_steps : ∃ t, step timerEntered = .next t := ⟨_, rfl⟩

theorem witness_InvariantKeptByStep :
    ∃ t, timerEntered.cfg.valid = true ∧ MachineInv timerEntered ∧ step timerEntered = .next t :=
  timerEntered_steps.imp fun _ h => ⟨by decide +kernel, timerEntered_inv, h⟩

theorem witness_ServiceInvariantKeptByStep :
    ∃ t, timerEntered.cfg.valid = true ∧ MachineInv timerEntered ∧ ServiceInv timerEntered ∧
      step timerEntered = .next t :=
  timerEntered_steps.imp fun _ h => ⟨by decide +kernel, timerEntered_inv, timerEntered_service, h⟩

/-- R382: a reachable state with both controllers `Ready`. -/
theorem witness_NothingInServiceInMainline :
    ∃ s, defaultProfile.valid = true ∧ Reachable defaultProfile s ∧ s.stop = none ∧ s.cpu.handler = none ∧
      ∀ c, (s.pic c).init = .ready :=
  ⟨{ State.reset with master := booted0.master, slave := booted0.slave, iolog := log0 }, by decide +kernel,
    .next _ _ (.start Launch.zero [.opWord 0x92000020#32] launch_zero_wordsFit) (step_of_eval (by decide +kernel)), rfl, rfl,
    fun c => by cases c <;> rfl⟩

theorem witness_ParametersNeverChange : ∃ t, step (running booted0 0x83000000#32) = .next t := ⟨_, rfl⟩

theorem witness_ActiveTableImmutable :
    ∃ t, (running booted0 0x90000000#32).idtActive = true ∧ step (running booted0 0x90000000#32) = .next t :=
  ⟨_, rfl, rfl⟩

theorem witness_MainlineOnly :
    mainlineOp (.mr8 0#12) = true ∧ (∃ t, exec (.mr8 0#12) booted0 = .next t) ∧ timerEntered.stop = none ∧
    timerEntered.kbd.obuf = none := ⟨rfl, ⟨_, rfl⟩, rfl, rfl⟩

theorem witness_OneHandlerAtATime :
    ∃ e, timerEntered.cpu.handler = some e ∧ (∃ t, exec .hrun timerEntered = .next t) ∧
      (∃ t, exec (.irq 0) timerEntered = .next t) := ⟨_, rfl, ⟨_, rfl⟩, ⟨_, rfl⟩⟩

theorem witness_ReenabledOnlyByReturnOrSti :
    (∃ t, exec .sti (booted0.setIF false) = .next t ∧ (booted0.setIF false).IF = false ∧ t.IF = true) ∧
    ∃ t, exec .hrun (entered .breakpoint none) = .next t ∧ (entered .breakpoint none).IF = false ∧ t.IF = true :=
  ⟨⟨_, rfl, by decide, by decide⟩, ⟨_, rfl, by decide, by decide⟩⟩

theorem witness_LogsOnlyGrow : ∃ t, step timerEntered = .next t := timerEntered_steps

theorem witness_InstructionFrames :
    (∃ t, exec .hrun timerEntered = .next t) ∧ (∃ t, exec (.mw16 3998#12 1#16) booted0 = .next t) ∧
    StatePart.controllers ∉ writes (.mw16 3998#12 1#16) := ⟨⟨_, rfl⟩, ⟨_, rfl⟩, by decide⟩

/-! Controller bytes. -/

theorem witness_Icw1Result :
    (State.reset.Mainline ∧ State.reset.cfg.valid = true ∧ State.reset.master.init = .uninit) ∧
    booted0.Mainline ∧ booted0.cfg.valid = true ∧ booted0.slave.init ≠ .uninit := by decide +kernel

theorem witness_Icw2Result :
    (atStep .slave .waitIcw2).Mainline ∧ (atStep .slave .waitIcw2).cfg.valid = true ∧
    ((atStep .slave .waitIcw2).pic .slave).init = .waitIcw2 ∧
    (∀ n ∈ [32, 240, 248], n % 8 = 0 ∧ 32 ≤ n) ∧ (∀ n ∈ [0, 24, 31, 33, 255], ¬ (n % 8 = 0 ∧ 32 ≤ n)) := by decide +kernel

theorem witness_Icw2Result_forms :
    writesData defaultProfile .slave 0xF8#8 (.icw2 .slave 31#5) ∧ writesData defaultProfile .slave 0xF8#8 (.iow 0xA1#16 0xF8#8) :=
  ⟨.inr (.inr (.inl ⟨31#5, rfl, rfl⟩)), .inl rfl⟩

theorem witness_Icw3Result :
    (atStep .master .waitIcw3).Mainline ∧ ((atStep .master .waitIcw3).pic .master).init = .waitIcw3 ∧
    ((atStep .slave .waitIcw3).pic .slave).init = .waitIcw3 ∧
    1#8 <<< defaultProfile.cascadeLine.val = 4#8 ∧ BitVec.ofNat 8 defaultProfile.cascadeLine.val = 2#8 := by decide +kernel

theorem witness_Icw3Result_forms :
    writesData defaultProfile .master 4#8 .icw3Master ∧ writesData defaultProfile .slave 2#8 .icw3Slave ∧
    writesData defaultProfile .master 2#8 (.iow 0x21#16 2#8) :=
  ⟨.inr (.inr (.inr (.inl ⟨rfl, rfl, rfl⟩))), .inr (.inr (.inr (.inr (.inl ⟨rfl, rfl, rfl⟩)))), .inl rfl⟩

theorem witness_Icw4Result :
    (atStep .slave .waitIcw4).Mainline ∧ (atStep .slave .waitIcw4).cfg.valid = true ∧
    ((atStep .slave .waitIcw4).pic .slave).init = .waitIcw4 ∧ (3#8 : Byte) ≠ defaultProfile.icw4Mode := by decide +kernel

theorem witness_Icw4Result_forms :
    writesData defaultProfile .slave 1#8 (.icw4 .slave) ∧ writesData defaultProfile .slave 3#8 (.iow 0xA1#16 3#8) :=
  ⟨.inr (.inr (.inr (.inr (.inr ⟨rfl, rfl⟩)))), .inl rfl⟩

theorem witness_DataPortOtherWrites :
    booted0.Mainline ∧ booted0.cfg.valid = true ∧ (booted0.pic .slave).init = .ready ∧ State.reset.Mainline ∧
    (State.reset.pic .slave).init = .uninit := by decide +kernel

theorem witness_DataPortOtherWrites_forms : writesData defaultProfile .slave 0xFF#8 (.ocw1 .slave 0xFF#8) := .inr (.inl rfl)

theorem witness_EoiResult :
    (booted0.Mainline ∧ (booted0.pic .master).init = .ready ∧ (booted0.pic .master).isr = 0#8) ∧
    ((picState 0#8 0x80#8 0#8 0#8 0#8).Mainline ∧ (picState 0#8 0x80#8 0#8 0#8 0#8).master.isr.getLsbD 7 = true ∧
      ∀ j : Fin 8, j < 7 → (picState 0#8 0x80#8 0#8 0#8 0#8).master.isr.getLsbD j.val = false) ∧
    (atStep .slave .waitIcw4).Mainline ∧ ((atStep .slave .waitIcw4).pic .slave).init ≠ .ready := by decide +kernel

theorem witness_RefusedPortWrites :
    booted0.Mainline ∧ booted0.cfg.valid = true ∧
    [0x1F#16, 0x22#16, 0x60#16, 0x9F#16, 0xA2#16, 0xFFFF#16].all (fun p => decide (p ∉ [0x20#16, 0x21#16, 0xA0#16, 0xA1#16])) ∧
    (0x0B#8 : Byte) ≠ booted0.cfg.icw1Init ∧ (0x0B#8 : Byte) ≠ booted0.cfg.eoiCmd := by decide +kernel

theorem witness_IorResult :
    booted0.Mainline ∧ booted0.cfg.valid = true ∧ (booted0.setObuf (some 0x1E#8)).kbd.obuf = some 0x1E#8 ∧
    booted0.kbd.obuf = none ∧ (booted0.pic .slave).init = .ready ∧ (State.reset.pic .slave).init ≠ .ready ∧
    (0x64#16 : Half) ∉ [0x20#16, 0x21#16, 0xA0#16, 0xA1#16, 0x60#16] := by decide +kernel

/-! Display memory. -/

theorem witness_Mw16Result :
    booted0.Mainline ∧ [0#12, 3998#12].all (fun o => decide (o.toNat % 2 = 0 ∧ o.toNat < 4000)) ∧
    [1#12, 3999#12, 4000#12, 4095#12].all (fun o => decide (¬ (o.toNat % 2 = 0 ∧ o.toNat < 4000))) := by decide +kernel

theorem witness_Mw8Result :
    booted0.Mainline ∧ (0#12 : BitVec 12).toNat < 4000 ∧ (3999#12 : BitVec 12).toNat < 4000 ∧
    4000 ≤ (4000#12 : BitVec 12).toNat := by decide +kernel

theorem witness_MemoryReadResults : booted0.Mainline ∧ (3998#12 : BitVec 12).toNat % 2 = 0 := by decide +kernel

theorem witness_CellWrittenIsCellRead : booted0.Mainline ∧ 24 < 25 ∧ 79 < 80 := by decide +kernel

/-! Device events. -/

theorem witness_IrqResult :
    booted0.stop = none ∧ (2 : Fin 16).val = booted0.cfg.cascadeLine.val ∧
    (∀ n ∈ [0, 3, 7, 8, 15], n ≠ booted0.cfg.cascadeLine.val ∧ n ≠ 1) ∧ (booted0.pic .slave).init = .ready ∧
    (State.reset.pic .slave).init ≠ .ready := by decide +kernel

theorem witness_KeyResult :
    booted0.stop = none ∧ booted0.kbd.obuf = none ∧ booted0.master.init = .ready ∧ State.reset.kbd.obuf = none ∧
    State.reset.master.init ≠ .ready ∧ (booted0.setObuf (some 0#8)).kbd.obuf ≠ none := by decide +kernel

/-! Resolution, acceptance, trap entry. -/

/-- The requests of a state, as the statement asks for them; 95 2.4(17), 2.4(15). -/
theorem witness_InterruptOutput :
    (∃ req : Fin 8 → Prop, ∀ j, req j ↔
      (if Ctrl.master = .master ∧ j = booted0.cfg.cascadeLine then intOut booted0 .slave ≠ none
        else (booted0.pic .master).irr.getLsbD j.val = true) ∧ (booted0.pic .master).imr.getLsbD j.val = false) ∧
    intOut (picState 0x01#8 0x02#8 0#8 0#8 0#8) .master = some 0 ∧ intOut (picState 0x02#8 0x01#8 0#8 0#8 0#8) .master = none ∧
    intOut (picState 0#8 0#8 0#8 0x80#8 0#8) .master = some 2 :=
  ⟨⟨_, fun _ => Iff.rfl⟩, by decide +kernel⟩

/-- Line 8 comes before line 3 (R164). -/
theorem witness_AcceptanceOrder :
    (picState 0x08#8 0#8 0#8 0x01#8 0#8).cfg.valid = true ∧ (picState 0x08#8 0#8 0#8 0x01#8 0#8).master.isr = 0#8 ∧
    (lineOrder defaultProfile).find? (linePending (picState 0x08#8 0#8 0#8 0x01#8 0#8)) = some 8 ∧
    (lineOrder defaultProfile).find? (linePending booted0) = none := by decide +kernel

theorem witness_ExcResult :
    booted0.Mainline ∧ booted0.idtActive = true ∧ (booted0.entry 3#8).handler ≠ .unhandled ∧ (booted0.entry 3#8).stack = none ∧
    (booted0.entry 8#8).stack = some 0 ∧ booted0.cfg.altStackOk = true ∧ (booted0.entry 255#8).handler = .unhandled := by
  decide +kernel

theorem witness_IntaResult :
    (State.reset.stop = none ∧ State.reset.IF = false) ∧
    [booted0, picState 0x80#8 0#8 0#8 0#8 0#8, picState 0#8 0#8 0#8 0x80#8 0#8].all (fun s =>
      decide (s.stop = none ∧ s.cpu.handler = none ∧ s.cpu.halted = false ∧ s.IF = true)) ∧
    intOut (picState 0x80#8 0#8 0#8 0#8 0#8) .master = some 7 ∧ intOut (picState 0#8 0#8 0#8 0x80#8 0#8) .master = some 2 ∧
    intOut booted0 .master = none ∧ booted0.entry 32#8 = ⟨.timer, none⟩ := by decide +kernel

/-! Handler bodies. -/

theorem witness_HrunBreakpoint :
    ∃ e, (entered .breakpoint none).stop = none ∧ (entered .breakpoint none).cpu.handler = some e ∧
      (entered .breakpoint none).cpu.halted = false ∧ e.handler = .breakpoint := ⟨_, rfl, rfl, rfl, rfl⟩

theorem witness_BreakpointResumes :
    booted0.Mainline ∧ booted0.idtActive = true ∧ booted0.entry 3#8 = ⟨.breakpoint, none⟩ := by decide +kernel

/-- The state after the double-fault body. -/
def fatal : State := { entered .doubleFault (some 0) with cpu := { (entered .doubleFault (some 0)).cpu with halted := true } }

theorem witness_HrunDoubleFault :
    (∃ e, (entered .doubleFault none).stop = none ∧ (entered .doubleFault none).cpu.handler = some e ∧
      (entered .doubleFault none).cpu.halted = false ∧ e.handler = .doubleFault) ∧
    fatal.cpu.halted = true ∧ ∃ t, exec (.irq 0) fatal = .next t := ⟨⟨_, rfl, rfl, rfl, rfl⟩, rfl, _, rfl⟩

/-- The timer's handler entered before the controllers are `Ready` (95 2.5(9)). -/
def earlyTimer : State := { entered .timer none with master := State.reset.master, slave := State.reset.slave }

theorem witness_HrunTimer :
    (∃ e, (entered .timer none).stop = none ∧ (entered .timer none).cpu.handler = some e ∧
      (entered .timer none).cpu.halted = false ∧ e.handler = .timer) ∧
    ((entered .timer none).cfg.valid = true ∧ (entered .timer none).locks = ⟨.free, .free, .free⟩ ∧
      (entered .timer none).master.init = .ready ∧ (entered .timer none).slave.init = .ready) ∧
    ∃ e, earlyTimer.cpu.handler = some e ∧ e.handler = .timer ∧
      ¬ (earlyTimer.master.init = .ready ∧ earlyTimer.slave.init = .ready) :=
  ⟨⟨_, rfl, rfl, rfl, rfl⟩, by decide +kernel, _, rfl, rfl, by decide⟩

/-- The keyboard's handler entered before the controllers are `Ready` (`BUILD`, `ACTIVATE`, `EXC VEC_KEYBOARD`), the buffer
holding `o`. -/
def earlyKeyboard (o : Option Byte) : State :=
  { entered .keyboard none with
    master := State.reset.master, slave := State.reset.slave, kbd := ⟨o, State.reset.kbd.dec⟩ }

theorem witness_HrunKeyboard :
    (∃ e, (keyboardState 0x9E#8 .idle).stop = none ∧ (keyboardState 0x9E#8 .idle).cpu.handler = some e ∧
      (keyboardState 0x9E#8 .idle).cpu.halted = false ∧ e.handler = .keyboard) ∧
    ((keyboardState 0x9E#8 .idle).cfg.valid = true ∧ (keyboardState 0x9E#8 .idle).kbd.obuf = some 0x9E#8 ∧
      (decodeForDisplay defaultProfile (keyboardState 0x9E#8 .idle).kbd.dec 0x9E#8).2 = [] ∧
      (decodeForDisplay defaultProfile (keyboardState 0x1E#8 .idle).kbd.dec 0x1E#8).2 = [0x61#8] ∧
      (keyboardState 0x9E#8 .idle).locks = ⟨.free, .free, .free⟩ ∧ (keyboardState 0x9E#8 .idle).master.init = .ready) ∧
    ((entered .keyboard none).kbd.obuf = none ∧ (entered .keyboard none).locks = ⟨.free, .free, .free⟩) ∧
    (∃ e, (earlyKeyboard none).stop = none ∧ (earlyKeyboard none).cpu.handler = some e ∧
      (earlyKeyboard none).cpu.halted = false ∧ e.handler = .keyboard) ∧
    ((earlyKeyboard none).kbd.obuf = none ∧ (earlyKeyboard (some 0#8)).kbd.obuf = some 0#8 ∧
      (earlyKeyboard none).locks = ⟨.free, .free, .free⟩ ∧ (earlyKeyboard none).cfg.valid = true ∧
      ¬ ((earlyKeyboard none).master.init = .ready ∧ (earlyKeyboard none).slave.init = .ready)) :=
  ⟨⟨_, rfl, rfl, rfl, rfl⟩, by decide +kernel, by decide +kernel, ⟨_, rfl, rfl, rfl, rfl⟩, by decide +kernel⟩

theorem witness_KeyboardBodyEmptiesBuffer :
    ∃ e t, (keyboardState 0x1E#8 .idle).cpu.handler = some e ∧ e.handler = .keyboard ∧
      exec .hrun (keyboardState 0x1E#8 .idle) = .next t := ⟨_, _, rfl, rfl, rfl⟩

/-- 95 P5, index 7; 95 2.8(11). -/
theorem witness_LockDeadlock :
    Deadlocked (timerEntered.setLock .writer .heldByMainline) ∧
    Deadlocked ((keyboardState 0x1E#8 .idle).setLock .writer .heldByMainline) ∧
    (∃ t, exec (.irq 0) (timerEntered.setLock .writer .heldByMainline) = .next t) ∧
    ∃ e, ((entered .keyboard none).setLock .writer .heldByMainline).cpu.handler = some e ∧ e.handler = .keyboard ∧
      ((entered .keyboard none).setLock .writer .heldByMainline).stop = none ∧
      ((entered .keyboard none).setLock .writer .heldByMainline).kbd.obuf = none ∧
      ((entered .keyboard none).setLock .writer .heldByMainline).locks.writer = .heldByMainline :=
  ⟨⟨rfl, _, rfl, .inl ⟨rfl, .inl rfl⟩⟩,
    ⟨rfl, _, rfl, .inr ⟨rfl, .inr (.inr ⟨rfl, 0x1E#8, rfl, by decide +kernel⟩)⟩⟩, ⟨_, rfl⟩, _, rfl, rfl, rfl, rfl, rfl⟩

/-! CPU control and locks. -/

theorem witness_CliResult : booted0.Mainline := by decide +kernel

theorem witness_StiResult :
    (booted0.Mainline ∧ booted0.idtActive = true ∧ booted0.master.init = .ready ∧ booted0.slave.init = .ready) ∧
    State.reset.Mainline ∧
    ¬ (State.reset.idtActive = true ∧ State.reset.master.init = .ready ∧ State.reset.slave.init = .ready) := by decide +kernel

/-- A waiting CPU with the timer's request pending. -/
def waitingState : State :=
  { picState 0x01#8 0#8 0#8 0#8 0#8 with cpu := { booted0.cpu with waiting := true } }

theorem witness_HltResult :
    (picState 0x01#8 0#8 0#8 0#8 0#8).Mainline ∧ State.reset.IF = false ∧
    (∃ u, exec (.key 0#8) waitingState = .next u) ∧ ∃ u, exec .inta waitingState = .next u ∧ u.stop = none :=
  ⟨by decide +kernel, by decide +kernel, ⟨_, rfl⟩, ⟨_, rfl, by decide +kernel⟩⟩

theorem witness_LockUnlockResults :
    booted0.Mainline ∧ booted0.lock .pic = .free ∧ (booted0.setLock .pic .heldByMainline).Mainline ∧
    (booted0.setLock .pic .heldByMainline).lock .pic = .heldByMainline := by decide +kernel

/-! The vector table and the controllers' contract commands. -/

theorem witness_BuildResult :
    State.reset.Mainline ∧ State.reset.cfg.valid = true ∧ State.reset.idtActive = false ∧ booted0.Mainline ∧
    booted0.idtActive = true := by decide +kernel

theorem witness_ActivateResult :
    State.reset.Mainline ∧ State.reset.ivtBuilt = false ∧ booted0.Mainline ∧ booted0.ivtBuilt = true ∧ booted0.IF = true ∧
    (booted0.setIF false).Mainline ∧ (booted0.setIF false).ivtBuilt = true ∧ (booted0.setIF false).IF = false := by
  decide +kernel

theorem witness_PicinitResult :
    State.reset.Mainline ∧ State.reset.cfg.valid = true ∧ State.reset.locks.pic = .free ∧
    State.reset.master.init = .uninit ∧ State.reset.slave.init = .uninit ∧
    (∀ n ∈ [32, 240], 32 ≤ n ∧ n ≤ 240 ∧ n % 8 = 0) ∧
    (∀ n ∈ [24, 31, 33, 241, 248], ¬ (32 ≤ n ∧ n ≤ 240 ∧ n % 8 = 0)) ∧ booted0.master.init ≠ .uninit ∧
    (atStep .slave .ready).master.init = .uninit ∧ (atStep .slave .ready).slave.init ≠ .uninit := by decide +kernel

theorem witness_AckResult :
    (booted0.Mainline ∧ booted0.cfg.valid = true ∧ booted0.locks.pic = .free ∧ booted0.master.init = .ready ∧
      booted0.slave.init = .ready) ∧
    (atStep .slave .ready).Mainline ∧ ¬ ((atStep .slave .ready).master.init = .ready ∧ (atStep .slave .ready).slave.init = .ready) ∧
    (booted0.setLock .pic .heldByMainline).Mainline ∧ (booted0.setLock .pic .heldByMainline).locks.pic = .heldByMainline := by
  decide +kernel

/-! The display. -/

theorem witness_WrbyteResult :
    (State.reset.Mainline ∧ State.reset.locks.writer = .free) ∧
    ((State.reset.setCol 79).writer.col < 80 ∧ 80 ≤ (State.reset.setCol 80).writer.col ∧ (State.reset.setCol 80).Mainline) ∧
    (0x0A#8 : Byte) = State.reset.cfg.newline ∧ (0x1F#8 : Byte) ≠ State.reset.cfg.newline ∧
    (State.reset.setLock .writer .heldByMainline).Mainline ∧
    (State.reset.setLock .writer .heldByMainline).locks.writer = .heldByMainline := by decide +kernel

theorem witness_ScrollResult : booted0.Mainline ∧ booted0.locks.writer = .free := by decide +kernel

theorem witness_WrittenByteReadsBack :
    (State.reset.setCol 80).Mainline ∧ State.reset.cfg.valid = true ∧ (State.reset.setCol 80).locks.writer = .free ∧
    (State.reset.setCol 80).writer.col ≤ 80 ∧
    [0x20#8, 0x7E#8].all (fun b =>
      decide (State.reset.cfg.printLo.toNat ≤ b.toNat ∧ b.toNat ≤ State.reset.cfg.printHi.toNat)) := by decide +kernel

theorem witness_EightyOneBytes :
    State.reset.Mainline ∧ State.reset.locks.writer = .free ∧ State.reset.writer.col = 0 ∧
    (List.replicate 81 0x78#8).length = 81 ∧ (List.replicate 81 0x78#8).all (· != State.reset.cfg.newline) := by decide +kernel

/-! The keyboard decoder. -/

theorem witness_AddbyteResult :
    (State.reset.Mainline ∧ State.reset.locks.kbd = .free ∧ State.reset.kbd.dec.stage = .idle ∧
      0xE0#8 ∈ State.reset.cfg.extPrefix ∧ 0xDF#8 ∉ State.reset.cfg.extPrefix) ∧
    (State.reset.setDec ⟨.awaitingContinuation, false, false, false, false, false⟩).kbd.dec.stage = .awaitingContinuation ∧
    (State.reset.setLock .keyboard .heldByMainline).locks.kbd = .heldByMainline ∧
    BitVec.ofBool true ++ 0x60#7 = 0xE0#8 := by decide +kernel

theorem witness_ProcessResult :
    (State.reset.Mainline ∧ State.reset.locks.kbd = .free) ∧
    ((State.reset.setLock .keyboard .heldByMainline).Mainline ∧
      (State.reset.setLock .keyboard .heldByMainline).locks.kbd = .heldByMainline) ∧
    defaultProfile.keyMap1.lookup 0x2A#7 = some 0x2A#8 ∧ defaultProfile.keyMapExt.lookup 0x48#7 = some 0xC8#8 ∧
    [0x2A#8, 0x36#8, 0x1D#8, 0x9D#8, 0x3A#8, 0xC8#8].map (fun k => defaultProfile.modRole.lookup k) =
      [some .lshift, some .rshift, some .lctrl, some .rctrl, some .caps, none] ∧
    (defaultProfile.layout.lookup 0x10#8).isSome ∧ defaultProfile.layout.lookup 0xC8#8 = none ∧
    [(false, false, false), (true, false, false), (false, false, true), (false, true, true)].map
      (fun m => (((modifiers m.1 m.2.1 m.2.2).kbd.dec.lshift || (modifiers m.1 m.2.1 m.2.2).kbd.dec.rshift),
        (modifiers m.1 m.2.1 m.2.2).kbd.dec.caps)) = [(false, false), (true, false), (false, true), (true, true)] ∧
    ¬ ∃ c : BitVec 7, defaultProfile.keyMap1.lookup c = some 0x54#8 ∨ defaultProfile.keyMapExt.lookup c = some 0x54#8 := by
  decide +kernel

/-! Headlines. -/

theorem witness_BootSequence : defaultProfile.valid = true ∧ State.reset = State.atReset defaultProfile Launch.zero :=
  ⟨by decide +kernel, rfl⟩

theorem witness_TimerCycle :
    (booted0.Mainline ∧ booted0.cfg.valid = true ∧ booted0.IF = true ∧ booted0.idtActive = true ∧
      booted0.entry booted0.cfg.irqBase = ⟨.timer, none⟩ ∧ booted0.master.init = .ready ∧ booted0.slave.init = .ready) ∧
    booted0.master.offset = booted0.cfg.irqBase ∧ ¬ vectorOf booted0.slave.offset booted0.cfg.irqBase ∧
    booted0.master.irr = 0#8 ∧ booted0.slave.irr = 0#8 ∧ booted0.master.isr = 0#8 ∧
    booted0.master.imr.getLsbD 0 = false ∧ booted0.locks = ⟨.free, .free, .free⟩ := by decide +kernel

theorem witness_KeyboardCycle :
    (booted0.Mainline ∧ booted0.cfg.valid = true ∧ booted0.IF = true ∧ booted0.idtActive = true ∧
      booted0.entry (booted0.cfg.irqBase + 1#8) = ⟨.keyboard, none⟩ ∧ booted0.master.init = .ready ∧
      booted0.slave.init = .ready) ∧
    booted0.master.offset = booted0.cfg.irqBase ∧ ¬ vectorOf booted0.slave.offset (booted0.cfg.irqBase + 1#8) ∧
    booted0.master.irr = 0#8 ∧ booted0.slave.irr = 0#8 ∧ booted0.master.isr = 0#8 ∧
    booted0.master.imr.getLsbD 1 = false ∧ booted0.locks = ⟨.free, .free, .free⟩ ∧ booted0.kbd.obuf = none := by decide +kernel

end Sys2Proof.Tests
end

section
/-! PROOFS. What a step does with the next unit of the program (R14, R16, R390). -/

namespace Sys2Proof.Machine

open Sys2Proof

variable {s : State} {u : BusUnit} {rest : List BusUnit}

/-- R390: `fetch` takes the head of a program that is not empty. -/
theorem fetch_of_prog (h : s.prog = u :: rest) : fetch s = some (u, { s with prog := rest, result := none }) := by
  simp [fetch, h]

/-- Fetching leaves alone all that gives a unit its meaning (R100). -/
@[simp] theorem decodeCtx_fetched (s : State) (rest : List BusUnit) :
    State.decodeCtx { s with prog := rest, result := none } = s.decodeCtx := rfl

/-- R14, R16: the step of a running state whose next unit is instruction `i`. -/
theorem step_of_decode_ok {i : Instr} (hs : s.stop = none) (hp : s.prog = u :: rest)
    (hd : decode s.decodeCtx u = .ok i) : step s = exec i { s with prog := rest, result := none } := by
  rw [step, whenRunning_of_running hs, fetch_of_prog hp]
  simp [hd]

/-- Settles O1: the unit `fetch` takes is decoded in the context of `s` itself, which fetching does not change. -/
theorem stepRunsDecodedInstruction : Obligations.StepRunsDecodedInstruction :=
  fun _ _ _ _ hs hp hd => step_of_decode_ok hs hp hd

end Sys2Proof.Machine
end

section
/-! PROOFS. What every step keeps: the frame all instructions share and the invariant `MachineInv`, carried through the shared
operations as one relation between the state before and the state after. -/

namespace Sys2Proof.Machine

open Sys2Proof

variable {s t u : State}

/-! ## The relation -/

/-- What holds between the state before an instruction and the state after it, whatever the instruction: the parameters, the
colour and the program stay (R20, R25), an active table stays active and unwritten (R27, R132), the logs only grow (R37, R38),
and `MachineInv` is kept. -/
structure StepKeeps (s t : State) : Prop where
  cfg : t.cfg = s.cfg
  color : t.writer.color = s.writer.color
  prog : t.prog = s.prog
  table : s.idtActive = true → t.idtActive = true ∧ t.ivt = s.ivt ∧ t.ivtBuilt = s.ivtBuilt
  iolog : s.iolog <+: t.iolog
  diag : s.diag <+: t.diag
  inv : s.cfg.valid = true → MachineInv s → MachineInv t

theorem StepKeeps.refl (s : State) : StepKeeps s s :=
  ⟨rfl, rfl, rfl, fun h => ⟨h, rfl, rfl⟩, List.prefix_rfl, List.prefix_rfl, fun _ hi => hi⟩

theorem StepKeeps.trans (h : StepKeeps s t) (k : StepKeeps t u) : StepKeeps s u where
  cfg := k.cfg.trans h.cfg
  color := k.color.trans h.color
  prog := k.prog.trans h.prog
  table ha := by
    obtain ⟨ha', hivt, hbuilt⟩ := h.table ha
    obtain ⟨ha'', kivt, kbuilt⟩ := k.table ha'
    exact ⟨ha'', kivt.trans hivt, kbuilt.trans hbuilt⟩
  iolog := h.iolog.trans k.iolog
  diag := h.diag.trans k.diag
  inv hv hi := k.inv (by rw [h.cfg]; exact hv) (h.inv hv hi)

/-! ## By what an operation changes -/

/-- A change of the keyboard, the locks, the logs, the stop, the free-value counter and the returned value is read by no
clause of the invariant. -/
theorem StepKeeps.unread
    (h : t =
      { s with
        kbd := t.kbd
        locks := t.locks
        diag := t.diag
        iolog := t.iolog
        stop := t.stop
        draws := t.draws
        result := t.result })
    (hl : s.iolog <+: t.iolog) (hd : s.diag <+: t.diag) : StepKeeps s t := by
  rw [h]
  exact ⟨rfl, rfl, rfl, fun ha => ⟨ha, rfl, rfl⟩, hl, hd, fun _ hi => hi.congr rfl rfl rfl rfl rfl rfl rfl rfl rfl⟩

theorem StepKeeps.ofPic (h : SameButPic s t) (hl : s.iolog <+: t.iolog)
    (hi : s.cfg.valid = true → MachineInv s → MachineInv t) : StepKeeps s t where
  cfg := h.cfg
  color := by rw [h.writer]
  prog := h.prog
  table ha := ⟨h.idtActive.trans ha, h.ivt, h.ivtBuilt⟩
  iolog := hl
  diag := by rw [h.diag]
  inv := hi

theorem StepKeeps.ofScreen (h : SameButScreen s t) (hi : MachineInv s → MachineInv t) : StepKeeps s t where
  cfg := h.cfg
  color := h.color
  prog := h.prog
  table ha := ⟨h.idtActive.trans ha, h.ivt, h.ivtBuilt⟩
  iolog := by rw [h.iolog]
  diag := by rw [h.diag]
  inv _ := hi

theorem StepKeeps.ofCpu {c : Cpu} (hi : s.cfg.valid = true → MachineInv s → MachineInv (s.setCpu c)) :
    StepKeeps s (s.setCpu c) :=
  ⟨rfl, rfl, rfl, fun ha => ⟨ha, rfl, rfl⟩, List.prefix_rfl, List.prefix_rfl, hi⟩

/-! ## The operations on what the invariant does not read -/

theorem stopAt_keeps (s : State) (r : StopReason) : StepKeeps s (s.stopAt r) :=
  .unread rfl List.prefix_rfl List.prefix_rfl

theorem setResult_keeps (s : State) (v : Result) : StepKeeps s (s.setResult v) :=
  .unread rfl List.prefix_rfl List.prefix_rfl

theorem setObuf_keeps (s : State) (b : Option Byte) : StepKeeps s (s.setObuf b) :=
  .unread rfl List.prefix_rfl List.prefix_rfl

theorem setDec_keeps (s : State) (d : Decoder) : StepKeeps s (s.setDec d) :=
  .unread rfl List.prefix_rfl List.prefix_rfl

theorem setLock_keeps (s : State) (r : Resource) (v : LockState) : StepKeeps s (s.setLock r v) := by
  cases r <;> exact .unread rfl List.prefix_rfl List.prefix_rfl

theorem pushLog_keeps (s : State) (e : IoEvent) : StepKeeps s (s.pushLog e) :=
  .unread rfl (List.prefix_append ..) List.prefix_rfl

theorem pushDiag_keeps (s : State) (d : DiagRecord) : StepKeeps s (s.pushDiag d) :=
  .unread rfl List.prefix_rfl (List.prefix_append ..)

theorem kbdRead_keeps (s : State) : StepKeeps s (kbdRead s) := by
  rw [kbdRead_eq]
  exact .unread rfl (List.prefix_append ..) List.prefix_rfl

theorem addByteStep_keeps (b : Byte) (s : State) : StepKeeps s (addByteStep b s) :=
  (setDec_keeps ..).trans (setResult_keeps ..)

/-! ## Ports and controllers -/

/-- What bytes at the controllers do, as seen from the machine: the controllers move as `PicMoves` says, and the log grows. -/
structure PortEffect (s t : State) : Prop where
  same : SameButPic s t
  moves : ∀ d, PicMoves s.cfg d (s.pic d) (t.pic d)
  iolog : s.iolog <+: t.iolog

theorem PortEffect.keeps (h : PortEffect s t) : StepKeeps s t :=
  .ofPic h.same h.iolog fun _ hi => hi.moves h.same h.moves

/-- R170, R280: a byte is logged, then acts at one controller. -/
theorem PortEffect.ofLogged {c : Ctrl} {e : IoEvent} (h : PicStep c (s.pushLog e) t)
    (hm : ∀ d, PicMove s.cfg d (s.pic d) (t.pic d)) : PortEffect s t where
  same := SameButPic.trans (by constructor <;> simp) h.same
  moves d := (hm d).moves
  iolog := by rw [h.iolog]; exact List.prefix_append ..

theorem portWrite_effect (p : Half) (b : Byte) (s : State) : PortEffect s (portWrite p b s) := by
  obtain ⟨c, h⟩ := portWrite_step p b s
  exact .ofLogged h (portWrite_move p b)

theorem writeData_effect (c : Ctrl) (b : Byte) (s : State) : PortEffect s (writeData c b s) :=
  .ofLogged (picData_step c b (logData c b s)) fun d => writeData_move c d b

theorem picIcw1_effect (c : Ctrl) (b : Byte) (s : State) : PortEffect s (picIcw1 c (logCommand c b s)) := by
  refine .ofLogged (picIcw1_step c (logCommand c b s)) fun d => ?_
  have h := picIcw1_move (s := logCommand c b s) c d
  rwa [logCommand_pic] at h

theorem picEoi_effect (c : Ctrl) (b : Byte) (s : State) : PortEffect s (picEoi c (logCommand c b s)) := by
  refine .ofLogged (picEoi_step c (logCommand c b s)) fun d => ?_
  have h := picEoi_move (s := logCommand c b s) c d
  rwa [logCommand_pic] at h

theorem portWrites_effect (ws : List (Half × Byte)) (s : State) : PortEffect s (portWrites ws s) where
  same := portWrites_same ws s
  moves := portWrites_moves ws
  iolog := by
    refine foldl_keep (P := fun t => s.iolog <+: t.iolog) _ ws (fun t w _ ht => ?_) List.prefix_rfl
    rcases State.andThen_cases t (portWrite w.1 w.2) with ⟨_, h⟩ | ⟨_, h⟩ <;> rw [h]
    · exact ht.trans (portWrite_effect ..).iolog
    · exact ht

theorem ackVector_keeps (v : Byte) (s : State) : StepKeeps s (ackVector v s) := by
  unfold ackVector
  split
  · exact (portWrites_effect ..).keeps
  · exact stopAt_keeps ..

/-- R281: a read takes the keyboard's byte, gives a `Ready` controller's mask with a log entry, or stops. -/
theorem portRead_cases (p : Half) (s : State) :
    portRead p s = (kbdRead s, some (kbdByte s)) ∨
    (∃ c, portRead p s = (s.pushLog (.input p (s.pic c).imr), some (s.pic c).imr)) ∨
    ∃ r, portRead p s = (s.stopAt r, none) := by
  have data (c : Ctrl) : picDataRead c p s = (s.pushLog (.input p (s.pic c).imr), some (s.pic c).imr) ∨
      picDataRead c p s = (s.stopAt .rPicCmd, none) := by
    unfold picDataRead
    split
    · exact .inl rfl
    · exact .inr rfl
  unfold portRead
  split
  · exact .inl rfl
  split
  · exact .inr ((data .master).imp (⟨_, ·⟩) (⟨_, ·⟩))
  split
  · exact .inr ((data .slave).imp (⟨_, ·⟩) (⟨_, ·⟩))
  split
  · exact .inr (.inr ⟨_, rfl⟩)
  · exact .inr (.inr ⟨_, rfl⟩)

theorem portRead_keeps (p : Half) (s : State) : StepKeeps s (returnByte (portRead p s)) := by
  rcases portRead_cases p s with h | ⟨c, h⟩ | ⟨r, h⟩ <;> rw [h]
  · exact (kbdRead_keeps s).trans (setResult_keeps ..)
  · exact (pushLog_keeps ..).trans (setResult_keeps ..)
  · exact stopAt_keeps ..

/-- R177: a request on any line but the cascade input. -/
theorem request_keeps (c : Ctrl) (i : Fin 8) (s : State)
    (h : s.cfg.valid = true → c = .master → i ≠ s.cfg.cascadeLine) : StepKeeps s (request c i s) := by
  obtain ⟨hsame, hlog, _⟩ := request_same c i s
  exact .ofPic hsame (by rw [hlog]) fun hv hi => hi.request c i (h hv)

theorem accept_keeps {v : Byte} (h : accept s = some (t, v)) : StepKeeps s t := by
  obtain ⟨hsame, hlog, _⟩ := accept_same h
  exact .ofPic hsame (by rw [hlog]) fun _ hi => hi.accept h

/-- R160: the input of a master's line is the line's own number. -/
theorem lineInput_ne_cascade {cfg : Config} {n : Fin 16} (h : n.val ≠ cfg.cascadeLine.val) (hc : lineCtrl n = .master) :
    lineInput n ≠ cfg.cascadeLine := by
  have hn : n.val < 8 := by
    by_contra hge
    simp [lineCtrl, Config.nLine, hge] at hc
  intro e
  have := congrArg Fin.val e
  simp only [lineInput] at this
  omega

/-! ## The display -/

theorem memWrite2_keeps (a : Nat) (v : Half) (s : State) : StepKeeps s (memWrite2 s a v) := by
  unfold memWrite2
  split
  · exact .ofScreen rfl fun hi => hi.screen rfl (Memory.write_wf (Memory.write_wf hi.memWf ..) ..)
      (putHalf_region v ‹_› hi.memRegion) hi.colLe
  · exact stopAt_keeps ..

theorem memWrite1_keeps (a : Nat) (b : Byte) (s : State) : StepKeeps s (memWrite1 s a b) := by
  unfold memWrite1
  split
  · exact .ofScreen rfl fun hi => hi.screen rfl (Memory.write_wf hi.memWf ..) (putByte_region b ‹_› hi.memRegion) hi.colLe
  · exact stopAt_keeps ..

theorem scroll_keeps (s : State) : StepKeeps s (scroll s) :=
  .ofScreen (scroll_sameButScreen s) fun hi =>
    hi.screen (scroll_sameButScreen s) (scroll_wf hi.memWf) (scroll_region hi.memRegion) (Nat.zero_le _)

theorem writeByte_keeps (b : Byte) (s : State) : StepKeeps s (writeByte b s) :=
  .ofScreen (writeByte_sameButScreen b s) fun hi => hi.writeByte b

theorem writeBytes_keeps (bs : List Byte) (s : State) : StepKeeps s (writeBytes bs s) :=
  writeBytes_keep (P := StepKeeps s) (fun t b ht => ht.trans (writeByte_keeps b t)) bs (.refl s)

/-! ## Taking an exception, returning from one, and the handler bodies -/

theorem trapEntry_keeps {v : Byte} {code : Option XWord} (hh : s.cpu.halted = false)
    (hc : ∀ x, code = some x → codeFits s.cfg x) : StepKeeps s (trapEntry v code s) := by
  rcases trapEntry_frame v code s with ⟨c, h⟩ | ⟨r, h⟩
  · have hi : s.cfg.valid = true → MachineInv s → MachineInv (trapEntry v code s) := fun hv hi => hi.trapEntry hv hh v code hc
    rw [h] at hi ⊢
    exact .ofCpu hi
  · rw [h]
    exact stopAt_keeps ..

theorem trapReturn_keeps (hh : s.cpu.halted = false) : StepKeeps s (trapReturn s) := by
  have hi : s.cfg.valid = true → MachineInv s → MachineInv (trapReturn s) := fun _ hi => hi.trapReturn hh
  cases he : s.cpu.handler with
  | none =>
    simp only [trapReturn, he]
    exact .refl s
  | some e =>
    rw [trapReturn_of_entered he] at hi ⊢
    exact .ofCpu hi

/-- R327: the return that ends a handler body, unless the body stopped. -/
theorem andThen_trapReturn_keeps (hh : s.cpu.halted = false) : StepKeeps s (s.andThen trapReturn) := by
  rcases State.andThen_cases s trapReturn with ⟨_, h⟩ | ⟨_, h⟩ <;> rw [h]
  · exact trapReturn_keeps hh
  · exact .refl s

/-- R200: up to its return the timer's body leaves the CPU alone. -/
theorem timerWork_cpu (s : State) :
    (ackVector s.cfg.vecTimer (writeByte s.cfg.heartbeat s)).cpu = s.cpu :=
  (ack_same ..).cpu.trans (writeByte_sameButScreen ..).cpu

/-- R201: up to its return the keyboard's body leaves the CPU alone. -/
theorem keyboardWork_cpu (s : State) : (ackVector s.cfg.vecKeyboard (keyboardOutput s)).cpu = s.cpu :=
  (ack_same ..).cpu.trans (keyboardOutput_eq s).cpu

theorem breakpointBody_keeps (e : Entered) (hh : s.cpu.halted = false) : StepKeeps s (breakpointBody e s) :=
  (pushDiag_keeps ..).trans (trapReturn_keeps hh)

/-- R152: the fatal halt keeps the double-fault handler entered. -/
theorem doubleFaultBody_keeps {e : Entered} (he : s.cpu.handler = some e) (hd : e.handler = .doubleFault) :
    StepKeeps s (doubleFaultBody e s) :=
  (pushDiag_keeps ..).trans <| .ofCpu fun _ hi =>
    hi.setCpu _ hi.masked hi.enteredActive hi.enteredHandled (fun _ => ⟨e, he, hd⟩) hi.enteredAwake hi.enabledBooted
      hi.frameBooted hi.words

theorem timerBody_keeps (hh : s.cpu.halted = false) : StepKeeps s (timerBody s) :=
  ((writeByte_keeps ..).trans (ackVector_keeps ..)).trans (andThen_trapReturn_keeps (by rw [timerWork_cpu]; exact hh))

theorem keyboardBody_keeps (hh : s.cpu.halted = false) : StepKeeps s (keyboardBody s) :=
  have output : StepKeeps s (keyboardOutput s) :=
    ((kbdRead_keeps s).trans (setDec_keeps ..)).trans (writeBytes_keeps ..)
  (output.trans (ackVector_keeps ..)).trans (andThen_trapReturn_keeps (by rw [keyboardWork_cpu]; exact hh))

/-! ## The instructions -/

theorem execIrq_keeps {n : Fin 16} (h : execIrq n s = .next t) : StepKeeps s t := by
  obtain ⟨_, ⟨_, rfl⟩ | ⟨hn, _, rfl⟩⟩ := execIrq_next h
  · exact stopAt_keeps ..
  · exact request_keeps _ _ s fun _ => lineInput_ne_cascade hn

/-- R203: line 1 is not the cascade input (R9(f)). -/
theorem execKey_keeps {b : Byte} (h : execKey b s = .next t) : StepKeeps s t := by
  obtain ⟨_, _, rfl⟩ := execKey_next h
  exact (setObuf_keeps ..).trans (request_keeps _ _ _ fun hv _ => (Config.valid_cascade hv).2.symm)

theorem execExc_keeps {v c : Byte} (h : execExc v c s = .next t) : StepKeeps s t := by
  obtain ⟨⟨_, _, hh, _⟩, rfl⟩ := execExc_next h
  refine trapEntry_keeps hh fun x hx => ?_
  unfold excCode at hx
  split at hx
  · cases hx; exact zextByte_fits ..
  · cases hx

theorem execInta_keeps (h : execInta s = .next t) : StepKeeps s t := by
  obtain ⟨_, hh, _, _, u, v, hu, rfl⟩ := execInta_next h
  exact (accept_keeps hu).trans
    (trapEntry_keeps (by rw [(accept_same hu).1.cpu]; exact hh) (by simp))

theorem execHrun_keeps (h : execHrun s = .next t) : StepKeeps s t := by
  obtain ⟨_, hh, e, he, _, ⟨_, rfl⟩ | ⟨hd, rfl⟩ | ⟨_, rfl⟩ | ⟨_, rfl⟩⟩ := execHrun_next h
  · exact breakpointBody_keeps e hh
  · exact doubleFaultBody_keeps he hd
  · exact timerBody_keeps hh
  · exact keyboardBody_keeps hh

theorem MachineInv.flagsFit (hi : MachineInv s) : fitsXlen s.cfg s.cpu.flags := by
  obtain ⟨⟨_, _, hflags⟩, _⟩ := hi.words
  exact hflags

/-- In mainline a change of the CPU that enters no handler owes the invariant only `IF` and the width of the flags. -/
theorem MachineInv.setCpu_mainline (hi : MachineInv s) (hm : s.Mainline) {c : Cpu} (hip : c.ip = s.cpu.ip)
    (hsp : c.sp = s.cpu.sp) (hhandler : c.handler = s.cpu.handler) (hhalted : c.halted = s.cpu.halted)
    (hIF : flagIF s.cfg c.flags = true → booted s) (hw : fitsXlen s.cfg c.flags) : MachineInv (s.setCpu c) := by
  obtain ⟨_, hnone, hrun, _⟩ := hm
  have hc : c.handler = none := hhandler.trans hnone
  obtain ⟨⟨wip, wsp, _⟩, _⟩ := hi.words
  refine hi.setCpu c (absurd hc) (absurd hc) (by simp [hc]) (by simp [hhalted, hrun]) (absurd hc) hIF (by simp [hc])
    ⟨⟨?_, ?_, hw⟩, by simp [hc]⟩
  · exact hip ▸ wip
  · exact hsp ▸ wsp

/-- R290, R291: `IF` is set or cleared in mainline, set only once booted. -/
theorem setIF_keeps (hm : s.Mainline) {b : Bool} (hb : b = true → booted s) : StepKeeps s (s.setIF b) :=
  .ofCpu fun hv hi => hi.setCpu_mainline hm rfl rfl rfl rfl (by rw [flagIF_withIF]; exact hb)
    (withIF_fits hv hi.flagsFit)

theorem execSti_keeps (h : execSti s = .next t) : StepKeeps s t := by
  obtain ⟨hm, ⟨ha, hma, hsl, rfl⟩ | ⟨_, rfl⟩⟩ := execSti_next h
  · exact setIF_keeps hm fun _ => ⟨ha, hma, hsl⟩
  · exact stopAt_keeps ..

theorem execHlt_keeps (h : execHlt s = .next t) : StepKeeps s t := by
  obtain ⟨hm, rfl⟩ := execHlt_next h
  exact .ofCpu fun _ hi => hi.setCpu_mainline hm rfl rfl rfl rfl hi.enabledBooted hi.flagsFit

/-- R131: writing the table keeps the invariant where what is written is the table of R131. -/
theorem MachineInv.setTable (hi : MachineInv s) {table : Vector Entry 256} (ht : table = builtTable s.cfg) :
    MachineInv { s with ivt := table, ivtBuilt := true } :=
  ⟨hi.memWf, hi.memRegion, hi.colLe, hi.color, fun _ => ht, fun _ => rfl, hi.offsets, hi.cascade, hi.masked,
    hi.enteredActive, hi.enteredHandled, hi.haltedEntered, hi.enteredAwake, hi.enabledBooted, hi.frameBooted, hi.words⟩

/-- R132: only an inactive table is written. -/
theorem execBuild_keeps (h : execBuild s = .next t) : StepKeeps s t := by
  obtain ⟨_, ⟨_, rfl⟩ | ⟨ha, rfl⟩⟩ := execBuild_next h
  · exact stopAt_keeps ..
  · exact ⟨rfl, rfl, rfl, fun k => absurd k (by simp [ha]), List.prefix_rfl, List.prefix_rfl, fun _ hi => hi.setTable rfl⟩

/-- R133, R291: activating a built table, with `IF` at 0 and no handler entered, keeps the invariant. -/
theorem MachineInv.activate (hi : MachineInv s) (hn : s.cpu.handler = none) (hb : s.ivtBuilt = true) (hIF : s.IF = false) :
    MachineInv { s with idtActive := true } :=
  ⟨hi.memWf, hi.memRegion, hi.colLe, hi.color, hi.table, fun _ => hb, hi.offsets, hi.cascade, hi.masked, fun _ => rfl,
    hi.enteredHandled, hi.haltedEntered, hi.enteredAwake, fun h => absurd (hIF.symm.trans h) Bool.false_ne_true,
    fun e he => by simp [hn] at he, hi.words⟩

theorem execActivate_keeps (h : execActivate s = .next t) : StepKeeps s t := by
  obtain ⟨⟨_, hn, _, _⟩, ⟨_, rfl⟩ | ⟨_, _, rfl⟩ | ⟨hb, hIF, rfl⟩⟩ := execActivate_next h
  · exact stopAt_keeps ..
  · exact stopAt_keeps ..
  · exact ⟨rfl, rfl, rfl, fun _ => ⟨rfl, rfl, rfl⟩, List.prefix_rfl, List.prefix_rfl, fun _ hi => hi.activate hn hb hIF⟩

theorem exec_keeps {i : Instr} (h : exec i s = .next t) : StepKeeps s t := by
  cases i with
  | iow => obtain ⟨_, rfl⟩ := execIow_next h; exact (portWrite_effect ..).keeps
  | ior => obtain ⟨_, rfl⟩ := execIor_next h; exact portRead_keeps ..
  | mw16 => obtain ⟨_, rfl⟩ := execMw16_next h; exact memWrite2_keeps ..
  | mr16 =>
    obtain ⟨_, ⟨_, _, rfl⟩ | ⟨_, rfl⟩⟩ := execMr16_next h
    · exact setResult_keeps ..
    · exact stopAt_keeps ..
  | mw8 => obtain ⟨_, rfl⟩ := execMw8_next h; exact memWrite1_keeps ..
  | mr8 =>
    obtain ⟨_, ⟨_, _, rfl⟩ | ⟨_, rfl⟩⟩ := execMr8_next h
    · exact setResult_keeps ..
    · exact stopAt_keeps ..
  | irq => exact execIrq_keeps h
  | key => exact execKey_keeps h
  | exc => exact execExc_keeps h
  | inta => exact execInta_keeps h
  | hrun => exact execHrun_keeps h
  | cli => obtain ⟨hm, rfl⟩ := execCli_next h; exact setIF_keeps hm (by simp)
  | sti => exact execSti_keeps h
  | hlt => exact execHlt_keeps h
  | lock => obtain ⟨_, _, rfl⟩ := execLock_next h; exact setLock_keeps ..
  | unlock =>
    obtain ⟨_, ⟨_, rfl⟩ | ⟨_, rfl⟩⟩ := execUnlock_next h
    · exact setLock_keeps ..
    · exact stopAt_keeps ..
  | build => exact execBuild_keeps h
  | activate => exact execActivate_keeps h
  | picinit =>
    obtain ⟨_, _, ⟨_, rfl⟩ | ⟨_, rfl⟩⟩ := execPicinit_next h
    · exact (portWrites_effect ..).keeps
    · exact stopAt_keeps ..
  | ack => obtain ⟨_, _, rfl⟩ := execAck_next h; exact ackVector_keeps ..
  | wrbyte => obtain ⟨_, _, rfl⟩ := execWrbyte_next h; exact writeByte_keeps ..
  | scroll => obtain ⟨_, _, rfl⟩ := execScroll_next h; exact scroll_keeps _
  | addbyte => obtain ⟨_, _, rfl⟩ := execAddbyte_next h; exact addByteStep_keeps ..
  | process =>
    obtain ⟨_, _, ⟨_, rfl⟩ | ⟨_, rfl⟩⟩ := execProcess_next h
    · exact (setDec_keeps ..).trans (setResult_keeps ..)
    · exact stopAt_keeps ..
  | icw1 => obtain ⟨_, rfl⟩ := execIcw1_next h; exact (picIcw1_effect ..).keeps
  | icw2 => obtain ⟨_, rfl⟩ := execIcw2_next h; exact (writeData_effect ..).keeps
  | icw3Master => obtain ⟨_, rfl⟩ := execIcw3Master_next h; exact (writeData_effect ..).keeps
  | icw3Slave => obtain ⟨_, rfl⟩ := execIcw3Slave_next h; exact (writeData_effect ..).keeps
  | icw4 => obtain ⟨_, rfl⟩ := execIcw4_next h; exact (writeData_effect ..).keeps
  | eoi => obtain ⟨_, rfl⟩ := execEoi_next h; exact (picEoi_effect ..).keeps
  | ocw1 => obtain ⟨_, rfl⟩ := execOcw1_next h; exact (writeData_effect ..).keeps
  | scanPrefix => obtain ⟨_, _, rfl⟩ := execScanPrefix_next h; exact addByteStep_keeps ..
  | scanKey => obtain ⟨_, _, rfl⟩ := execScanKey_next h; exact addByteStep_keeps ..

/-! ## The step -/

/-- R99, R170, R280: a unit that is no instruction stops, a controller byte after its log entry. -/
theorem rejectUnit_keeps {w : BusUnit} {r : Reject} (h : rejectUnit w r s = .next t) : StepKeeps s t := by
  cases w with
  | opWord =>
    rw [next_inj (whenRunning_next h).2]
    exact stopAt_keeps ..
  | command =>
    rw [next_inj (whenMainline_next h).2]
    exact (pushLog_keeps ..).trans (stopAt_keeps ..)
  | data =>
    rw [next_inj (whenMainline_next h).2]
    exact (pushLog_keeps ..).trans (stopAt_keeps ..)
  | scan => exact exec_keeps (i := .addbyte _) h

/-- What a next state of `step` says: there was a unit, and it ran as an instruction or was rejected. -/
theorem step_next (h : step s = .next t) :
    s.stop = none ∧ ∃ w rest, s.prog = w :: rest ∧
      ((∃ i, decode s.decodeCtx w = .ok i ∧ exec i { s with prog := rest, result := none } = .next t) ∨
        ∃ r, decode s.decodeCtx w = .error r ∧ rejectUnit w r { s with prog := rest, result := none } = .next t) := by
  obtain ⟨hs, h⟩ := whenRunning_next h
  refine ⟨hs, ?_⟩
  cases hp : s.prog with
  | nil => simp [fetch, hp] at h
  | cons w rest =>
    rw [fetch_of_prog hp] at h
    refine ⟨w, rest, rfl, ?_⟩
    cases hd : decode s.decodeCtx w with
    | ok i => exact .inl ⟨i, rfl, by simpa [hd] using h⟩
    | error r => exact .inr ⟨r, rfl, by simpa [hd] using h⟩

/-- A step takes the first unit from the program, and what then runs keeps what every instruction keeps. -/
theorem step_keeps (h : step s = .next t) : StepKeeps { s with prog := s.prog.tail, result := none } t := by
  obtain ⟨_, w, rest, hp, ⟨i, _, h⟩ | ⟨r, _, h⟩⟩ := step_next h <;> rw [hp, List.tail_cons]
  · exact exec_keeps h
  · exact rejectUnit_keeps h

/-- Settles O9: `MachineInv` does not read what fetching changes, and what then runs keeps it (`step_keeps`). -/
theorem invariantKeptByStep : Obligations.InvariantKeptByStep := by
  intro s t hv hi h
  exact (step_keeps h).inv hv (hi.congr rfl rfl rfl rfl rfl rfl rfl rfl rfl)

/-- Settles O12: no instruction changes the three, and fetching takes the first unit. -/
theorem parametersNeverChange : Obligations.ParametersNeverChange := by
  intro s t h
  have k := step_keeps h
  exact ⟨k.cfg, k.color, k.prog⟩

/-- Settles O13: of all instructions `BUILD` alone writes the table, and it stops once the table is active. -/
theorem activeTableImmutable : Obligations.ActiveTableImmutable := by
  intro s t ha h
  exact (step_keeps h).table ha

/-- Settles O17: the extensions of the two logs, as `StepKeeps` gives them. -/
theorem logsOnlyGrow : Obligations.LogsOnlyGrow := by
  intro s t h
  obtain ⟨l, hl⟩ := (step_keeps h).iolog
  obtain ⟨d, hd⟩ := (step_keeps h).diag
  exact ⟨⟨l, hl.symm⟩, d, hd.symm⟩

end Sys2Proof.Machine
end

section
/-! PROOFS. Which instructions the enabling conditions (R39, R286) let happen. -/

namespace Sys2Proof.Machine

open Sys2Proof

variable {s t : State}

/-- R39: every meaning is guarded by the stop. -/
theorem exec_eq_whenRunning (i : Instr) (s : State) : ∃ k, exec i s = whenRunning s k := by
  cases i <;> exact ⟨_, rfl⟩

/-- R286: a mainline operation gives a next state in mainline only. -/
theorem mainline_of_exec {i : Instr} (hi : mainlineOp i = true) (h : exec i s = .next t) : s.Mainline := by
  cases i
  case irq | key | inta | hrun => cases hi
  all_goals exact (whenMainline_next h).1

/-- R39: a stopped machine answers its stop, whatever the instruction. -/
theorem exec_of_stopped {r : StopReason} (hs : s.stop = some r) (i : Instr) : exec i s = stoppedOutcome r := by
  obtain ⟨k, hk⟩ := exec_eq_whenRunning i s
  rw [hk, whenRunning_of_stopped hs]

theorem step_of_stopped {r : StopReason} (hs : s.stop = some r) : step s = stoppedOutcome r :=
  whenRunning_of_stopped hs _

/-- R322: the reasons of kind fault. -/
theorem stoppedOutcome_fault {r : StopReason} (h : r = .fTriple ∨ r = .rNoTable ∨ ∃ v, r = .fUnhandled v) :
    stoppedOutcome r = .fault (.stopped r) := by
  rcases h with rfl | rfl | ⟨v, rfl⟩ <;> rfl

/-- R322: every other reason is of kind refusal. -/
theorem stoppedOutcome_refused {r : StopReason} (h : ¬ (r = .fTriple ∨ r = .rNoTable ∨ ∃ v, r = .fUnhandled v)) :
    stoppedOutcome r = .refused (.stopped r) := by
  cases r
  case fTriple | rNoTable | fUnhandled => simp at h
  all_goals rfl

/-- Settles O6: every meaning asks first whether the machine runs. -/
theorem stoppedTakesNoStep : Obligations.StoppedTakesNoStep := by
  intro s r hs
  refine ⟨fun h => ?_, fun h => ?_⟩
  · have k := stoppedOutcome_fault h
    exact ⟨(step_of_stopped hs).trans k, fun i => (exec_of_stopped hs i).trans k⟩
  · have k := stoppedOutcome_refused h
    exact ⟨(step_of_stopped hs).trans k, fun i => (exec_of_stopped hs i).trans k⟩

/-! ## While a handler is entered (R24, R335) -/

/-- With a handler entered only `HRUN` and the device events are enabled. -/
theorem hrun_or_deviceEvent_of_entered {i : Instr} {e : Entered} (he : s.cpu.handler = some e) (h : exec i s = .next t) :
    i = .hrun ∨ deviceEvent i := by
  have hn : s.cpu.handler ≠ none := by simp [he]
  cases i
  case irq n => exact .inr (.inl ⟨n, rfl⟩)
  case key b => exact .inr (.inr ⟨b, rfl⟩)
  case hrun => exact .inl rfl
  case inta =>
    obtain ⟨_, _, hnone, _⟩ := execInta_next h
    exact absurd hnone hn
  all_goals exact absurd (mainline_of_exec rfl h).2.1 hn

/-- A device event leaves the CPU alone. -/
theorem deviceEvent_cpu {i : Instr} (hi : deviceEvent i) (h : exec i s = .next t) : t.cpu = s.cpu := by
  obtain ⟨n, rfl⟩ | ⟨b, rfl⟩ := hi
  · obtain ⟨_, ⟨_, rfl⟩ | ⟨_, _, rfl⟩⟩ := execIrq_next h
    · rfl
    · exact (request_same ..).1.cpu
  · obtain ⟨_, _, rfl⟩ := execKey_next h
    exact (request_same ..).1.cpu

/-- R333, R327: the return that ends a body restores the interrupted context, or the body stopped before it. -/
theorem andThen_trapReturn_cpu {e : Entered} (hc : t.cpu = s.cpu) (he : s.cpu.handler = some e) :
    (t.andThen trapReturn).cpu = s.cpu ∨ (t.andThen trapReturn).cpu = restoredCpu s e := by
  rcases State.andThen_cases t trapReturn with ⟨_, h⟩ | ⟨_, h⟩ <;> rw [h]
  · rw [trapReturn_of_entered (hc ▸ he), State.setCpu_cpu, hc]
    exact .inr rfl
  · exact .inl hc

/-- R151, R152, R200, R201: the three ways the CPU comes out of a handler body. -/
theorem hrun_cpu {e : Entered} (he : s.cpu.handler = some e) (h : exec .hrun s = .next t) :
    t.cpu = s.cpu ∨ t.cpu = { s.cpu with halted := true } ∨ t.cpu = restoredCpu s e := by
  obtain ⟨_, _, e', he', _, hbody⟩ := execHrun_next h
  obtain rfl : e = e' := Option.some.inj (he.symm.trans he')
  rcases hbody with ⟨_, rfl⟩ | ⟨_, rfl⟩ | ⟨_, rfl⟩ | ⟨_, rfl⟩
  · rw [breakpointBody, trapReturn_of_entered (s := s.pushDiag _) he]
    exact .inr (.inr rfl)
  · exact .inr (.inl rfl)
  · exact (andThen_trapReturn_cpu (timerWork_cpu s) he).imp_right .inr
  · exact (andThen_trapReturn_cpu (keyboardWork_cpu s) he).imp_right .inr

/-- Settles O15: mainline operations and `INTA` ask that no handler is entered; what is left is read off the bodies. -/
theorem oneHandlerAtATime : Obligations.OneHandlerAtATime := by
  intro i s t e he h
  have hi := hrun_or_deviceEvent_of_entered he h
  refine ⟨hi, ?_⟩
  obtain rfl | hdev := hi
  · exact hrun_cpu he h
  · exact .inl (deviceEvent_cpu hdev h)

end Sys2Proof.Machine
end

section
/-! PROOFS. The reset state (R44). -/

namespace Sys2Proof.Machine

open Sys2Proof

/-- R45: at reset every byte of the display memory is its launch value. -/
theorem fbByte_atReset (cfg : Config) (l : Launch) (o : Nat) :
    fbByte (State.atReset cfg l) (cfg.fbBase + o) = Config.freeCellByte o := by
  simp [fbByte, State.atReset, Memory.read]

/-- Settles O7: all but the flag bits and the display bytes are read off the definition of reset. -/
theorem resetValues : Obligations.ResetValues := by
  intro cfg l
  refine ⟨flagsAtReset_IF cfg l.flags, fun j hj => ?_, rfl, rfl, ⟨rfl, rfl, rfl, rfl⟩, rfl, rfl, rfl, rfl, rfl, rfl,
    fbByte_atReset cfg l, rfl, rfl, rfl, rfl, rfl⟩
  exact (testBit_flagsAtReset cfg l.flags j).trans (if_neg hj)

/-- R44: clearing `IF` at reset keeps the flags word within `XLEN` bits. -/
theorem flagsAtReset_fits {cfg : Config} {w : XWord} (h : fitsXlen cfg w) : fitsXlen cfg (flagsAtReset cfg w) := by
  rw [fitsXlen_iff] at h ⊢
  intro j hj
  rw [testBit_flagsAtReset]
  split
  · rfl
  · exact h j hj

/-- No controller has met its first byte at reset. -/
theorem pic_init_atReset (cfg : Config) (l : Launch) (p : List BusUnit) (c : Ctrl) :
    (State.pic { State.atReset cfg l with prog := p } c).init = .uninit := by
  cases c <;> rfl

theorem machineInv_atReset {cfg : Config} {l : Launch} (p : List BusUnit) (hl : l.wordsFit cfg) :
    MachineInv { State.atReset cfg l with prog := p } := by
  obtain ⟨hip, hsp, hflags⟩ := hl
  have hIF : State.IF { State.atReset cfg l with prog := p } = false := flagsAtReset_IF cfg l.flags
  constructor
  case memWf => exact List.Pairwise.nil
  case memRegion => exact fun x hx => absurd hx List.not_mem_nil
  case colLe => exact Nat.zero_le _
  case color => rfl
  case table => exact fun h => absurd h Bool.false_ne_true
  case activeBuilt => exact fun h => absurd h Bool.false_ne_true
  case offsets => exact fun c h _ => absurd (pic_init_atReset cfg l p c) h
  case cascade => exact fun h => absurd rfl h
  case masked => exact fun h => absurd rfl h
  case enteredActive => exact fun h => absurd rfl h
  case enteredHandled => exact fun e he => nomatch he
  case haltedEntered => exact fun h => absurd h Bool.false_ne_true
  case enteredAwake => exact fun h => absurd rfl h
  case enabledBooted => rw [hIF]; exact fun h => absurd h Bool.false_ne_true
  case frameBooted => exact fun e he => nomatch he
  case words => exact ⟨⟨hip, hsp, flagsAtReset_fits hflags⟩, fun e he => nomatch he⟩

theorem serviceInv_atReset (cfg : Config) (l : Launch) (p : List BusUnit) :
    ServiceInv { State.atReset cfg l with prog := p } :=
  fun _ c h => absurd (pic_init_atReset cfg l p c) h

/-- Settles O8: nothing is entered, active, built or initialised at reset. -/
theorem invariantsAtReset : Obligations.InvariantsAtReset :=
  fun cfg l p hl => ⟨machineInv_atReset p hl, serviceInv_atReset cfg l p⟩

end Sys2Proof.Machine
end

section
/-! PROOFS. The memory and port space (R60 to R71): port writes that are refused, and cells of the display memory reached by
their offsets. -/

namespace Sys2Proof.Machine

open Sys2Proof

variable {s : State}

/-! ## Port writes that are refused -/

/-- R280: in mainline `IOW` is the port write. -/
theorem exec_iow_of_mainline (hm : s.Mainline) (p : Half) (b : Byte) : exec (.iow p b) s = .next (portWrite p b s) :=
  whenMainline_of_mainline hm _

/-- R9(c): the keyboard port is none of the controllers' ports. -/
theorem kbdPort_not_mem_picPorts {cfg : Config} (hv : cfg.valid = true) :
    cfg.kbdPort ∉ [cfg.pic1Cmd, cfg.pic1Data, cfg.pic2Cmd, cfg.pic2Data] := by
  have h : ([cfg.pic1Cmd, cfg.pic1Data, cfg.pic2Cmd, cfg.pic2Data] ++ [cfg.kbdPort]).Nodup := Config.valid_ports hv
  exact fun hk => (List.disjoint_of_nodup_append h) hk List.mem_cons_self

/-- The command ports are those of the two controllers. -/
theorem mem_cmdPorts_iff {cfg : Config} {p : Half} : p ∈ [cfg.pic1Cmd, cfg.pic2Cmd] ↔ ∃ c, p = cmdPort cfg c := by
  constructor
  · intro h
    obtain rfl | rfl : p = cfg.pic1Cmd ∨ p = cfg.pic2Cmd := by simpa using h
    · exact ⟨.master, rfl⟩
    · exact ⟨.slave, rfl⟩
  · rintro ⟨c, rfl⟩
    cases c <;> simp [cmdPort]

/-- R170: a controller knows two command bytes; any other stops. -/
theorem picCommand_refused (c : Ctrl) {b : Byte} (hi : b ≠ s.cfg.icw1Init) (he : b ≠ s.cfg.eoiCmd) :
    picCommand c b s = s.stopAt .rPicCmd := by
  rw [picCommand, if_neg hi, if_neg he]

/-- R170, R280: the refused byte is logged before the stop. -/
theorem portWrite_cmdPort_refused (c : Ctrl) {b : Byte} (hv : s.cfg.valid = true) (hi : b ≠ s.cfg.icw1Init)
    (he : b ≠ s.cfg.eoiCmd) :
    portWrite (cmdPort s.cfg c) b s = (s.pushLog (.output (cmdPort s.cfg c) b)).stopAt .rPicCmd := by
  rw [portWrite_cmdPort c b hv]
  exact picCommand_refused c hi he

/-- Settles O25: by the port, a write outside the controllers' ports or one of a refused byte to a command port. -/
theorem refusedPortWrites : Obligations.RefusedPortWrites := by
  intro s p b hm hv
  simp only [exec_iow_of_mainline hm]
  refine ⟨fun hp => ?_, ?_, fun hp hi he => ?_⟩
  · rw [portWrite_other b hp]
    rfl
  · rw [portWrite_other b (kbdPort_not_mem_picPorts hv)]
    rfl
  · obtain ⟨c, rfl⟩ := mem_cmdPorts_iff.1 hp
    rw [portWrite_cmdPort_refused c hv hi he]
    rfl

/-! ## Cells reached by their offsets -/

theorem exec_mw16_of_mainline (hm : s.Mainline) (off : BitVec 12) (d : Half) :
    exec (.mw16 off d) s = .next (memWrite2 s (offAddr s.cfg off) d) :=
  whenMainline_of_mainline hm _

theorem exec_mr16_of_mainline {off : BitVec 12} {v : Half} (hm : s.Mainline)
    (hr : memRead2 s (offAddr s.cfg off) = some v) : exec (.mr16 off) s = .next (s.setResult (.half v)) := by
  simp only [exec, execMr16, whenMainline_of_mainline hm, hr]

theorem exec_mr8_of_mainline {off : BitVec 12} {v : Byte} (hm : s.Mainline)
    (hr : memRead1 s (offAddr s.cfg off) = some v) : exec (.mr8 off) s = .next (s.setResult (.byte v)) := by
  simp only [exec, execMr8, whenMainline_of_mainline hm, hr]

section

variable {r c : Nat}

/-- R94: an operand of 12 bits names every byte of the display memory. -/
theorem offAddr_ofNat (cfg : Config) {n : Nat} (h : n < Config.fbBytes) : offAddr cfg (BitVec.ofNat 12 n) = cfg.fbBase + n := by
  have h : n < 4000 := h
  rw [offAddr, BitVec.toNat_ofNat, Nat.mod_eq_of_lt (by omega)]

/-- R61: both bytes of a cell of the grid lie within the display memory. -/
theorem cellOffset_lt (hr : r < Config.fbRows) (hc : c < Config.fbCols) : 2 * (80 * r + c) + 1 < Config.fbBytes := by
  simp only [Config.fbBytes, Config.fbRows, Config.fbCols, Config.cellBytes] at *
  omega

theorem cellAddr_eq_add_offset (cfg : Config) (r c : Nat) : cellAddr cfg r c = cfg.fbBase + 2 * (80 * r + c) := by
  rw [cellAddr, Config.cellBytes, Config.fbCols, Nat.mul_comm r]

/-- R61, R94: a cell's offset gives its address. -/
theorem offAddr_cell (cfg : Config) (hr : r < Config.fbRows) (hc : c < Config.fbCols) :
    offAddr cfg (BitVec.ofNat 12 (2 * (80 * r + c))) = cellAddr cfg r c := by
  rw [offAddr_ofNat cfg (Nat.lt_of_succ_lt (cellOffset_lt hr hc)), cellAddr_eq_add_offset]

/-- R61, R94: the next offset gives the address of its second byte. -/
theorem offAddr_cell_succ (cfg : Config) (hr : r < Config.fbRows) (hc : c < Config.fbCols) :
    offAddr cfg (BitVec.ofNat 12 (2 * (80 * r + c) + 1)) = cellAddr cfg r c + 1 := by
  rw [offAddr_ofNat cfg (cellOffset_lt hr hc), cellAddr_eq_add_offset, Nat.add_assoc]

/-- R65, R110: the byte at a cell's address is its character. -/
theorem memRead1_cellChar (s : State) (hr : r < Config.fbRows) (hc : c < Config.fbCols) :
    memRead1 s (cellAddr s.cfg r c) = some (cellChar (fbCell s r c)) := by
  simp [memRead1, halfInRegion_bytes (cellAddr_inRegion s.cfg hr hc), fbCell, fbHalf]

/-- R65, R110: the byte after it is the attribute. -/
theorem memRead1_cellAttr (s : State) (hr : r < Config.fbRows) (hc : c < Config.fbCols) :
    memRead1 s (cellAddr s.cfg r c + 1) = some (cellAttr (fbCell s r c)) := by
  simp [memRead1, halfInRegion_bytes (cellAddr_inRegion s.cfg hr hc), fbCell, fbHalf]

end

/-- Settles O30: at a cell's offset the accesses are those of the cell and its two bytes, and `fbCell_putCell` says what a cell
write does to every cell. -/
theorem cellWrittenIsCellRead : Obligations.CellWrittenIsCellRead := by
  intro s r c d hm hr hc
  have hm' : (putCell s r c d).Mainline := hm
  have hd : fbCell (putCell s r c d) r c = d := by simp [fbCell_putCell s d hc hc]
  refine ⟨putCell s r c d, ?_, fun r' c' _ hc' => fbCell_putCell s d hc hc', exec_mr16_of_mainline hm' ?_,
    exec_mr8_of_mainline hm' ?_, exec_mr8_of_mainline hm' ?_⟩
  · rw [exec_mw16_of_mainline hm, offAddr_cell _ hr hc, memWrite2_cell s d hr hc]
  · rw [offAddr_cell _ hr hc, memRead2_cell _ hr hc, hd]
  · rw [offAddr_cell _ hr hc, memRead1_cellChar _ hr hc, hd]
    rfl
  · rw [offAddr_cell_succ _ hr hc, memRead1_cellAttr _ hr hc, hd]
    rfl

end Sys2Proof.Machine
end

section
/-! PROOFS. Decoding what the encoder wrote (R90 to R97, R102 to R109, R113): first the pieces of the decoder on a packed word or
a hardware byte, then every instruction. -/

namespace Sys2Proof

/-! ## The pieces of the word decoder on a packed word -/

@[simp] theorem acceptIf_true (r : Reject) (i : Instr) : acceptIf true r i = .ok i := rfl

@[simp] theorem sNone_packS (k sub : BitVec 4) (i : Instr) : sNone (packS k sub 0#8 0#8) i = .ok i := by
  simp [sNone]

@[simp] theorem sOne_packS (k sub : BitVec 4) (b : Byte) (f : Byte → Instr) : sOne (packS k sub 0#8 b) f = .ok (f b) := by
  simp [sOne]

@[simp] theorem decodeLock_packS (k sub : BitVec 4) (r : Resource) (f : Resource → Instr) :
    decodeLock (packS k sub 0#8 (resourceByte r)) f = .ok (f r) := by
  simp [decodeLock, withResource]

@[simp] theorem decodeIrq_packS (k sub : BitVec 4) (n : Fin 16) :
    decodeIrq (packS k sub 0#8 (BitVec.ofNat 8 n.val)) = .ok (.irq n) := by
  obtain ⟨hhigh, hlow⟩ := irqOperand n
  rw [decodeIrq, fieldMbz_packS, fieldA2_packS, fieldLow_packS, hhigh, hlow]
  rfl

/-- R97: the key state of `PROCESS` and its zero bits. -/
theorem keyStateByte_bits (st : KeyState) : (keyStateByte st).extractLsb' 1 7 = 0#7 ∧
    (if (keyStateByte st).getLsbD 0 then KeyState.release else .press) = st := by
  cases st <;> decide

@[simp] theorem decodeProcess_packS (k sub : BitVec 4) (key : KeyId) (st : KeyState) :
    decodeProcess (packS k sub (keyStateByte st) key) = .ok (.process key st) := by
  obtain ⟨hzero, hst⟩ := keyStateByte_bits st
  rw [decodeProcess, fieldMbz_packS, fieldA2_packS, fieldLow_packS, hzero, hst]
  rfl

theorem decodeExc_packS {v code : Byte} (k sub : BitVec 4) (h : excCodeOk v code = true) :
    decodeExc (packS k sub code v) = .ok (.exc v code) := by
  simp [decodeExc, h]

/-! ## The hardware's bytes -/

/-- R102: the two admitted command bytes differ. -/
theorem decodeCommand_eoi {cfg : Config} (hv : cfg.valid = true) (c : Ctrl) :
    decodeCommand cfg c cfg.eoiCmd = .ok (.eoi c) := by
  simp [decodeCommand, Config.valid_commands hv]

variable {x : DecodeCtx} {c : Ctrl}

theorem decodeData_offsetByte (h : x.init c = .waitIcw2) (o : BitVec 5) :
    decodeData x c (offsetByte o) = .ok (.icw2 c o) := by
  simp [decodeData, h, offsetByte_low, offsetByte_high]

theorem decodeData_icw3Byte (h : x.init c = .waitIcw3) : decodeData x c (icw3Byte x.cfg c) = .ok (icw3Of c) := by
  simp [decodeData, h]

theorem decodeData_icw4Mode (h : x.init c = .waitIcw4) : decodeData x c x.cfg.icw4Mode = .ok (.icw4 c) := by
  simp [decodeData, h]

theorem decodeData_ready (h : x.init c = .ready) (m : Byte) : decodeData x c m = .ok (.ocw1 c m) := by
  simp [decodeData, h]

theorem decodeScan_scanPrefix {b : Byte} (hs : x.stage = .idle) (hb : x.cfg.extPrefix.contains b = true) :
    decodeScan x b = .scanPrefix b := by
  rw [decodeScan, hs]
  exact if_pos hb

/-- R113: a byte is terminal in `AwaitingContinuation`, and in `Idle` unless it is in `EXT_PREFIX`. -/
theorem decodeScan_terminal {b : Byte} (h : x.stage = .awaitingContinuation ∨ x.cfg.extPrefix.contains b = false) :
    decodeScan x b = .scanKey (b.getLsbD 7) (b.extractLsb' 0 7) := by
  unfold decodeScan
  rcases h with h | h
  · rw [h]
  · split
    · rw [h]; rfl
    · rfl

theorem decodeScan_scanByte {r : Bool} {k : BitVec 7}
    (h : x.stage = .awaitingContinuation ∨ x.cfg.extPrefix.contains (scanByte r k) = false) :
    decodeScan x (scanByte r k) = .scanKey r k := by
  rw [decodeScan_terminal h, scanByte_release, scanByte_code]

/-! ## Every instruction -/

/-- Settles O3: by the constructor. An operation word is read by its class and sub-operation, its operands by the field lemmas; a
hardware byte is read by the context that `readableIn` gives. -/
theorem decodeReadsEncode : Obligations.DecodeReadsEncode := by
  intro x i hv hwf hr
  cases i with
  | exc v code => simp [encode, decode, decodeWord, decodeCpu, decodeExc_packS _ _ hwf]
  | icw1 c => exact if_pos rfl
  | eoi c => exact decodeCommand_eoi hv c
  | icw2 c o => exact decodeData_offsetByte (eq_of_beq hr) o
  | icw3Master => exact decodeData_icw3Byte (c := .master) (eq_of_beq hr)
  | icw3Slave => exact decodeData_icw3Byte (c := .slave) (eq_of_beq hr)
  | icw4 c => exact decodeData_icw4Mode (eq_of_beq hr)
  | ocw1 c m => exact decodeData_ready (eq_of_beq hr) m
  | scanPrefix b => exact congrArg Except.ok (decodeScan_scanPrefix (eq_of_beq hr) hwf)
  | scanKey r k =>
    refine congrArg Except.ok (decodeScan_scanByte ?_)
    simpa [readableIn] using hr
  | iow _ _ => simp [encode, decode, decodeWord, decodeIow]
  | ior _ => simp [encode, decode, decodeWord, decodeIor]
  | mw16 _ _ => simp [encode, decode, decodeWord]
  | mr16 _ => simp [encode, decode, decodeWord, decodeMr16]
  | mw8 _ _ => simp [encode, decode, decodeWord, decodeMw8]
  | mr8 _ => simp [encode, decode, decodeWord, decodeMr8]
  | irq _ | key _ => simp [encode, decode, decodeWord, decodeDevice, -BitVec.ofNat_eq_ofNat]
  | inta | hrun | cli | sti | hlt | lock _ | unlock _ => simp [encode, decode, decodeWord, decodeCpu]
  | build | activate | picinit _ | ack _ | wrbyte _ | scroll | addbyte _ | process _ _ =>
    simp [encode, decode, decodeWord, decodeContract]

/-! ## Written-out words -/

/-- Settles O5: each word is evaluated. -/
theorem decodeSamples : Obligations.DecodeSamples := by
  unfold Obligations.DecodeSamples
  decide

end Sys2Proof
end

section
/-! PROOFS. Encoding what the decoder read (R90, R91, R99, R103, R113), class by class and place by place. -/

namespace Sys2Proof

/-- What reading unit `u` as instruction `i` must give: `i` is well-formed, has its meaning in the context, and stands for the
very unit. -/
def ReadsBack (x : DecodeCtx) (u : BusUnit) (i : Instr) : Prop :=
  i.wf x.cfg = true ∧ readableIn x i = true ∧ encode x.cfg i = u

variable {x : DecodeCtx} {w : Word} {i : Instr}

/-! ## The classes without sub-operations (R92, R94) -/

theorem decodeIow_readsBack (hk : fieldK w = 0x1#4) (h : decodeIow w = .ok i) : ReadsBack x (.opWord w) i := by
  obtain ⟨hz, rfl⟩ := acceptIf_ok h
  have hw := word_fieldsP w
  rw [hk, eq_of_beq hz] at hw
  exact ⟨rfl, rfl, congrArg _ hw⟩

theorem decodeIor_readsBack (hk : fieldK w = 0x2#4) (h : decodeIor w = .ok i) : ReadsBack x (.opWord w) i := by
  obtain ⟨hz, rfl⟩ := acceptIf_ok h
  simp only [Bool.and_eq_true, beq_iff_eq] at hz
  obtain ⟨hsub, hlow⟩ := hz
  have hw := word_fieldsP w
  rw [hk, hsub, hlow] at hw
  exact ⟨rfl, rfl, congrArg _ hw⟩

theorem decodeMw16_readsBack (hk : fieldK w = 0x3#4) : ReadsBack x (.opWord w) (.mw16 (fieldOff w) (fieldData w)) := by
  have hw := word_fieldsM w
  rw [hk] at hw
  exact ⟨rfl, rfl, congrArg _ hw⟩

theorem decodeMr16_readsBack (hk : fieldK w = 0x4#4) (h : decodeMr16 w = .ok i) : ReadsBack x (.opWord w) i := by
  obtain ⟨hz, rfl⟩ := acceptIf_ok h
  have hw := word_fieldsM w
  rw [hk, eq_of_beq hz] at hw
  exact ⟨rfl, rfl, congrArg _ hw⟩

theorem decodeMw8_readsBack (hk : fieldK w = 0x5#4) (h : decodeMw8 w = .ok i) : ReadsBack x (.opWord w) i := by
  obtain ⟨hz, rfl⟩ := acceptIf_ok h
  have hw := word_fieldsM w
  rw [hk, ← fieldData_bytes, eq_of_beq hz] at hw
  exact ⟨rfl, rfl, congrArg _ hw⟩

theorem decodeMr8_readsBack (hk : fieldK w = 0x6#4) (h : decodeMr8 w = .ok i) : ReadsBack x (.opWord w) i := by
  obtain ⟨hz, rfl⟩ := acceptIf_ok h
  have hw := word_fieldsM w
  rw [hk, eq_of_beq hz] at hw
  exact ⟨rfl, rfl, congrArg _ hw⟩

/-! ## The classes with sub-operations (R93, R95, R96, R97) -/

/-- R93: an accepted word whose operation uses no operand. -/
theorem sNone_readsBack {k sub : BitVec 4} {i j : Instr} (hk : fieldK w = k) (hs : fieldSub w = sub)
    (h : sNone w j = .ok i) (hj : ReadsBack x (.opWord (packS k sub 0#8 0#8)) j) : ReadsBack x (.opWord w) i := by
  obtain ⟨rfl, hw⟩ := sNone_ok h
  rwa [← hk, ← hs, hw] at hj

/-- R93: an accepted word whose operation uses `a1` only. -/
theorem sOne_readsBack {k sub : BitVec 4} {f : Byte → Instr} (hk : fieldK w = k) (hs : fieldSub w = sub)
    (h : sOne w f = .ok i) (hf : ∀ b, ReadsBack x (.opWord (packS k sub 0#8 b)) (f b)) : ReadsBack x (.opWord w) i := by
  obtain ⟨rfl, hw⟩ := sOne_ok h
  have hb := hf (fieldLow w)
  rwa [← hk, ← hs, hw] at hb

/-- R96: an accepted `LOCK` or `UNLOCK`. -/
theorem decodeLock_readsBack {k sub : BitVec 4} {f : Resource → Instr} (hk : fieldK w = k) (hs : fieldSub w = sub)
    (h : decodeLock w f = .ok i) (hf : ∀ r, ReadsBack x (.opWord (packS k sub 0#8 (resourceByte r))) (f r)) :
    ReadsBack x (.opWord w) i := by
  obtain ⟨r, rfl, hw⟩ := decodeLock_ok h
  have hr := hf r
  rwa [← hk, ← hs, hw] at hr

theorem decodeIrq_readsBack (hk : fieldK w = 0x7#4) (hs : fieldSub w = 0x0#4) (h : decodeIrq w = .ok i) :
    ReadsBack x (.opWord w) i := by
  obtain ⟨hz, rfl⟩ := acceptIf_ok h
  simp only [Bool.and_eq_true, beq_iff_eq] at hz
  obtain ⟨⟨hmbz, ha2⟩, hhigh⟩ := hz
  have hw := word_fieldsS w
  rw [hk, hs, hmbz, ha2, ← irqByte _ hhigh] at hw
  exact ⟨rfl, rfl, congrArg _ hw⟩

theorem decodeExc_readsBack (hk : fieldK w = 0x8#4) (hs : fieldSub w = 0x0#4) (h : decodeExc w = .ok i) :
    ReadsBack x (.opWord w) i := by
  unfold decodeExc at h
  split at h
  case isTrue hmbz =>
    obtain ⟨hcode, rfl⟩ := acceptIf_ok h
    have hw := word_fieldsS w
    rw [hk, hs, eq_of_beq hmbz] at hw
    exact ⟨hcode, rfl, congrArg _ hw⟩
  case isFalse => cases h

theorem decodeProcess_readsBack (hk : fieldK w = 0x9#4) (hs : fieldSub w = 0x7#4) (h : decodeProcess w = .ok i) :
    ReadsBack x (.opWord w) i := by
  obtain ⟨hz, rfl⟩ := acceptIf_ok h
  simp only [Bool.and_eq_true, beq_iff_eq] at hz
  obtain ⟨hmbz, hbits⟩ := hz
  have hw := word_fieldsS w
  rw [hk, hs, hmbz, ← keyStateByte_of _ hbits] at hw
  exact ⟨rfl, rfl, congrArg _ hw⟩

theorem decodeDevice_readsBack (hk : fieldK w = 0x7#4) (h : decodeDevice w = .ok i) : ReadsBack x (.opWord w) i := by
  unfold decodeDevice at h
  split at h
  next hs => exact decodeIrq_readsBack hk hs h
  next hs => exact sOne_readsBack hk hs h fun _ => ⟨rfl, rfl, rfl⟩
  next => cases h

theorem decodeCpu_readsBack (hk : fieldK w = 0x8#4) (h : decodeCpu w = .ok i) : ReadsBack x (.opWord w) i := by
  unfold decodeCpu at h
  split at h
  next hs => exact decodeExc_readsBack hk hs h
  iterate 5 next hs => exact sNone_readsBack hk hs h ⟨rfl, rfl, rfl⟩
  iterate 2 next hs => exact decodeLock_readsBack hk hs h fun _ => ⟨rfl, rfl, rfl⟩
  next => cases h

theorem decodeContract_readsBack (hk : fieldK w = 0x9#4) (h : decodeContract w = .ok i) : ReadsBack x (.opWord w) i := by
  unfold decodeContract at h
  split at h
  iterate 2 next hs => exact sNone_readsBack hk hs h ⟨rfl, rfl, rfl⟩
  iterate 3 next hs => exact sOne_readsBack hk hs h fun _ => ⟨rfl, rfl, rfl⟩
  next hs => exact sNone_readsBack hk hs h ⟨rfl, rfl, rfl⟩
  next hs => exact sOne_readsBack hk hs h fun _ => ⟨rfl, rfl, rfl⟩
  next hs => exact decodeProcess_readsBack hk hs h
  next => cases h

/-- R91: an accepted word, by its class. -/
theorem decodeWord_readsBack (h : decodeWord w = .ok i) : ReadsBack x (.opWord w) i := by
  unfold decodeWord at h
  split at h
  next hk => exact decodeIow_readsBack hk h
  next hk => exact decodeIor_readsBack hk h
  next hk => cases h; exact decodeMw16_readsBack hk
  next hk => exact decodeMr16_readsBack hk h
  next hk => exact decodeMw8_readsBack hk h
  next hk => exact decodeMr8_readsBack hk h
  next hk => exact decodeDevice_readsBack hk h
  next hk => exact decodeCpu_readsBack hk h
  next hk => exact decodeContract_readsBack hk h
  next => cases h

/-! ## The hardware's bytes -/

variable {c : Ctrl} {b : Byte}

theorem decodeCommand_readsBack (h : decodeCommand x.cfg c b = .ok i) : ReadsBack x (.command c b) i := by
  unfold decodeCommand at h
  split at h
  next hb => cases h; exact ⟨rfl, rfl, hb ▸ rfl⟩
  split at h
  next hb => cases h; exact ⟨rfl, rfl, hb ▸ rfl⟩
  next => cases h

theorem decodeData_readsBack (h : decodeData x c b = .ok i) : ReadsBack x (.data c b) i := by
  unfold decodeData at h
  split at h
  next => cases h
  next hc =>
    obtain ⟨hlow, rfl⟩ := acceptIf_ok h
    exact ⟨rfl, beq_iff_eq.2 hc, congrArg _ (offsetByte_of b (eq_of_beq hlow))⟩
  next hc =>
    obtain ⟨hb, rfl⟩ := acceptIf_ok h
    obtain rfl := eq_of_beq hb
    cases c <;> exact ⟨rfl, beq_iff_eq.2 hc, rfl⟩
  next hc =>
    obtain ⟨hb, rfl⟩ := acceptIf_ok h
    exact ⟨rfl, beq_iff_eq.2 hc, congrArg _ (eq_of_beq hb).symm⟩
  next hc => cases h; exact ⟨rfl, beq_iff_eq.2 hc, rfl⟩

theorem decodeScan_readsBack (x : DecodeCtx) (b : Byte) : ReadsBack x (.scan b) (decodeScan x b) := by
  have terminal (h : x.stage = .awaitingContinuation ∨ x.cfg.extPrefix.contains b = false) :
      ReadsBack x (.scan b) (decodeScan x b) := by
    rw [decodeScan_terminal h]
    refine ⟨rfl, ?_, congrArg _ (scanByte_of b)⟩
    rw [readableIn, scanByte_of]
    simpa using h
  cases hs : x.stage with
  | awaitingContinuation => exact terminal (.inl hs)
  | idle =>
    cases hb : x.cfg.extPrefix.contains b with
    | false => exact terminal (.inr hb)
    | true => rw [decodeScan_scanPrefix hs hb]; exact ⟨hb, beq_iff_eq.2 hs, rfl⟩

/-- Settles O4: by the unit's place; an operation word by its class and sub-operation. -/
theorem encodeReadsDecode : Obligations.EncodeReadsDecode := by
  intro x u i h
  cases u with
  | opWord w => exact decodeWord_readsBack h
  | command c b => exact decodeCommand_readsBack h
  | data c b => exact decodeData_readsBack h
  | scan b => cases h; exact decodeScan_readsBack x b

end Sys2Proof
end

section
/-! PROOFS. The illegal words (R99): each piece of the word decoder rejects exactly what the rule lists for it, and every
rejection of a word is `stop(R_ENC)` (R322). -/

namespace Sys2Proof.Machine

open Sys2Proof

variable {w : Word}

/-! ## The rule's bit ranges are the decoder's fields (R92, R93, R94) -/

theorem extractLsb_class (w : Word) : w.extractLsb 31 28 = fieldK w := rfl
theorem extractLsb_sub (w : Word) : w.extractLsb 27 24 = fieldSub w := rfl
theorem extractLsb_mbz (w : Word) : w.extractLsb 23 16 = fieldMbz w := rfl
theorem extractLsb_a2 (w : Word) : w.extractLsb 15 8 = fieldA2 w := rfl
theorem extractLsb_low (w : Word) : w.extractLsb 7 0 = fieldLow w := rfl
theorem extractLsb_data (w : Word) : w.extractLsb 15 0 = fieldData w := rfl

/-- R97: `a2[7:1]`. -/
theorem fieldA2_high (w : Word) : (fieldA2 w).extractLsb' 1 7 = w.extractLsb 15 9 := by
  ext i hi
  have h : 1 + i < 8 := by omega
  simp [fieldA2, h, ← Nat.add_assoc]

/-! ## Classes and sub-operations the decoder's tables do not list (R91, R95, R96, R97) -/

theorem class_unlisted {k : BitVec 4} (h1 : k ≠ 1#4) (h2 : k ≠ 2#4) (h3 : k ≠ 3#4) (h4 : k ≠ 4#4) (h5 : k ≠ 5#4)
    (h6 : k ≠ 6#4) (h7 : k ≠ 7#4) (h8 : k ≠ 8#4) (h9 : k ≠ 9#4) : k = 0x0#4 ∨ 0xA ≤ k.toNat := by
  bv_omega

theorem device_unlisted {sub : BitVec 4} (h0 : sub ≠ 0#4) (h1 : sub ≠ 1#4) : 1 < sub.toNat := by
  bv_omega

theorem sub_unlisted {sub : BitVec 4} (h0 : sub ≠ 0#4) (h1 : sub ≠ 1#4) (h2 : sub ≠ 2#4) (h3 : sub ≠ 3#4)
    (h4 : sub ≠ 4#4) (h5 : sub ≠ 5#4) (h6 : sub ≠ 6#4) (h7 : sub ≠ 7#4) : 7 < sub.toNat := by
  bv_omega

/-! ## What each piece rejects -/

@[simp] theorem acceptIf_rejects {ok : Bool} {r : Reject} {i : Instr} :
    (∃ r', acceptIf ok r i = .error r') ↔ ok = false := by
  cases ok <;> simp [acceptIf]

@[simp] theorem sNone_rejects {i : Instr} :
    (∃ r, sNone w i = .error r) ↔ fieldMbz w ≠ 0#8 ∨ fieldA2 w ≠ 0#8 ∨ fieldLow w ≠ 0#8 := by
  simp [sNone, imp_iff_not_or, or_assoc]

@[simp] theorem sOne_rejects {f : Byte → Instr} :
    (∃ r, sOne w f = .error r) ↔ fieldMbz w ≠ 0#8 ∨ fieldA2 w ≠ 0#8 := by
  simp [sOne, imp_iff_not_or]

/-- R95: `a1[7:4]` is 0 for a line of 0 to 15 only. -/
theorem highNibble_eq_zero_iff (b : Byte) : b.extractLsb' 4 4 = 0#4 ↔ b.toNat ≤ 15 := by
  revert b; decide

@[simp] theorem decodeIrq_rejects :
    (∃ r, decodeIrq w = .error r) ↔ fieldMbz w ≠ 0#8 ∨ fieldA2 w ≠ 0#8 ∨ 15 < (fieldLow w).toNat := by
  simp [decodeIrq, highNibble_eq_zero_iff, imp_iff_not_or, or_assoc]

@[simp] theorem decodeProcess_rejects :
    (∃ r, decodeProcess w = .error r) ↔ fieldMbz w ≠ 0#8 ∨ w.extractLsb 15 9 ≠ 0#7 := by
  simp [decodeProcess, fieldA2_high, imp_iff_not_or]

@[simp] theorem decodeExc_rejects :
    (∃ r, decodeExc w = .error r) ↔ fieldMbz w ≠ 0#8 ∨ fieldA2 w ≠ 0#8 ∧ fieldLow w ≠ 8#8 := by
  unfold decodeExc
  split
  next h => simp [eq_of_beq h, excCodeOk, Config.vecDf, and_comm]
  next h =>
    have hmbz : fieldMbz w ≠ 0#8 := by simpa using h
    simp [hmbz]

/-- R96: "3 to 255 illegal". -/
theorem resourceOfByte_eq_none_iff (b : Byte) : resourceOfByte b = none ↔ 2 < b.toNat := by
  revert b; decide

@[simp] theorem withResource_rejects {b : Byte} {f : Resource → Instr} :
    (∃ r, withResource b f = .error r) ↔ 2 < b.toNat := by
  rw [← resourceOfByte_eq_none_iff, withResource]
  cases resourceOfByte b <;> simp

@[simp] theorem decodeLock_rejects {f : Resource → Instr} :
    (∃ r, decodeLock w f = .error r) ↔ fieldMbz w ≠ 0#8 ∨ fieldA2 w ≠ 0#8 ∨ 2 < (fieldLow w).toNat := by
  unfold decodeLock
  split
  next h =>
    simp only [Bool.and_eq_true, beq_iff_eq] at h
    simp [h]
  next h =>
    simp only [Bool.and_eq_true, beq_iff_eq, not_and_or] at h
    simp [← or_assoc, h]

theorem decodeDevice_rejects (hk : fieldK w = 0x7#4) : (∃ r, decodeDevice w = .error r) ↔ illegalWord w := by
  simp only [illegalWord, extractLsb_class, extractLsb_sub, extractLsb_mbz, extractLsb_a2, extractLsb_low, hk]
  unfold decodeDevice
  split
  next hs => simp [hs]
  next hs => simp [hs]
  next h0 h1 =>
    have hs := device_unlisted h0 h1
    simp [hs]

theorem decodeCpu_rejects (hk : fieldK w = 0x8#4) : (∃ r, decodeCpu w = .error r) ↔ illegalWord w := by
  simp only [illegalWord, extractLsb_class, extractLsb_sub, extractLsb_mbz, extractLsb_a2, extractLsb_low, hk]
  unfold decodeCpu
  split
  iterate 8 next hs => simp [hs]
  next h0 h1 h2 h3 h4 h5 h6 h7 =>
    have hs := sub_unlisted h0 h1 h2 h3 h4 h5 h6 h7
    simp [hs]

theorem decodeContract_rejects (hk : fieldK w = 0x9#4) : (∃ r, decodeContract w = .error r) ↔ illegalWord w := by
  simp only [illegalWord, extractLsb_class, extractLsb_sub, extractLsb_mbz, extractLsb_a2, extractLsb_low, hk]
  unfold decodeContract
  split
  iterate 8 next hs => simp [hs]
  next h0 h1 h2 h3 h4 h5 h6 h7 =>
    have hs := sub_unlisted h0 h1 h2 h3 h4 h5 h6 h7
    simp [hs]

/-- R99: the illegal words are those the rule lists. -/
theorem decodeWord_rejects (w : Word) : (∃ r, decodeWord w = .error r) ↔ illegalWord w := by
  unfold decodeWord
  split
  next hk => simp [decodeIow, illegalWord, extractLsb_class, extractLsb_sub, hk]
  next hk => simp [decodeIor, illegalWord, extractLsb_class, extractLsb_sub, extractLsb_low, hk, imp_iff_not_or]
  next hk => simp [illegalWord, extractLsb_class, hk]
  next hk => simp [decodeMr16, illegalWord, extractLsb_class, extractLsb_data, hk]
  next hk => simp [decodeMw8, illegalWord, extractLsb_class, extractLsb_a2, hk]
  next hk => simp [decodeMr8, illegalWord, extractLsb_class, extractLsb_data, hk]
  next hk => exact decodeDevice_rejects hk
  next hk => exact decodeCpu_rejects hk
  next hk => exact decodeContract_rejects hk
  next h1 h2 h3 h4 h5 h6 h7 h8 h9 =>
    exact iff_of_true ⟨_, rfl⟩ ((class_unlisted h1 h2 h3 h4 h5 h6 h7 h8 h9).imp id .inl)

/-! ## What a rejection of a word does -/

/-- Every rejection `e` can answer is the one R99 names, `stop(R_ENC)`. -/
def RejectsAsREnc (e : Except Reject Instr) : Prop := ∀ r, e = .error r → Reject.stop r = .rEnc

theorem RejectsAsREnc.ok (i : Instr) : RejectsAsREnc (.ok i) := fun _ h => nomatch h

theorem RejectsAsREnc.error {r : Reject} (hr : Reject.stop r = .rEnc) : RejectsAsREnc (.error r) := fun _ h => by
  cases h; exact hr

theorem acceptIf_rEnc {ok : Bool} {r : Reject} {i : Instr} (hr : Reject.stop r = .rEnc) :
    RejectsAsREnc (acceptIf ok r i) := by
  cases ok
  · exact .error hr
  · exact .ok i

theorem decodeExc_rEnc (w : Word) : RejectsAsREnc (decodeExc w) := by
  unfold decodeExc
  split
  · exact acceptIf_rEnc rfl
  · exact .error rfl

theorem decodeLock_rEnc (w : Word) (f : Resource → Instr) : RejectsAsREnc (decodeLock w f) := by
  unfold decodeLock withResource
  split
  · split
    · exact .ok _
    · exact .error rfl
  · exact .error rfl

theorem decodeDevice_rEnc (w : Word) : RejectsAsREnc (decodeDevice w) := by
  unfold decodeDevice
  split
  iterate 2 next => exact acceptIf_rEnc rfl
  next => exact .error rfl

theorem decodeCpu_rEnc (w : Word) : RejectsAsREnc (decodeCpu w) := by
  unfold decodeCpu
  split
  next => exact decodeExc_rEnc w
  iterate 5 next => exact acceptIf_rEnc rfl
  iterate 2 next => exact decodeLock_rEnc w _
  next => exact .error rfl

theorem decodeContract_rEnc (w : Word) : RejectsAsREnc (decodeContract w) := by
  unfold decodeContract
  split
  iterate 8 next => exact acceptIf_rEnc rfl
  next => exact .error rfl

theorem decodeWord_rEnc (w : Word) : RejectsAsREnc (decodeWord w) := by
  unfold decodeWord
  split
  iterate 2 next => exact acceptIf_rEnc rfl
  next => exact .ok _
  iterate 3 next => exact acceptIf_rEnc rfl
  next => exact decodeDevice_rEnc w
  next => exact decodeCpu_rEnc w
  next => exact decodeContract_rEnc w
  next => exact .error rfl

/-- R14, R99: the step of a running state on a unit that is no instruction. -/
theorem step_of_decode_error {s : State} {u : BusUnit} {rest : List BusUnit} {r : Reject} (hs : s.stop = none)
    (hp : s.prog = u :: rest) (hd : decode s.decodeCtx u = .error r) :
    step s = rejectUnit u r { s with prog := rest, result := none } := by
  rw [step, whenRunning_of_running hs, fetch_of_prog hp]
  simp [hd]

/-- Settles O2: an illegal word is rejected, for one of R99's reasons, and the rejection is the stop. -/
theorem illegalWordStops : Obligations.IllegalWordStops := by
  refine ⟨decodeWord_rejects, fun s w rest hs hp hw => ?_⟩
  obtain ⟨r, hr⟩ := (decodeWord_rejects w).2 hw
  have hstop : Reject.stop r = .rEnc := decodeWord_rEnc w r hr
  rw [step_of_decode_error hs hp hr, rejectUnit, whenRunning_of_running (by exact hs), hstop]
  rfl

end Sys2Proof.Machine
end

section
/-! PROOFS. The vector table (R131 to R133): each meaning of `BUILD` and `ACTIVATE` under its precondition. -/

namespace Sys2Proof.Machine

open Sys2Proof

variable {s t : State}

/-- R131, R132: in mainline `BUILD` asks only whether the table is active. -/
theorem exec_build_of_mainline (hm : s.Mainline) :
    exec .build s = if s.idtActive then .next (s.stopAt .rTableActive)
      else .next { s with ivt := builtTable s.cfg, ivtBuilt := true } :=
  whenMainline_of_mainline hm _

/-- R131: with the table not active `BUILD` constructs the table. -/
theorem exec_build_of_inactive (hm : s.Mainline) (ha : s.idtActive = false) :
    exec .build s = .next { s with ivt := builtTable s.cfg, ivtBuilt := true } := by
  rw [exec_build_of_mainline hm, if_neg (ne_true_of_eq_false ha)]

/-- R132: with the table active `BUILD` stops. -/
theorem exec_build_of_active (hm : s.Mainline) (ha : s.idtActive = true) :
    exec .build s = .next (s.stopAt .rTableActive) := by
  rw [exec_build_of_mainline hm, if_pos ha]

/-- R131, R9: the entries of a state that holds the built table, under parameters that meet the constraints. -/
theorem entry_of_builtTable {cfg : Config} (hv : cfg.valid = true) (ht : t.ivt = builtTable cfg) (v : Byte) :
    t.entry v =
      if v = Config.vecBp then ⟨.breakpoint, none⟩
      else if v = Config.vecDf then ⟨.doubleFault, some cfg.dfStackIndex⟩
      else if v = cfg.vecTimer then ⟨.timer, none⟩
      else if v = cfg.vecKeyboard then ⟨.keyboard, none⟩
      else ⟨.unhandled, none⟩ := by
  obtain ⟨h32, h240, _⟩ := Config.valid_base hv
  simp only [State.entry, ht]
  exact builtTable_entry cfg h32 h240 v

/-- Settles O48: the table that is built, entry by entry, or the stop. -/
theorem buildResult : Obligations.BuildResult := by
  intro s hm hv
  refine ⟨fun ha => ?_, exec_build_of_active hm⟩
  exact ⟨_, exec_build_of_inactive hm ha, rfl, entry_of_builtTable hv rfl⟩

/-- R133: in mainline `ACTIVATE` asks for a built table, then for `IF = 0`. -/
theorem exec_activate_of_mainline (hm : s.Mainline) :
    exec .activate s = if s.ivtBuilt = false then .next (s.stopAt .rNotBuilt)
      else if s.IF then .next (s.stopAt .rBootOrder)
      else .next { s with idtActive := true } :=
  whenMainline_of_mainline hm _

/-- R133: `ACTIVATE` asks first for a built table. -/
theorem exec_activate_of_not_built (hm : s.Mainline) (hb : s.ivtBuilt = false) :
    exec .activate s = .next (s.stopAt .rNotBuilt) := by
  rw [exec_activate_of_mainline hm, if_pos hb]

/-- R133: with a built table `ACTIVATE` asks for `IF = 0`. -/
theorem exec_activate_of_enabled (hm : s.Mainline) (hb : s.ivtBuilt = true) (hIF : s.IF = true) :
    exec .activate s = .next (s.stopAt .rBootOrder) := by
  rw [exec_activate_of_mainline hm, if_neg (ne_false_of_eq_true hb), if_pos hIF]

/-- R133: with both preconditions met `ACTIVATE` makes the table active. -/
theorem exec_activate_of_built (hm : s.Mainline) (hb : s.ivtBuilt = true) (hIF : s.IF = false) :
    exec .activate s = .next { s with idtActive := true } := by
  rw [exec_activate_of_mainline hm, if_neg (ne_false_of_eq_true hb), if_neg (ne_true_of_eq_false hIF)]

/-- Settles O49: by which precondition fails first, if any. -/
theorem activateResult : Obligations.ActivateResult := fun _ hm =>
  ⟨exec_activate_of_not_built hm, exec_activate_of_enabled hm, exec_activate_of_built hm⟩

end Sys2Proof.Machine
end

section
/-! PROOFS. The exception handlers (R150 to R152): what `HRUN` does with one entered, and what the permanent halt leaves
enabled. -/

namespace Sys2Proof.Machine

open Sys2Proof

variable {s t : State} {e : Entered}

/-- R297: with a handler entered, the CPU not halted and every lock the body needs free, `HRUN` runs the body. -/
theorem exec_hrun_of_entered (hs : s.stop = none) (he : s.cpu.handler = some e) (hh : s.cpu.halted = false)
    (hl : heldLock s (needs e.handler s) = none) : exec .hrun s = runBody e s := by
  rw [exec, execHrun, whenRunning_of_running hs]
  simp only [he, hh, hl, Bool.false_eq_true, ↓reduceIte]

/-- R151, R297: the breakpoint body needs no lock. -/
theorem exec_hrun_of_breakpoint (hs : s.stop = none) (he : s.cpu.handler = some e) (hh : s.cpu.halted = false)
    (hb : e.handler = .breakpoint) : exec .hrun s = .next (breakpointBody e s) := by
  rw [exec_hrun_of_entered hs he hh (by rw [hb]; rfl), runBody, hb]

/-- R152, R297: the double-fault body needs no lock. -/
theorem exec_hrun_of_doubleFault (hs : s.stop = none) (he : s.cpu.handler = some e) (hh : s.cpu.halted = false)
    (hd : e.handler = .doubleFault) : exec .hrun s = .next (doubleFaultBody e s) := by
  rw [exec_hrun_of_entered hs he hh (by rw [hd]; rfl), runBody, hd]

/-- R151, R333: the breakpoint body returns to the entry it came from, its report the one other change. -/
theorem breakpointBody_of_entered (he : s.cpu.handler = some e) :
    breakpointBody e s = (s.pushDiag (.breakpointReport e.frame)).setCpu (restoredCpu s e) :=
  trapReturn_of_entered (s := s.pushDiag _) he

/-- Settles O37: no lock to wait for, then one report and the return. -/
theorem hrunBreakpoint : Obligations.HrunBreakpoint := fun _ _ hs he hh hb =>
  (exec_hrun_of_breakpoint hs he hh hb).trans (congrArg _ (breakpointBody_of_entered he))

/-- R286, R296, R297: each CPU operation asks that the CPU is not halted, so only device events happen after the halt. -/
theorem deviceEvent_of_halted {i : Instr} (hh : s.cpu.halted = true) (h : exec i s = .next t) : deviceEvent i := by
  have hn : s.cpu.halted ≠ false := by simp [hh]
  cases i
  case irq n => exact .inl ⟨n, rfl⟩
  case key b => exact .inr ⟨b, rfl⟩
  case inta =>
    obtain ⟨_, hrun, _⟩ := execInta_next h
    exact absurd hrun hn
  case hrun =>
    obtain ⟨_, hrun, _⟩ := execHrun_next h
    exact absurd hrun hn
  all_goals
    obtain ⟨_, _, hrun, _⟩ := mainline_of_exec rfl h
    exact absurd hrun hn

/-- R37, R177, R203: a device event reports nothing. -/
theorem deviceEvent_diag {i : Instr} (hi : deviceEvent i) (h : exec i s = .next t) : t.diag = s.diag := by
  obtain ⟨n, rfl⟩ | ⟨b, rfl⟩ := hi
  · obtain ⟨_, ⟨_, rfl⟩ | ⟨_, _, rfl⟩⟩ := execIrq_next h
    · rfl
    · exact (request_same ..).1.diag
  · obtain ⟨_, _, rfl⟩ := execKey_next h
    exact (request_same ..).1.diag

/-- Settles O39: the body as it stands; after it every CPU operation's condition on the halt fails. -/
theorem hrunDoubleFault : Obligations.HrunDoubleFault := by
  refine ⟨fun s e hs he hh hd => exec_hrun_of_doubleFault hs he hh hd, fun i s t hh h => ?_⟩
  have hi := deviceEvent_of_halted hh h
  exact ⟨hi, deviceEvent_cpu hi h, deviceEvent_diag hi h⟩

end Sys2Proof.Machine
end

section
/-! PROOFS. Which lines are in service (R181, R190, R382): what each kind of step does to the two in-service registers. -/

namespace Sys2Proof.Machine

open Sys2Proof

variable {s t : State}

/-! ## The invariant, and states it holds of for one reason -/

theorem serviceOf_of_noneInService (h : noneInService s) (d : HandlerId) : serviceOf s d := by
  cases d with
  | timer => exact .inl h
  | keyboard => exact .inl h
  | unhandled => exact h
  | breakpoint => exact h
  | doubleFault => exact h

/-- Nothing in service is admitted whatever handler is entered. -/
theorem serviceInv_of_noneInService (h : noneInService s) : ServiceInv s := by
  intro _
  cases s.cpu.handler with
  | none => exact h
  | some e => exact serviceOf_of_noneInService h e.handler

theorem serviceInv_stopAt (s : State) (r : StopReason) : ServiceInv (s.stopAt r) := fun h => nomatch h

theorem ServiceInv.noneInService (hi : ServiceInv s) (hs : s.stop = none) (hn : s.cpu.handler = none) :
    noneInService s := by
  have h := hi hs
  rwa [hn] at h

theorem ServiceInv.serviceOf (hi : ServiceInv s) (hs : s.stop = none) {e : Entered} (he : s.cpu.handler = some e) :
    serviceOf s e.handler := by
  have h := hi hs
  rwa [he] at h

/-! ## What the terms read of a controller -/

/-- The registers of a controller that say what it has in service and under which vectors. -/
def Pic.service (p : Pic) : InitStep × Byte × Byte := (p.init, p.isr, p.offset)

theorem noneInService_congr (h : ∀ c, (t.pic c).service = (s.pic c).service) (hs : noneInService s) :
    noneInService t := by
  intro c
  obtain ⟨hinit, hisr, _⟩ : _ ∧ _ ∧ _ := by simpa [Pic.service] using h c
  rw [hinit, hisr]
  exact hs c

theorem onlyInService_congr {v : Byte} (h : ∀ c, (t.pic c).service = (s.pic c).service) (hc : t.cfg = s.cfg)
    (hs : onlyInService s v) : onlyInService t v := by
  obtain ⟨_, hmi, hmo⟩ : _ ∧ t.master.isr = s.master.isr ∧ t.master.offset = s.master.offset := by
    simpa [Pic.service] using h .master
  obtain ⟨_, hsi, hso⟩ : _ ∧ t.slave.isr = s.slave.isr ∧ t.slave.offset = s.slave.offset := by
    simpa [Pic.service] using h .slave
  unfold onlyInService
  rw [hmi, hmo, hsi, hso, hc]
  exact hs.imp_left (noneInService_congr h)

theorem serviceOf_congr (h : ∀ c, (t.pic c).service = (s.pic c).service) (hc : t.cfg = s.cfg) {d : HandlerId}
    (hs : serviceOf s d) : serviceOf t d := by
  cases d with
  | timer => rw [serviceOf, hc]; exact onlyInService_congr h hc hs
  | keyboard => rw [serviceOf, hc]; exact onlyInService_congr h hc hs
  | unhandled => exact noneInService_congr h hs
  | breakpoint => exact noneInService_congr h hs
  | doubleFault => exact noneInService_congr h hs

theorem ServiceInv.congr (hi : ServiceInv s) (h : ∀ c, (t.pic c).service = (s.pic c).service) (hc : t.cfg = s.cfg)
    (hcpu : t.cpu = s.cpu) (hstop : t.stop = s.stop) : ServiceInv t := by
  intro hs
  rw [hstop] at hs
  rw [hcpu]
  cases hh : s.cpu.handler with
  | none => exact noneInService_congr h (hi.noneInService hs hh)
  | some e => exact serviceOf_congr h hc (hi.serviceOf hs hh)

/-! ## Mainline operations move the controllers by bytes alone -/

theorem memWrite2_pic (a : Nat) (v : Half) (s : State) (c : Ctrl) : (memWrite2 s a v).pic c = s.pic c := by
  unfold memWrite2
  split <;> rfl

theorem memWrite1_pic (a : Nat) (b : Byte) (s : State) (c : Ctrl) : (memWrite1 s a b).pic c = s.pic c := by
  unfold memWrite1
  split <;> rfl

theorem kbdRead_pic (s : State) (c : Ctrl) : (kbdRead s).pic c = s.pic c := by
  rw [kbdRead_eq]
  cases c <;> rfl

theorem portRead_pic (p : Half) (s : State) (c : Ctrl) : (returnByte (portRead p s)).pic c = s.pic c := by
  rcases portRead_cases p s with h | ⟨_, h⟩ | ⟨_, h⟩ <;> rw [h]
  · exact kbdRead_pic s c
  · rfl
  · rfl

theorem trapEntry_pic (v : Byte) (code : Option XWord) (s : State) (c : Ctrl) : (trapEntry v code s).pic c = s.pic c := by
  rcases trapEntry_frame v code s with ⟨_, h⟩ | ⟨_, h⟩ <;> rw [h] <;> simp

theorem trapReturn_pic (s : State) (c : Ctrl) : (trapReturn s).pic c = s.pic c := by
  unfold trapReturn
  split <;> simp

theorem setTable_pic (table : Vector Entry 256) (s : State) (c : Ctrl) :
    State.pic { s with ivt := table, ivtBuilt := true } c = s.pic c := by
  cases c <;> rfl

theorem SameButScreen.pic (h : SameButScreen s t) (c : Ctrl) : t.pic c = s.pic c := State.pic_congr h.master h.slave c

theorem PicMoves.of_eq {cfg : Config} {c : Ctrl} {p q : Pic} (h : q = p) : PicMoves cfg c p q := by
  rw [h]
  exact .refl p

/-- R286: an operation of mainline does to a controller what bytes written to it can do, and nothing else. -/
theorem exec_moves {i : Instr} (hi : mainlineOp i = true) (h : exec i s = .next t) (c : Ctrl) :
    PicMoves s.cfg c (s.pic c) (t.pic c) := by
  cases i with
  | irq | key | inta | hrun => cases hi
  | iow => obtain ⟨_, rfl⟩ := execIow_next h; exact (portWrite_effect ..).moves c
  | ior => obtain ⟨_, rfl⟩ := execIor_next h; exact .of_eq (portRead_pic ..)
  | mw16 => obtain ⟨_, rfl⟩ := execMw16_next h; exact .of_eq (memWrite2_pic ..)
  | mr16 => obtain ⟨_, ⟨_, _, rfl⟩ | ⟨_, rfl⟩⟩ := execMr16_next h <;> exact .refl _
  | mw8 => obtain ⟨_, rfl⟩ := execMw8_next h; exact .of_eq (memWrite1_pic ..)
  | mr8 => obtain ⟨_, ⟨_, _, rfl⟩ | ⟨_, rfl⟩⟩ := execMr8_next h <;> exact .refl _
  | exc => obtain ⟨_, rfl⟩ := execExc_next h; exact .of_eq (trapEntry_pic ..)
  | cli => obtain ⟨_, rfl⟩ := execCli_next h; exact .refl _
  | sti => obtain ⟨_, ⟨_, _, _, rfl⟩ | ⟨_, rfl⟩⟩ := execSti_next h <;> exact .refl _
  | hlt => obtain ⟨_, rfl⟩ := execHlt_next h; exact .refl _
  | lock => obtain ⟨_, _, rfl⟩ := execLock_next h; exact .of_eq (State.setLock_pic ..)
  | unlock =>
    obtain ⟨_, ⟨_, rfl⟩ | ⟨_, rfl⟩⟩ := execUnlock_next h
    · exact .of_eq (State.setLock_pic ..)
    · exact .refl _
  | build =>
    obtain ⟨_, ⟨_, rfl⟩ | ⟨_, rfl⟩⟩ := execBuild_next h
    · exact .refl _
    · exact .of_eq (setTable_pic ..)
  | activate => obtain ⟨_, ⟨_, rfl⟩ | ⟨_, _, rfl⟩ | ⟨_, _, rfl⟩⟩ := execActivate_next h <;> exact .refl _
  | picinit =>
    obtain ⟨_, _, ⟨_, rfl⟩ | ⟨_, rfl⟩⟩ := execPicinit_next h
    · exact portWrites_moves ..
    · exact .refl _
  | ack => obtain ⟨_, _, rfl⟩ := execAck_next h; exact ack_moves ..
  | wrbyte => obtain ⟨_, _, rfl⟩ := execWrbyte_next h; exact .of_eq ((writeByte_sameButScreen ..).pic c)
  | scroll => obtain ⟨_, _, rfl⟩ := execScroll_next h; exact .of_eq ((scroll_sameButScreen s).pic c)
  | addbyte => obtain ⟨_, _, rfl⟩ := execAddbyte_next h; exact .refl _
  | process => obtain ⟨_, _, ⟨_, rfl⟩ | ⟨_, rfl⟩⟩ := execProcess_next h <;> exact .refl _
  | icw1 => obtain ⟨_, rfl⟩ := execIcw1_next h; exact (picIcw1_effect ..).moves c
  | icw2 => obtain ⟨_, rfl⟩ := execIcw2_next h; exact (writeData_effect ..).moves c
  | icw3Master => obtain ⟨_, rfl⟩ := execIcw3Master_next h; exact (writeData_effect ..).moves c
  | icw3Slave => obtain ⟨_, rfl⟩ := execIcw3Slave_next h; exact (writeData_effect ..).moves c
  | icw4 => obtain ⟨_, rfl⟩ := execIcw4_next h; exact (writeData_effect ..).moves c
  | eoi => obtain ⟨_, rfl⟩ := execEoi_next h; exact (picEoi_effect ..).moves c
  | ocw1 => obtain ⟨_, rfl⟩ := execOcw1_next h; exact (writeData_effect ..).moves c
  | scanPrefix => obtain ⟨_, _, rfl⟩ := execScanPrefix_next h; exact .refl _
  | scanKey => obtain ⟨_, _, rfl⟩ := execScanKey_next h; exact .refl _

theorem noneInService_moves (hs : noneInService s) (h : ∀ c, PicMoves s.cfg c (s.pic c) (t.pic c)) : noneInService t :=
  fun c => (h c).keep (P := NoService) (fun _ _ => PicMove.noService) (hs c)

/-- R382: from mainline with nothing in service a mainline operation puts nothing in service, `EXC` included (R295). -/
theorem exec_mainline_serviceInv {i : Instr} (hm : mainlineOp i = true) (hi : ServiceInv s) (h : exec i s = .next t) :
    ServiceInv t := by
  obtain ⟨hs, hn, _⟩ := mainline_of_exec hm h
  exact serviceInv_of_noneInService (noneInService_moves (hi.noneInService hs hn) (exec_moves hm h))

/-! ## Device events -/

/-- R177: a request changes the request register alone. -/
theorem request_serviceInv (c : Ctrl) (i : Fin 8) (hi : ServiceInv s) : ServiceInv (request c i s) := by
  obtain ⟨hsame, _, hstop⟩ := request_same c i s
  refine hi.congr (fun d => ?_) hsame.cfg hsame.cpu hstop
  unfold request
  split
  · rw [State.setPic_pic]
    split
    · rename_i hd
      rw [hd]
      rfl
    · rfl
  · rfl

theorem execIrq_serviceInv {n : Fin 16} (hi : ServiceInv s) (h : execIrq n s = .next t) : ServiceInv t := by
  obtain ⟨_, ⟨_, rfl⟩ | ⟨_, _, rfl⟩⟩ := execIrq_next h
  · exact serviceInv_stopAt _ _
  · exact request_serviceInv _ _ hi

theorem execKey_serviceInv {b : Byte} (hi : ServiceInv s) (h : execKey b s = .next t) : ServiceInv t := by
  obtain ⟨_, _, rfl⟩ := execKey_next h
  exact request_serviceInv _ _ (hi.congr (fun _ => by rw [State.setObuf_pic]) rfl rfl rfl)

/-! ## The vectors of a controller -/

/-- R172: an admitted offset, said by its number. -/
theorem offsetOk_iff (b : Byte) : offsetOk b = true ↔ b.toNat % 8 = 0 ∧ 32 ≤ b.toNat := by
  have h : b.extractLsb' 0 3 = 0#3 ↔ b.toNat % 8 = 0 := by
    rw [← BitVec.toNat_inj, BitVec.extractLsb'_toNat]
    simp
  simp [offsetOk, h]

/-- R162: the vector of a line of a controller with an admitted offset does not wrap. -/
theorem lineVector_toNat {o : Byte} (h : offsetOk o = true) (i : Fin 8) : (lineVector o i).toNat = o.toNat + i.val := by
  obtain ⟨hmod, _⟩ := (offsetOk_iff o).1 h
  simp only [lineVector, BitVec.toNat_add, BitVec.toNat_ofNat]
  omega

/-- R190: it is one of the eight vectors of its controller. -/
theorem vectorOf_lineVector {o : Byte} (h : offsetOk o = true) (i : Fin 8) : vectorOf o (lineVector o i) := by
  rw [vectorOf, lineVector_toNat h]
  omega

/-- R9(a): it is no exception's vector. -/
theorem lineVector_ge {o : Byte} (h : offsetOk o = true) (i : Fin 8) : 32 ≤ (lineVector o i).toNat := by
  have := (offsetOk_iff o).1 h
  rw [lineVector_toNat h]
  omega

theorem MachineInv.offsetOk_of_ready (hi : MachineInv s) {c : Ctrl} (h : (s.pic c).init = .ready) :
    offsetOk (s.pic c).offset = true :=
  hi.offsets c (by simp [h]) (by simp [h])

/-! ## Acceptance (R181) -/

theorem setBit_zero_eq_bit8 (i : Fin 8) : setBit 0#8 i.val true = bit8 i := BitVec.zero_or

theorem noneInService_ready {c : Ctrl} (h : noneInService s) (hr : (s.pic c).init = .ready) : (s.pic c).isr = 0#8 :=
  h c (by simp [hr])

/-- R181: an acceptance with nothing in service puts just the line accepted in service, under a device vector. -/
theorem accept_onlyInService {v : Byte} (hi : MachineInv s) (hb : booted s) (hn : noneInService s)
    (h : accept s = some (t, v)) : onlyInService t v ∧ 32 ≤ v.toNat := by
  obtain ⟨_, hm, hsl⟩ := hb
  have hm0 : s.master.isr = 0#8 := noneInService_ready (c := .master) hn hm
  have hs0 : s.slave.isr = 0#8 := noneInService_ready (c := .slave) hn hsl
  rcases accept_cases h with ⟨p, _, hp, rfl, rfl⟩ | ⟨ps, _, _, rfl, rfl⟩
  · refine ⟨.inr (.inl ⟨p, hp, ?_, hs0, rfl⟩), lineVector_ge (hi.offsetOk_of_ready (c := .master) hm) p⟩
    simp [takeLine, hm0, setBit_zero_eq_bit8]
  · refine ⟨.inr (.inr ⟨ps, ?_, ?_, rfl⟩), lineVector_ge (hi.offsetOk_of_ready (c := .slave) hsl) ps⟩
    · simp [takeLine, takeCascade, hm0, setBit_zero_eq_bit8]
    · simp [takeLine, takeCascade, hs0, setBit_zero_eq_bit8]

/-- R131: an entry through the built table with a device vector enters that device's handler, or stops. -/
theorem trapEntry_serviceInv {v : Byte} {code : Option XWord} (hv : s.cfg.valid = true)
    (ht : s.ivt = builtTable s.cfg) (h32 : 32 ≤ v.toNat) (ho : onlyInService s v) : ServiceInv (trapEntry v code s) := by
  rcases trapEntry_cases v code s with ⟨_, h⟩ | ⟨_, _, h⟩ | ⟨_, _, _, _, h⟩ | ⟨_, hu, _, h⟩ <;> rw [h]
  · exact serviceInv_stopAt _ _
  · exact serviceInv_stopAt _ _
  · exact serviceInv_stopAt _ _
  · rw [entry_of_builtTable hv ht] at hu ⊢
    rw [if_neg (by rintro rfl; simp [Config.vecBp] at h32), if_neg (by rintro rfl; simp [Config.vecDf] at h32)] at hu ⊢
    intro _
    split at hu
    · rename_i htimer
      rw [if_pos htimer]
      exact (htimer ▸ ho : onlyInService s s.cfg.vecTimer)
    · split at hu
      · rename_i htimer hkey
        rw [if_neg htimer, if_pos hkey]
        exact (hkey ▸ ho : onlyInService s s.cfg.vecKeyboard)
      · exact absurd rfl hu

/-- R291: `IF` is 1 only once booted, so both controllers are `Ready` with nothing in service, and the table is built. -/
theorem execInta_serviceInv (hv : s.cfg.valid = true) (hi : MachineInv s) (hsv : ServiceInv s)
    (h : execInta s = .next t) : ServiceInv t := by
  obtain ⟨hs, _, hn, hIF, u, v, hu, rfl⟩ := execInta_next h
  have hb : booted s := hi.enabledBooted hIF
  obtain ⟨honly, h32⟩ := accept_onlyInService hi hb (hsv.noneInService hs hn) hu
  have hsame : SameButPic s u := (accept_same hu).1
  refine trapEntry_serviceInv (by rw [hsame.cfg]; exact hv) ?_ h32 honly
  rw [hsame.ivt, hsame.cfg]
  exact hi.table (hi.activeBuilt hb.1)

/-! ## The handler bodies -/

theorem acked_master_isr (s : State) (v : Byte) :
    (acked s v).master.isr =
      if vectorOf s.slave.offset v ∨ vectorOf s.master.offset v then eoiIsr s.master.isr else s.master.isr :=
  apply_ite Pic.isr ..

theorem acked_slave_isr (s : State) (v : Byte) :
    (acked s v).slave.isr = if vectorOf s.slave.offset v then eoiIsr s.slave.isr else s.slave.isr :=
  apply_ite Pic.isr ..

/-- R176, R190: the acknowledgment of the line in service takes it out of service, and its cascade with it. -/
theorem acked_noneInService {v : Byte} (ho : ∀ c, offsetOk (s.pic c).offset = true) (hm : s.master.init = .ready)
    (hsl : s.slave.init = .ready) (h : onlyInService s v) : noneInService (acked s v) := by
  suffices hz : (acked s v).master.isr = 0#8 ∧ (acked s v).slave.isr = 0#8 by
    intro c _
    cases c with
    | master => exact hz.1
    | slave => exact hz.2
  rw [acked_master_isr, acked_slave_isr]
  rcases h with hn | ⟨i, _, hmi, hsi, rfl⟩ | ⟨i, hmi, hsi, rfl⟩
  · have hm0 : s.master.isr = 0#8 := noneInService_ready (c := .master) hn hm
    have hs0 : s.slave.isr = 0#8 := noneInService_ready (c := .slave) hn hsl
    simp [hm0, hs0, eoiIsr_zero]
  · have hv : vectorOf s.master.offset (lineVector s.master.offset i) := vectorOf_lineVector (ho .master) i
    rw [if_pos (.inr hv), hmi, eoiIsr_bit8, hsi, eoiIsr_zero, ite_self]
    exact ⟨rfl, rfl⟩
  · have hv : vectorOf s.slave.offset (lineVector s.slave.offset i) := vectorOf_lineVector (ho .slave) i
    rw [if_pos (.inl hv), if_pos hv, hmi, hsi, eoiIsr_bit8, eoiIsr_bit8]
    exact ⟨rfl, rfl⟩

/-- R200, R201, R327: a body's end: the acknowledgment, then the return, which happens only with nothing left in service. -/
theorem ackReturn_serviceInv {v : Byte} (hv : s.cfg.valid = true) (hi : MachineInv s) (hs : s.stop = none)
    (h : onlyInService s v) : ServiceInv ((ackVector v s).andThen trapReturn) := by
  by_cases hr : s.master.init = .ready ∧ s.slave.init = .ready
  · obtain ⟨hm, hsl⟩ := hr
    have ho : ∀ c, offsetOk (s.pic c).offset = true := fun c => by
      cases c with
      | master => exact hi.offsetOk_of_ready (c := .master) hm
      | slave => exact hi.offsetOk_of_ready (c := .slave) hsl
    rw [ackVector_of_ready v hs hv hm hsl, State.andThen_of_running (by exact hs)]
    exact serviceInv_of_noneInService
      (noneInService_congr (fun c => by rw [trapReturn_pic]) (acked_noneInService ho hm hsl h))
  · rw [ackVector_of_not_ready v hr, State.andThen_of_stopped rfl]
    exact serviceInv_stopAt _ _

theorem breakpointBody_serviceInv (e : Entered) (h : noneInService s) : ServiceInv (breakpointBody e s) :=
  serviceInv_of_noneInService (noneInService_congr (fun c => by rw [breakpointBody, trapReturn_pic, State.pushDiag_pic]) h)

theorem doubleFaultBody_serviceInv (e : Entered) (h : noneInService s) : ServiceInv (doubleFaultBody e s) :=
  serviceInv_of_noneInService (noneInService_congr (fun c => by cases c <;> rfl) h)

theorem timerBody_serviceInv (hv : s.cfg.valid = true) (hi : MachineInv s) (hs : s.stop = none)
    (h : onlyInService s s.cfg.vecTimer) : ServiceInv (timerBody s) := by
  have hw : SameButScreen s (writeByte s.cfg.heartbeat s) := writeByte_sameButScreen ..
  exact ackReturn_serviceInv (by rw [hw.cfg]; exact hv) (hi.writeByte _) (hw.stop.trans hs)
    (onlyInService_congr (fun c => by rw [hw.pic]) hw.cfg h)

theorem keyboardOutput_keeps (s : State) : StepKeeps s (keyboardOutput s) :=
  ((kbdRead_keeps s).trans (setDec_keeps ..)).trans (writeBytes_keeps ..)

theorem keyboardBody_serviceInv (hv : s.cfg.valid = true) (hi : MachineInv s) (hs : s.stop = none)
    (h : onlyInService s s.cfg.vecKeyboard) : ServiceInv (keyboardBody s) := by
  have hw := keyboardOutput_eq s
  exact ackReturn_serviceInv (by rw [hw.cfg]; exact hv) ((keyboardOutput_keeps s).inv hv hi) (hw.stop.trans hs)
    (onlyInService_congr (fun c => by rw [hw.pic]) hw.cfg h)

theorem execHrun_serviceInv (hv : s.cfg.valid = true) (hi : MachineInv s) (hsv : ServiceInv s)
    (h : execHrun s = .next t) : ServiceInv t := by
  obtain ⟨hs, _, e, he, _, hbody⟩ := execHrun_next h
  have hse := hsv.serviceOf hs he
  rcases hbody with ⟨hd, rfl⟩ | ⟨hd, rfl⟩ | ⟨hd, rfl⟩ | ⟨hd, rfl⟩ <;> rw [hd] at hse
  · exact breakpointBody_serviceInv e hse
  · exact doubleFaultBody_serviceInv e hse
  · exact timerBody_serviceInv hv hi hs hse
  · exact keyboardBody_serviceInv hv hi hs hse

/-! ## The step -/

theorem exec_serviceInv {i : Instr} (hv : s.cfg.valid = true) (hi : MachineInv s) (hsv : ServiceInv s)
    (h : exec i s = .next t) : ServiceInv t := by
  cases i
  case irq => exact execIrq_serviceInv hsv h
  case key => exact execKey_serviceInv hsv h
  case inta => exact execInta_serviceInv hv hi hsv h
  case hrun => exact execHrun_serviceInv hv hi hsv h
  all_goals exact exec_mainline_serviceInv rfl hsv h

/-- A unit that is no instruction stops, or is a scancode byte. -/
theorem rejectUnit_serviceInv {w : BusUnit} {r : Reject} (hsv : ServiceInv s) (h : rejectUnit w r s = .next t) :
    ServiceInv t := by
  cases w with
  | opWord =>
    rw [next_inj (whenRunning_next h).2]
    exact serviceInv_stopAt _ _
  | command =>
    rw [next_inj (whenMainline_next h).2]
    exact serviceInv_stopAt _ _
  | data =>
    rw [next_inj (whenMainline_next h).2]
    exact serviceInv_stopAt _ _
  | scan => exact exec_mainline_serviceInv (i := .addbyte _) rfl hsv h

/-- Settles O10: by who the step belongs to: mainline moves no line into service, `INTA` just the line of the handler it
enters, and a body returns only once that line has left it. -/
theorem serviceInvariantKeptByStep : Obligations.ServiceInvariantKeptByStep := by
  intro s t hv hi hsv h
  obtain ⟨_, w, rest, _, ⟨i, _, h⟩ | ⟨r, _, h⟩⟩ := step_next h
  · exact exec_serviceInv (s := { s with prog := rest, result := none }) hv
      (hi.congr rfl rfl rfl rfl rfl rfl rfl rfl rfl) hsv h
  · exact rejectUnit_serviceInv (s := { s with prog := rest, result := none }) hsv h

end Sys2Proof.Machine
end

section
/-! PROOFS. Resolution and acceptance (R164, R179 to R182) and the entry that follows (R296, R330). -/

namespace Sys2Proof.Machine

open Sys2Proof

variable {s : State}

/-! ## The interrupt output (R179, R180) -/

theorem intOutOf_eq_some_iff {p : Pic} {req : Byte} {i : Fin 8} :
    intOutOf p req = some i ↔
      p.init = .ready ∧ lowestSet (req &&& ~~~p.imr) = some i ∧ inServiceUpTo p.isr i = false := by
  refine ⟨intOutOf_eq_some, fun ⟨hr, hl, hs⟩ => ?_⟩
  simp [intOutOf, hr, hl, hs]

/-- R180: the requests of a controller: its own register, but at the master's cascade input the slave's output. -/
theorem effIrr_bit (s : State) (c : Ctrl) (j : Fin 8) :
    (effIrr s c).getLsbD j.val =
      if c = .master ∧ j = s.cfg.cascadeLine then (intOut s .slave).isSome else (s.pic c).irr.getLsbD j.val := by
  cases c with
  | slave => rfl
  | master =>
    rw [effIrr, getLsbD_setBit _ _ _ _ j.isLt]
    simp [Fin.ext_iff, intOut, effIrr]

/-- R179: a request that is not masked. -/
theorem unmasked_bit (v m : Byte) (j : Fin 8) : (v &&& ~~~m).getLsbD j.val = (v.getLsbD j.val && !m.getLsbD j.val) := by
  simp [j.isLt]

/-- Settles O33: the smallest bit set among the unmasked requests, and none in service up to it, each said bit by bit. -/
theorem interruptOutput : Obligations.InterruptOutput := by
  intro s c p req hreq
  have hbit : ∀ j, (effIrr s c &&& ~~~(s.pic c).imr).getLsbD j.val = true ↔ req j := fun j => by
    rw [hreq, unmasked_bit, effIrr_bit, Bool.and_eq_true, Bool.not_eq_true']
    split <;> simp [Option.isSome_iff_ne_none]
  rw [intOut, intOutOf_eq_some_iff, lowestSet_eq_some_iff, inServiceUpTo_eq_false_iff]
  simp only [← hbit, Bool.not_eq_true, and_assoc]

/-! ## The order of acceptance (R164, R182) -/

/-- R160: the line at input `i` of controller `c`. -/
def deviceLine : Ctrl → Fin 8 → Fin 16
  | .master, i => ⟨i.val, by omega⟩
  | .slave, i => ⟨8 + i.val, by omega⟩

@[simp] theorem lineCtrl_deviceLine (c : Ctrl) (i : Fin 8) : lineCtrl (deviceLine c i) = c := by
  revert i
  cases c <;> decide

@[simp] theorem lineInput_deviceLine (c : Ctrl) (i : Fin 8) : lineInput (deviceLine c i) = i := by
  revert i
  cases c <;> decide

/-- R164: the inputs of a controller of higher priority than input `k`, highest first. -/
def inputsAbove (k : Fin 8) : List (Fin 8) := inputs.filter (· < k)

/-- R164: those of lower priority, highest first. -/
def inputsBelow (k : Fin 8) : List (Fin 8) := inputs.filter (k < ·)

theorem inputs_split (k : Fin 8) : inputs = inputsAbove k ++ k :: inputsBelow k := by
  revert k
  decide

theorem ne_of_mem_inputsAbove {k i : Fin 8} (h : i ∈ inputsAbove k) : i ≠ k :=
  ne_of_lt (by simpa using (List.mem_filter.1 h).2)

theorem ne_of_mem_inputsBelow {k i : Fin 8} (h : i ∈ inputsBelow k) : i ≠ k :=
  ne_of_gt (by simpa using (List.mem_filter.1 h).2)

/-- R164: the slave's eight lines take the place of the cascade input. -/
theorem lineOrder_eq (cfg : Config) :
    lineOrder cfg =
      (inputsAbove cfg.cascadeLine).map (deviceLine .master) ++ inputs.map (deviceLine .slave) ++
        (inputsBelow cfg.cascadeLine).map (deviceLine .master) := by
  unfold lineOrder
  generalize cfg.cascadeLine = k
  revert k
  decide

/-- R324: input `i` of controller `c` holds a request of its own and is not masked there. -/
def inputPending (s : State) (c : Ctrl) (i : Fin 8) : Bool :=
  (s.pic c).irr.getLsbD i.val && !(s.pic c).imr.getLsbD i.val

theorem linePending_master (s : State) : linePending s ∘ deviceLine .master = inputPending s .master := by
  funext i
  have h : (deviceLine .master i).val < 8 := i.isLt
  simp [linePending, inputPending, h]

theorem linePending_slave (s : State) :
    linePending s ∘ deviceLine .slave =
      fun i => inputPending s .slave i && !s.master.imr.getLsbD s.cfg.cascadeLine.val := by
  funext i
  have h : ¬ (deviceLine .slave i).val < 8 := by simp [deviceLine]
  simp [linePending, inputPending, h]

/-- R179: the output of a `Ready` controller with nothing in service. -/
theorem intOut_idle {c : Ctrl} (hr : (s.pic c).init = .ready) (hz : (s.pic c).isr = 0#8) :
    intOut s c = inputs.find? fun i => (effIrr s c).getLsbD i.val && !(s.pic c).imr.getLsbD i.val := by
  have h : intOut s c = lowestSet (effIrr s c &&& ~~~(s.pic c).imr) := by
    ext i
    rw [intOut, intOutOf_eq_some_iff, hz, inServiceUpTo_zero]
    simp [hr]
  rw [h, lowestSet]
  simp only [unmasked_bit]

theorem intOut_slave_idle (hr : s.slave.init = .ready) (hz : s.slave.isr = 0#8) :
    intOut s .slave = inputs.find? (inputPending s .slave) :=
  intOut_idle (c := .slave) hr hz

/-- R180: the master's output, the cascade input at its place among the master's own lines. -/
theorem intOut_master_idle (hr : s.master.init = .ready) (hz : s.master.isr = 0#8) :
    intOut s .master =
      ((inputsAbove s.cfg.cascadeLine).find? (inputPending s .master)).or
        (if (intOut s .slave).isSome && !s.master.imr.getLsbD s.cfg.cascadeLine.val then some s.cfg.cascadeLine
         else (inputsBelow s.cfg.cascadeLine).find? (inputPending s .master)) := by
  have own : ∀ i, i ≠ s.cfg.cascadeLine →
      ((effIrr s .master).getLsbD i.val && !(s.pic .master).imr.getLsbD i.val) = inputPending s .master i := fun i hi => by
    rw [effIrr_bit, if_neg (fun h => hi h.2), inputPending]
  rw [intOut_idle (c := .master) hr hz, inputs_split s.cfg.cascadeLine, List.find?_append, List.find?_cons,
    List.find?_congr fun i hi => own i (ne_of_mem_inputsAbove hi),
    List.find?_congr fun i hi => own i (ne_of_mem_inputsBelow hi), effIrr_bit, if_pos ⟨rfl, rfl⟩, State.pic_master]
  cases (intOut s .slave).isSome && !s.master.imr.getLsbD s.cfg.cascadeLine.val <;> rfl

/-- R181: the line an acceptance takes. -/
def acceptedLine (s : State) : Option (Fin 16) :=
  (intOut s .master).bind fun p =>
    if p ≠ s.cfg.cascadeLine then some (deviceLine .master p) else (intOut s .slave).map (deviceLine .slave)

/-- R162, R181: what `Accept` returns is the vector of the line it takes. -/
theorem accept_vector (s : State) :
    (accept s).map Prod.snd = (acceptedLine s).map fun n => lineVector (s.pic (lineCtrl n)).offset (lineInput n) := by
  unfold accept acceptedLine
  cases intOut s .master with
  | none => rfl
  | some p =>
    by_cases hp : p = s.cfg.cascadeLine
    · cases intOut s .slave <;> simp [hp]
    · simp [hp]

/-- R182: with nothing in service the line taken is the first pending one in the order of R164. -/
theorem acceptedLine_eq_find (hm : s.master.init = .ready) (hsl : s.slave.init = .ready) (hmz : s.master.isr = 0#8)
    (hsz : s.slave.isr = 0#8) : acceptedLine s = (lineOrder s.cfg).find? (linePending s) := by
  rw [lineOrder_eq, List.find?_append, List.find?_append, List.find?_map, List.find?_map, List.find?_map,
    linePending_master, linePending_slave, acceptedLine, intOut_master_idle hm hmz]
  have hslave := intOut_slave_idle hsl hsz
  cases habove : (inputsAbove s.cfg.cascadeLine).find? (inputPending s .master) with
  | some p => simp [ne_of_mem_inputsAbove (List.mem_of_find?_eq_some habove)]
  | none =>
    have below : ∀ p, (inputsBelow s.cfg.cascadeLine).find? (inputPending s .master) = some p → p ≠ s.cfg.cascadeLine :=
      fun p h => ne_of_mem_inputsBelow (List.mem_of_find?_eq_some h)
    cases hmask : s.master.imr.getLsbD s.cfg.cascadeLine.val with
    | true =>
      have hmasked : inputs.find? (fun _ => false) = none := rfl
      cases hbelow : (inputsBelow s.cfg.cascadeLine).find? (inputPending s .master) with
      | none => simp [hmasked]
      | some p => simp [hmasked, below p hbelow]
    | false =>
      simp only [Bool.not_false, Bool.and_true, ← hslave]
      cases intOut s .slave with
      | some i => simp
      | none =>
        cases hbelow : (inputsBelow s.cfg.cascadeLine).find? (inputPending s .master) with
        | none => simp
        | some p => simp [below p hbelow]

/-- Settles O34: the vector returned is that of the line taken, and that line is the first of R164's order. -/
theorem acceptanceOrder : Obligations.AcceptanceOrder := by
  intro s _ hm hsl hmz hsz
  have h := accept_vector s
  rw [acceptedLine_eq_find hm hsl hmz hsz] at h
  refine ⟨fun n hn => ?_, fun hn => ?_⟩
  · rw [hn] at h
    obtain ⟨⟨t, _⟩, ht, rfl⟩ := Option.map_eq_some_iff.1 h
    exact ⟨t, ht⟩
  · rw [hn] at h
    exact Option.map_eq_none_iff.1 h

/-! ## The entry after an acceptance -/

theorem enterHandler_intoFrom (s : State) (v : Byte) (code : Option XWord) :
    Entered.intoFrom s (enterHandler s (s.entry v).handler code) v code :=
  ⟨rfl, testBit_withIF s.cfg s.cpu.flags false⟩

/-- R330: the entry where none of the three stops applies, in the spec's words. -/
theorem trapEntry_intoFrom {v : Byte} {code : Option XWord} (ha : s.idtActive = true)
    (hu : (s.entry v).handler ≠ .unhandled) (hst : (s.entry v).stack = none ∨ s.cfg.altStackOk = true) :
    Entered.intoFrom s (trapEntry v code s) v code := by
  rw [trapEntry_enter ha hu hst]
  exact enterHandler_intoFrom s v code

/-- R326, R330: `TrapEntry` in the spec's words. -/
theorem trapEntry_outcome (v : Byte) (code : Option XWord) (s : State) :
    trapOutcome s (trapEntry v code s) v code := by
  change if s.idtActive = false then trapEntry v code s = s.stopAt .rNoTable
    else if (s.entry v).handler = .unhandled then trapEntry v code s = s.stopAt (.fUnhandled v)
    else if (s.entry v).stack ≠ none ∧ s.cfg.altStackOk = false then trapEntry v code s = s.stopAt .fTriple
    else Entered.intoFrom s (trapEntry v code s) v code
  rcases trapEntry_cases v code s with ⟨ha, h⟩ | ⟨ha, hu, h⟩ | ⟨ha, hu, hst, hok, h⟩ | ⟨ha, hu, hst, h⟩ <;> rw [h]
  · rw [if_pos ha]
  · rw [if_neg (ne_false_of_eq_true ha), if_pos hu]
  · rw [if_neg (ne_false_of_eq_true ha), if_neg hu, if_pos ⟨Option.isSome_iff_ne_none.1 hst, hok⟩]
  · rw [if_neg (ne_false_of_eq_true ha), if_neg hu, if_neg]
    · exact enterHandler_intoFrom s v code
    · rintro ⟨hne, hok⟩
      exact Bool.false_ne_true (hok.symm.trans (hst (Option.isSome_iff_ne_none.2 hne)))

theorem accept_of_master {p : Fin 8} (h : intOut s .master = some p) (hp : p ≠ s.cfg.cascadeLine) :
    accept s = some (takeLine .master p s, lineVector s.master.offset p) := by
  simp [accept, h, hp]

theorem accept_of_cascade {p : Fin 8} (h : intOut s .master = some s.cfg.cascadeLine) (hp : intOut s .slave = some p) :
    accept s = some (takeLine .slave p (takeCascade s), lineVector s.slave.offset p) := by
  simp [accept, h, hp]

theorem accept_of_no_output (h : intOut s .master = none) : accept s = none := by
  simp [accept, h]

/-- R296: `INTA` while interrupts are masked, a handler is entered or the CPU is halted. -/
theorem exec_inta_of_blocked (hs : s.stop = none) (h : s.IF = false ∨ s.cpu.handler ≠ none ∨ s.cpu.halted = true) :
    ∃ why, exec .inta s = .fault (.notEnabled why) := by
  rw [exec, execInta, whenRunning_of_running hs]
  by_cases hh : s.cpu.halted = true
  · exact ⟨.halted, if_pos hh⟩
  · rw [if_neg hh]
    by_cases he : s.cpu.handler.isSome = true
    · exact ⟨.handlerEntered, if_pos he⟩
    · rw [if_neg he]
      have hIF : s.IF = false := by simpa [hh, Option.isSome_iff_ne_none.not.1 he] using h
      exact ⟨.interruptsMasked, if_pos hIF⟩

section
variable (hs : s.stop = none) (hn : s.cpu.handler = none) (hh : s.cpu.halted = false) (hIF : s.IF = true)
include hs hn hh hIF

/-- R296: `INTA` enabled: the acceptance, then the entry. -/
theorem exec_inta_of_accept {u : State} {v : Byte} (ha : accept s = some (u, v)) :
    exec .inta s = .next (trapEntry v none u) := by
  rw [exec, execInta, whenRunning_of_running hs]
  simp [hn, hh, hIF, ha]

theorem exec_inta_of_no_output (h : intOut s .master = none) : exec .inta s = .fault (.notEnabled .noInterrupt) := by
  rw [exec, execInta, whenRunning_of_running hs]
  simp [hn, hh, hIF, accept_of_no_output h, blocked]

end

/-- Settles O36: by the master's output: one of its own lines, the cascade input, or none. -/
theorem intaResult : Obligations.IntaResult := by
  refine ⟨fun s => exec_inta_of_blocked, fun s hs hn hh hIF => ⟨?_, fun hc => ?_, exec_inta_of_no_output hs hn hh hIF⟩⟩
  · rintro p _ hp hne rfl
    refine ⟨_, exec_inta_of_accept hs hn hh hIF (accept_of_master hp hne), trapEntry_outcome .., fun ha he => ?_⟩
    refine trapEntry_intoFrom (s := takeLine .master p s) ha ?_ (.inl ?_)
    · obtain he | he := he <;> exact (congrArg Entry.handler he).trans_ne (by decide)
    · obtain he | he := he <;> exact congrArg Entry.stack he
  · obtain ⟨p, hp⟩ := slave_out_of_cascade hc
    exact ⟨p, _, _, hp, rfl, exec_inta_of_accept hs hn hh hIF (accept_of_cascade hc hp), trapEntry_outcome ..⟩

end Sys2Proof.Machine
end

section
/-! PROOFS. Bytes at the controllers (R170 to R177): the raw port write and the hardware's own byte alike, and a request on a
device line. -/

namespace Sys2Proof.Machine

open Sys2Proof

variable {s : State} {c : Ctrl} {b : Byte} {i : Instr}

/-! ## Which operation a byte is -/

/-- R280: a byte that is logged and then refused. -/
theorem stopAt_pushLog (s : State) (e : IoEvent) (r : StopReason) :
    (s.pushLog e).stopAt r = { s with iolog := s.iolog ++ [e], stop := some r } := rfl

/-- R171: both forms of the first initialisation byte. -/
theorem exec_icw1_of_mainline (hm : s.Mainline) (hv : s.cfg.valid = true)
    (hi : i = .iow (cmdPort s.cfg c) s.cfg.icw1Init ∨ i = .icw1 c) :
    exec i s = .next (picIcw1 c (s.pushLog (.output (cmdPort s.cfg c) s.cfg.icw1Init))) := by
  obtain rfl | rfl := hi
  · rw [exec_iow_of_mainline hm, portWrite_cmdPort c _ hv, picCommand, if_pos (by rfl)]
  · exact whenMainline_of_mainline hm _

/-- R176: both forms of the end-of-interrupt command. -/
theorem exec_eoi_of_mainline (hm : s.Mainline) (hv : s.cfg.valid = true)
    (hi : i = .iow (cmdPort s.cfg c) s.cfg.eoiCmd ∨ i = .eoi c) :
    exec i s = .next (picEoi c (s.pushLog (.output (cmdPort s.cfg c) s.cfg.eoiCmd))) := by
  obtain rfl | rfl := hi
  · rw [exec_iow_of_mainline hm, portWrite_cmdPort c _ hv, picCommand, State.pushLog_cfg,
      if_neg (Config.valid_commands hv), if_pos rfl]
  · exact whenMainline_of_mainline hm _

/-- R103: every form of a byte at a data port. -/
theorem exec_of_writesData (hm : s.Mainline) (hv : s.cfg.valid = true) (h : writesData s.cfg c b i) :
    exec i s = .next (picData c b (s.pushLog (.output (dataPort s.cfg c) b))) := by
  obtain rfl | rfl | ⟨o, rfl, rfl⟩ | ⟨rfl, rfl, rfl⟩ | ⟨rfl, rfl, rfl⟩ | ⟨rfl, rfl⟩ := h
  · rw [exec_iow_of_mainline hm, portWrite_dataPort c b hv]
  all_goals exact whenMainline_of_mainline hm _

/-! ## Data-port bytes, by the controller's position (R103) -/

theorem picData_of_uninit (h : (s.pic c).init = .uninit) : picData c b s = s.stopAt .rPicCmd := by
  simp only [picData, h]

theorem picData_of_waitIcw2 (h : (s.pic c).init = .waitIcw2) : picData c b s = picIcw2 c b s := by
  simp only [picData, h]

theorem picData_of_waitIcw3 (h : (s.pic c).init = .waitIcw3) : picData c b s = picIcw3 c b s := by
  simp only [picData, h]

theorem picData_of_waitIcw4 (h : (s.pic c).init = .waitIcw4) : picData c b s = picIcw4 c b s := by
  simp only [picData, h]

theorem picData_of_ready (h : (s.pic c).init = .ready) : picData c b s = picOcw1 c b s := by
  simp only [picData, h]

/-! ## The initialisation bytes -/

/-- Settles O19: by whether the controller is `Uninit`. -/
theorem icw1Result : Obligations.Icw1Result := by
  intro s c i hm hv hi
  rw [exec_icw1_of_mainline hm hv hi]
  refine ⟨fun h => ?_, fun h => ?_⟩
  · rw [picIcw1, State.pushLog_pic, if_pos h]
  · rw [picIcw1, State.pushLog_pic, if_neg h, stopAt_pushLog]

/-- Settles O20: by whether the byte may be an offset. -/
theorem icw2Result : Obligations.Icw2Result := by
  intro s c b i hm hv hw hi
  rw [exec_of_writesData hm hv hi, picData_of_waitIcw2 (by rw [State.pushLog_pic, hw])]
  refine ⟨fun h => ?_, fun h => ?_⟩
  · rw [picIcw2, if_pos ((offsetOk_iff b).2 h), State.pushLog_pic]
  · rw [picIcw2, if_neg (mt (offsetOk_iff b).1 h), stopAt_pushLog]

/-- Settles O21: by whether the byte is the wiring byte of its controller. -/
theorem icw3Result : Obligations.Icw3Result := by
  intro s c b w i hm hv hw hmaster hslave hi
  obtain rfl : w = icw3Byte s.cfg c := by
    cases c with
    | master => exact hmaster rfl
    | slave => exact hslave rfl
  rw [exec_of_writesData hm hv hi, picData_of_waitIcw3 (by rw [State.pushLog_pic, hw])]
  refine ⟨fun h => ?_, fun h => ?_⟩
  · rw [picIcw3, State.pushLog_cfg, if_pos h, State.pushLog_pic]
  · rw [picIcw3, State.pushLog_cfg, if_neg h, stopAt_pushLog]

/-- Settles O22: by whether the byte is the admitted mode. -/
theorem icw4Result : Obligations.Icw4Result := by
  intro s c b i hm hv hw hi
  rw [exec_of_writesData hm hv hi, picData_of_waitIcw4 (by rw [State.pushLog_pic, hw])]
  refine ⟨fun h => ?_, fun h => ?_⟩
  · rw [picIcw4, State.pushLog_cfg, if_pos h, State.pushLog_pic]
  · rw [picIcw4, State.pushLog_cfg, if_neg h, stopAt_pushLog]

/-- Settles O23: by whether the controller is `Ready` or `Uninit`. -/
theorem dataPortOtherWrites : Obligations.DataPortOtherWrites := by
  intro s c b i hm hv hi
  rw [exec_of_writesData hm hv hi]
  refine ⟨fun h => ?_, fun h => ?_⟩
  · rw [picData_of_ready (by rw [State.pushLog_pic, h]), picOcw1, State.pushLog_pic]
  · rw [picData_of_uninit (by rw [State.pushLog_pic, h]), stopAt_pushLog]

/-! ## The end of interrupt -/

/-- R176: the smallest bit set is cleared. -/
theorem eoiIsr_of_lowest {isr : Byte} {q : Fin 8} (hq : isr.getLsbD q.val = true)
    (hlow : ∀ j : Fin 8, j < q → isr.getLsbD j.val = false) : eoiIsr isr = isr &&& ~~~(1#8 <<< q.val) := by
  rw [eoiIsr, (lowestSet_eq_some_iff isr q).2 ⟨hq, hlow⟩]
  rfl

theorem setPic_self (s : State) (c : Ctrl) : s.setPic c (s.pic c) = s := by
  cases c <;> rfl

/-- Settles O24: by whether the controller is `Ready`, and then by its smallest line in service. -/
theorem eoiResult : Obligations.EoiResult := by
  intro s c i hm hv hi
  rw [exec_eoi_of_mainline hm hv hi]
  refine ⟨fun h hz => ?_, fun h q hq hlow => ?_, fun h => ?_⟩
  · have hsame : ({ s.pic c with isr := eoiIsr (s.pic c).isr } : Pic) = s.pic c := by rw [hz, eoiIsr_zero, ← hz]
    rw [picEoi, State.pushLog_pic, if_pos h, hsame]
    exact congrArg _ (setPic_self (s.pushLog _) c)
  · rw [picEoi, State.pushLog_pic, if_pos h, eoiIsr_of_lowest hq hlow]
  · rw [picEoi, State.pushLog_pic, if_neg h, stopAt_pushLog]

/-! ## Requests (R177) -/

/-- R160: the controller of a line, by the quotient the rule names. -/
theorem lineCtrl_eq (n : Fin 16) : lineCtrl n = if n.val / 8 = 0 then .master else .slave := by
  revert n
  decide

theorem exec_irq_refused {n : Fin 16} (hs : s.stop = none) (h : n.val = s.cfg.cascadeLine.val ∨ n.val = 1) :
    exec (.irq n) s = .next (s.stopAt .rLine) := by
  rw [exec, execIrq, whenRunning_of_running hs, if_pos h]

theorem exec_irq_admitted {n : Fin 16} (hs : s.stop = none) (hc : n.val ≠ s.cfg.cascadeLine.val) (h1 : n.val ≠ 1) :
    exec (.irq n) s = .next (request (lineCtrl n) (lineInput n) s) := by
  rw [exec, execIrq, whenRunning_of_running hs, if_neg (not_or.2 ⟨hc, h1⟩)]

/-- Settles O31: by whether the line is refused, and then by whether its controller is `Ready`. -/
theorem irqResult : Obligations.IrqResult := by
  rintro s n c hs rfl
  rw [← lineCtrl_eq]
  refine ⟨exec_irq_refused hs, fun hc h1 hr => ?_, fun hc h1 hr => ?_⟩
  · rw [exec_irq_admitted hs hc h1, request, if_pos hr]
    rfl
  · rw [exec_irq_admitted hs hc h1, request, if_neg hr]

end Sys2Proof.Machine
end

section
/-! PROOFS. The contract commands of the controller pair (R185, R186, R190) and the port writes they stand for (R118). -/

namespace Sys2Proof.Machine

open Sys2Proof

variable {s : State}

/-! ## With the controllers' lock free, and held -/

theorem baseOk_iff (base : Byte) : baseOk base = true ↔ 32 ≤ base.toNat ∧ base.toNat ≤ 240 ∧ base.toNat % 8 = 0 :=
  decide_eq_true_iff

theorem exec_picinit_of_base {base : Byte} (hm : s.Mainline) (hl : s.locks.pic = .free)
    (hb : 32 ≤ base.toNat ∧ base.toNat ≤ 240 ∧ base.toNat % 8 = 0) :
    exec (.picinit base) s = .next (portWrites (picInitWrites s.cfg base) s) := by
  rw [exec, execPicinit, whenMainline_of_mainline hm, whenFree_of_free (r := .pic) hl,
    if_pos ((baseOk_iff base).2 hb)]

/-- R186: the value check comes before any port write. -/
theorem exec_picinit_of_bad_base {base : Byte} (hm : s.Mainline) (hl : s.locks.pic = .free)
    (hb : ¬ (32 ≤ base.toNat ∧ base.toNat ≤ 240 ∧ base.toNat % 8 = 0)) :
    exec (.picinit base) s = .next (s.stopAt .rBase) := by
  rw [exec, execPicinit, whenMainline_of_mainline hm, whenFree_of_free (r := .pic) hl,
    if_neg (mt (baseOk_iff base).1 hb)]

theorem exec_ack_of_free (v : Byte) (hm : s.Mainline) (hl : s.locks.pic = .free) :
    exec (.ack v) s = .next (ackVector v s) := by
  rw [exec, execAck, whenMainline_of_mainline hm, whenFree_of_free (r := .pic) hl]

/-- R298: an operation whose lock mainline holds is not enabled. -/
theorem whenFree_of_held {r : Resource} (h : s.lock r = .heldByMainline) (k : Out) :
    whenFree r s k = .fault (.notEnabled (.lockHeld r)) := by
  simp [whenFree, h, blocked]

theorem exec_ack_of_held (v : Byte) (hm : s.Mainline) (hl : s.locks.pic = .heldByMainline) :
    exec (.ack v) s = .fault (.notEnabled (.lockHeld .pic)) := by
  rw [exec, execAck, whenMainline_of_mainline hm, whenFree_of_held (r := .pic) hl]

theorem exec_picinit_of_held (base : Byte) (hm : s.Mainline) (hl : s.locks.pic = .heldByMainline) :
    exec (.picinit base) s = .fault (.notEnabled (.lockHeld .pic)) := by
  rw [exec, execPicinit, whenMainline_of_mainline hm, whenFree_of_held (r := .pic) hl]

/-! ## The eight writes -/

theorem portWrites_cons (w : Half × Byte) (ws : List (Half × Byte)) (hs : s.stop = none) :
    portWrites (w :: ws) s = portWrites ws (portWrite w.1 w.2 s) := by
  unfold portWrites
  rw [List.foldl_cons, State.andThen_of_running hs]

/-- R171, R327: with the master initialised the first write stops, and none follows. -/
theorem portWrites_reinit_master {base : Byte} (hv : s.cfg.valid = true) (hs : s.stop = none)
    (h : s.master.init ≠ .uninit) :
    portWrites (picInitWrites s.cfg base) s =
      (s.pushLog (.output s.cfg.pic1Cmd s.cfg.icw1Init)).stopAt .rReinit := by
  have h1 := portWrite_reinit_master (s := s) (sl := s.slave) (l := []) hv h
  rw [State.withPics_self] at h1
  rw [picInitWrites, portWrites_cons _ _ hs, h1, portWrites_of_stopped _ (by simp)]
  rfl

/-- R171, R327: with the slave alone initialised the second write stops. -/
theorem portWrites_reinit_slave {base : Byte} (hv : s.cfg.valid = true) (hs : s.stop = none)
    (hm : s.master.init = .uninit) (h : s.slave.init ≠ .uninit) :
    portWrites (picInitWrites s.cfg base) s =
      (s.withPics { s.master with init := .waitIcw2, irr := 0#8, isr := 0#8, imr := 0#8 } s.slave
        [.output s.cfg.pic1Cmd s.cfg.icw1Init, .output s.cfg.pic2Cmd s.cfg.icw1Init]).stopAt .rReinit := by
  have h1 := portWrite_icw1_master (s := s) (sl := s.slave) (l := []) hv hm
  rw [State.withPics_self] at h1
  rw [picInitWrites, portWrites_cons _ _ hs, h1, portWrites_cons _ _ (by exact hs), portWrite_reinit_slave hv h,
    portWrites_of_stopped _ (by simp)]
  rfl

/-- R118: the eight `IOW` of the expansion come to the state of `PICINIT`. -/
theorem execAll_picinitWrites {base : Byte} (hm : s.Mainline) (hn : (portWrites (picInitWrites s.cfg base) s).stop = none) :
    execAll (expand s (.picinitWrites base)) s = .next (portWrites (picInitWrites s.cfg base) s) :=
  execAll_iow _ hm hn

/-- Settles O50: the value check, then the writes, which stop at the first controller found initialised. -/
theorem picinitResult : Obligations.PicinitResult := by
  rintro s base _ hm hv hl rfl
  refine ⟨exec_picinit_of_bad_base hm hl, fun hb => ?_⟩
  rw [exec_picinit_of_base hm hl hb]
  refine ⟨fun hma hsl => ?_, fun hma => ?_, fun hma hsl => ?_⟩
  · have h := portWrites_picInit hv hm.1 hb hma hsl
    rw [execAll_picinitWrites hm (by rw [h]; exact hm.1), h]
    exact ⟨rfl, rfl⟩
  · rw [portWrites_reinit_master hv hm.1 hma]
    rfl
  · rw [portWrites_reinit_slave hv hm.1 hma hsl]
    rfl

/-! ## The acknowledgment -/

/-- R118, R190: the writes of the expansion come to the state of `ACK`. -/
theorem execAll_ackWrites (v : Byte) (hm : s.Mainline) (hv : s.cfg.valid = true) (hma : s.master.init = .ready)
    (hsl : s.slave.init = .ready) : execAll (expand s (.ackWrites v)) s = .next (acked s v) := by
  have h : portWrites (ackWrites s v) s = acked s v := by
    rw [← ackVector_of_ready v hm.1 hv hma hsl, ackVector, if_pos ⟨hma, hsl⟩]
  rw [expand, expandAck, if_pos ⟨hma, hsl⟩, execAll_iow _ hm (by rw [h]; exact hm.1), h]

/-- Settles O51: by the lock and by whether both controllers are `Ready`. -/
theorem ackResult : Obligations.AckResult := by
  intro s v hm hv
  refine ⟨fun hl hma hsl => ⟨?_, execAll_ackWrites v hm hv hma hsl⟩, fun hl h => ?_, fun hl =>
    ⟨exec_ack_of_held v hm hl, exec_picinit_of_held v hm hl⟩⟩
  · rw [exec_ack_of_free v hm hl, ackVector_of_ready v hm.1 hv hma hsl]
  · rw [exec_ack_of_free v hm hl, ackVector_of_not_ready v h]
    rfl

end Sys2Proof.Machine
end

section
/-! PROOFS. The device handlers (R200 to R206): a byte from the keyboard, the timer's and the keyboard's body, and a whole
interrupt of each, from the request to the return. -/

namespace Sys2Proof.Machine

open Sys2Proof

variable {s t u w : State} {e : Entered}

/-! ## A byte from the keyboard (R203) -/

theorem request_of_ready {c : Ctrl} (i : Fin 8) (hr : (s.pic c).init = .ready) :
    request c i s = s.setPic c { s.pic c with irr := setBit (s.pic c).irr i.val true } :=
  if_pos hr

theorem request_of_not_ready {c : Ctrl} (i : Fin 8) (hr : (s.pic c).init ≠ .ready) : request c i s = s :=
  if_neg hr

theorem exec_key_of_empty (b : Byte) (hs : s.stop = none) (ho : s.kbd.obuf = none) :
    exec (.key b) s = .next (request .master 1 (s.setObuf (some b))) := by
  rw [exec, execKey, whenRunning_of_running hs, ho]

theorem exec_key_of_full (b : Byte) (hs : s.stop = none) (ho : s.kbd.obuf ≠ none) :
    exec (.key b) s = .fault (.notEnabled .bufferFull) := by
  obtain ⟨x, hx⟩ := Option.ne_none_iff_exists'.1 ho
  rw [exec, execKey, whenRunning_of_running hs, hx, blocked]

/-- Settles O32: by whether the buffer is empty, and then by whether the master is `Ready`. -/
theorem keyResult : Obligations.KeyResult := by
  refine fun s b hs => ⟨fun ho hr => ?_, fun ho hr => ?_, exec_key_of_full b hs⟩
  · rw [exec_key_of_empty b hs ho, request_of_ready 1 (by exact hr)]
    rfl
  · rw [exec_key_of_empty b hs ho, request_of_not_ready 1 (by exact hr)]
    rfl

/-! ## When the bodies run (R206, R298) -/

theorem heldLock_of_free {rs : List Resource} (h : ∀ r ∈ rs, s.lock r = .free) : heldLock s rs = none := by
  refine List.find?_eq_none.2 fun r hr => ?_
  rw [h r hr]
  decide

theorem exec_hrun_of_timer (hs : s.stop = none) (he : s.cpu.handler = some e) (hh : s.cpu.halted = false)
    (ht : e.handler = .timer) (hw : s.locks.writer = .free) (hp : s.locks.pic = .free) :
    exec .hrun s = .next (timerBody s) := by
  have hfree : ∀ r ∈ needs e.handler s, s.lock r = .free := by
    simp [ht, needs, State.lock, hw, hp]
  rw [exec_hrun_of_entered hs he hh (heldLock_of_free hfree), runBody, ht]

/-- R206: the writer's lock counts only where the body needs it. -/
theorem exec_hrun_of_keyboard (hs : s.stop = none) (he : s.cpu.handler = some e) (hh : s.cpu.halted = false)
    (hk : e.handler = .keyboard) (hl : s.locks.kbd = .free) (hp : s.locks.pic = .free)
    (hw : keyboardNeedsWriter s = true → s.locks.writer = .free) : exec .hrun s = .next (keyboardBody s) := by
  have hfree : ∀ r ∈ needs e.handler s, s.lock r = .free := by
    rw [hk, needs]
    split
    · simp [State.lock, hl, hp, hw ‹_›]
    · simp [State.lock, hl, hp]
  rw [exec_hrun_of_entered hs he hh (heldLock_of_free hfree), runBody, hk]

/-! ## The end of a body: the acknowledgment, then the return (R190, R327, R333) -/

/-- A body's end in a state `w` that differs from `u` on the screen alone. -/
theorem ackReturn_outcome (v : Byte) (h : SameButScreen u w) (hs : u.stop = none) (hv : u.cfg.valid = true)
    (he : u.cpu.handler = some e) :
    (u.master.init = .ready → u.slave.init = .ready →
      (ackVector v w).andThen trapReturn = (acked w v).setCpu (restoredCpu u e)) ∧
    (¬ (u.master.init = .ready ∧ u.slave.init = .ready) →
      (ackVector v w).andThen trapReturn = w.stopAt .rPicCmd) := by
  rw [← h.stop] at hs
  rw [← h.cfg] at hv
  rw [← h.cpu] at he
  rw [← h.master, ← h.slave, restoredCpu, ← h.cpu]
  refine ⟨fun hm hsl => ?_, fun hr => ?_⟩
  · rw [ackVector_of_ready v hs hv hm hsl, State.andThen_of_running (by exact hs), trapReturn_of_entered (by exact he)]
    rfl
  · rw [ackVector_of_not_ready v hr, State.andThen_of_stopped rfl]

/-- Settles O40: both locks the body needs are free; the heartbeat changes the screen alone, then the end of the body. -/
theorem hrunTimer : Obligations.HrunTimer := by
  intro s e hs he hh ht hv hw hp
  obtain ⟨hready, hstop⟩ := ackReturn_outcome s.cfg.vecTimer (writeByte_sameButScreen s.cfg.heartbeat s) hs hv he
  rw [exec_hrun_of_timer hs he hh ht hw hp, timerBody]
  exact ⟨fun hm hsl => congrArg _ (hready hm hsl), fun hr => congrArg _ (hstop hr)⟩

/-! ## The keyboard's body -/

section
variable (cfg : Config) (d : Decoder) (b : Byte)

/-- R201: a byte that makes no event shows nothing. -/
theorem decodeForDisplay_of_no_event (h : (addByte cfg d b).2 = none) :
    decodeForDisplay cfg d b = ((addByte cfg d b).1, []) := by
  rw [decodeForDisplay, ← Prod.mk.eta (p := addByte cfg d b), h]

/-- R201: the event of a byte goes through the second stage, and what that decodes, if anything, is shown. -/
theorem decodeForDisplay_of_event {e : KeyEvent} (h : (addByte cfg d b).2 = some e) :
    decodeForDisplay cfg d b =
      ((processKey cfg (addByte cfg d b).1 e).1, ((processKey cfg (addByte cfg d b).1 e).2.map (emit cfg)).getD []) := by
  rw [decodeForDisplay, ← Prod.mk.eta (p := addByte cfg d b), h]
  dsimp only
  rcases processKey cfg (addByte cfg d b).1 e with ⟨_, _ | _⟩ <;> rfl

/-- R201, R211, R215, R205: the model's decoder does and shows what the spec says. -/
theorem keyShown_decodeForDisplay :
    keyShown cfg d b (decodeForDisplay cfg d b).1 (decodeForDisplay cfg d b).2 := by
  refine ⟨_, _, addsByte_addByte cfg d b, fun h => ?_, fun e h => ?_⟩
  · rw [decodeForDisplay_of_no_event cfg d b h]
    exact ⟨rfl, rfl⟩
  · rw [decodeForDisplay_of_event cfg d b h]
    refine ⟨_, processesKey_processKey cfg _ e, fun hr => ?_, fun dk hr => ?_⟩ <;> rw [hr]
    · rfl
    · exact emits_emit cfg dk

end

/-- R201: up to its acknowledgment the body reads a byte, moves the decoder, then writes the output. -/
theorem keyboardOutput_writes (s : State) :
    keyboardOutput s =
      writeBytes (decodeForDisplay s.cfg s.kbd.dec (kbdByte s)).2
        { s with
          kbd := ⟨none, (decodeForDisplay s.cfg s.kbd.dec (kbdByte s)).1⟩
          iolog := s.iolog ++ [.input s.cfg.kbdPort (kbdByte s)]
          draws := (kbdRead s).draws } := by
  conv_lhs => rw [keyboardOutput, kbdRead_eq]
  rfl

/-- R204: with a byte in the buffer, that byte is read. -/
theorem kbdRead_of_full {b : Byte} (ho : s.kbd.obuf = some b) : kbdByte s = b ∧ (kbdRead s).draws = s.draws := by
  rw [kbdByte, kbdRead, kbdTake, ho]
  exact ⟨rfl, rfl⟩

/-- R204: with the buffer empty the read draws a free value. -/
theorem kbdRead_of_empty (ho : s.kbd.obuf = none) :
    kbdByte s = Config.freeKbdByte s.draws ∧ (kbdRead s).draws = s.draws + 1 := by
  rw [kbdByte, kbdRead, kbdTake, ho]
  exact ⟨rfl, rfl⟩

/-- R206: a byte that shows nothing needs no writer. -/
theorem keyboardNeedsWriter_of_full {b : Byte} (ho : s.kbd.obuf = some b)
    (h : (decodeForDisplay s.cfg s.kbd.dec b).2 = []) : keyboardNeedsWriter s = false := by
  rw [keyboardNeedsWriter, ho]
  simp [h]

/-- Settles O41: the byte read is the one in the buffer, or a free value; the rest of the body does not tell them apart. -/
theorem hrunKeyboard : Obligations.HrunKeyboard := by
  refine ⟨keyShown_decodeForDisplay, fun s e hs he hh hk hv hl hp => ?_⟩
  obtain ⟨hready, hstop⟩ := ackReturn_outcome s.cfg.vecKeyboard (keyboardOutput_eq s) hs hv he
  refine ⟨?_, fun ho hw => ⟨kbdByte s, ?_⟩⟩
  · rintro b d out _ ho hd hw rfl
    have hlock : keyboardNeedsWriter s = true → s.locks.writer = .free := fun hn =>
      hw.resolve_right fun h => by
        rw [keyboardNeedsWriter_of_full ho (by rw [hd]; exact h)] at hn
        cases hn
    obtain ⟨hb, hdraws⟩ := kbdRead_of_full ho
    have hout := keyboardOutput_writes s
    rw [hb, hdraws, hd] at hout
    rw [exec_hrun_of_keyboard hs he hh hk hl hp hlock, ← hout]
    exact ⟨fun hm hsl => congrArg _ (hready hm hsl), fun hr => congrArg _ (hstop hr)⟩
  · rintro _ rfl
    rw [exec_hrun_of_keyboard hs he hh hk hl hp fun _ => hw, ← (kbdRead_of_empty ho).2, ← keyboardOutput_writes]
    exact ⟨fun hm hsl => congrArg _ (hready hm hsl), fun hr => congrArg _ (hstop hr)⟩

end Sys2Proof.Machine
end

section
/-! PROOFS. A whole interrupt of a device (R202): the request, its acceptance and entry, the handler's body, the return. -/

namespace Sys2Proof.Machine

open Sys2Proof

variable {s t : State} {p : Fin 8} {h : HandlerId}

/-! ## The request and its acceptance -/

/-- Mainline of a booted machine that would deliver a request on line `p` of the master to handler `h` at once: nothing
pending, nothing in service, the line not masked, and its vector the master's alone. -/
structure Delivers (s : State) (p : Fin 8) (h : HandlerId) : Prop where
  mainline : s.Mainline
  valid : s.cfg.valid = true
  enabled : s.IF = true
  active : s.idtActive = true
  entry : s.entry (lineVector s.cfg.irqBase p) = ⟨h, none⟩
  handled : h ≠ .unhandled
  notCascade : p ≠ s.cfg.cascadeLine
  master : s.master.init = .ready
  slave : s.slave.init = .ready
  offset : s.master.offset = s.cfg.irqBase
  notSlave : ¬ vectorOf s.slave.offset (lineVector s.cfg.irqBase p)
  noRequest : s.master.irr = 0#8
  noSlaveRequest : s.slave.irr = 0#8
  idle : s.master.isr = 0#8
  unmasked : s.master.imr.getLsbD p.val = false

/-- The state after the request on line `p` and its acceptance: the line in service, its handler entered. -/
def delivered (s : State) (p : Fin 8) (h : HandlerId) : State :=
  enterHandler (s.setPic .master { s.master with irr := 0#8, isr := bit8 p }) h none

theorem bit8_bit (p j : Fin 8) : (bit8 p).getLsbD j.val = true ↔ j = p := by
  rw [bit8, getLsbD_one_shiftLeft _ _ j.isLt, decide_eq_true_iff, Fin.ext_iff]

theorem setBit_bit8_self (p : Fin 8) : setBit (bit8 p) p.val false = 0#8 := by
  revert p
  decide

/-- R179: a slave without a request has no output. -/
theorem intOut_slave_of_noRequest (hz : s.slave.irr = 0#8) : intOut s .slave = none := by
  refine Option.eq_none_iff_forall_ne_some.2 fun i hi => ?_
  obtain ⟨_, hl, _⟩ := intOutOf_eq_some hi
  have hbit := (lowestSet_eq_some hl).1
  simp [effIrr, hz] at hbit

/-- R179: the one request of the two controllers, on a line of the master's own that is not masked, is its output. -/
theorem intOut_master_of_request (hr : s.master.init = .ready) (hp : p ≠ s.cfg.cascadeLine) (hirr : s.master.irr = bit8 p)
    (hz : s.slave.irr = 0#8) (hidle : s.master.isr = 0#8) (hmask : s.master.imr.getLsbD p.val = false) :
    intOut s .master = some p := by
  refine (interruptOutput s .master p (· = p) fun j => ?_).2
    ⟨hr, rfl, fun j hj => hj.ne, fun q _ => by rw [State.pic_master, hidle]; exact BitVec.getLsbD_zero⟩
  rw [intOut_slave_of_noRequest hz, State.pic_master, hirr, bit8_bit]
  constructor
  · rintro rfl
    exact ⟨by simp [hp], hmask⟩
  · split
    · simp
    · exact And.left

/-- R177: the first request of a `Ready` master. -/
theorem request_of_noRequest (hr : s.master.init = .ready) (hz : s.master.irr = 0#8) :
    request .master p s = s.setPic .master { s.master with irr := bit8 p } := by
  rw [request_of_ready p (by exact hr), State.pic_master, hz, setBit_zero_eq_bit8]

/-- R181: its acceptance, with nothing in service before. -/
theorem takeLine_of_request (hidle : s.master.isr = 0#8) :
    takeLine .master p (s.setPic .master { s.master with irr := bit8 p }) =
      s.setPic .master { s.master with irr := 0#8, isr := bit8 p } := by
  rw [takeLine, State.pic_master, State.setPic_master_master, hidle, setBit_zero_eq_bit8, setBit_bit8_self]
  rfl

/-- R330: the entry through a table entry with a handler and no stack of its own. -/
theorem trapEntry_of_entry {v : Byte} {code : Option XWord} (ha : s.idtActive = true) (he : s.entry v = ⟨h, none⟩)
    (hu : h ≠ .unhandled) : trapEntry v code s = enterHandler s h code := by
  rw [trapEntry_enter ha (by rw [he]; exact hu) (.inl (by rw [he])), he]

/-- R296, R330: the request is accepted, and its handler entered. -/
theorem Delivers.exec_inta (hd : Delivers s p h) : exec .inta (request .master p s) = .next (delivered s p h) := by
  obtain ⟨hs, hn, hh, _⟩ := hd.mainline
  rw [request_of_noRequest hd.master hd.noRequest]
  have hout : intOut (s.setPic .master { s.master with irr := bit8 p }) .master = some p :=
    intOut_master_of_request hd.master hd.notCascade rfl hd.noSlaveRequest hd.idle hd.unmasked
  have hentry : s.entry (lineVector s.master.offset p) = ⟨h, none⟩ := by rw [hd.offset, hd.entry]
  rw [exec_inta_of_accept (by exact hs) (by exact hn) (by exact hh) (by exact hd.enabled)
    (accept_of_master hout hd.notCascade), takeLine_of_request hd.idle]
  exact congrArg _ (trapEntry_of_entry (by exact hd.active) (by exact hentry) hd.handled)

/-! ## The return -/

theorem Pic.cleared_eq_self {q : Pic} (hirr : q.irr = 0#8) (hisr : q.isr = 0#8) :
    { q with irr := 0#8, isr := 0#8 } = q := by
  cases q
  cases hirr
  cases hisr
  rfl

/-- R333: the return from the entry restores the CPU of mainline. -/
theorem restoredCpu_delivered (hm : s.Mainline) : restoredCpu (delivered s p h) ⟨h, s.frame, none⟩ = s.cpu := by
  obtain ⟨_, hn, _, hw⟩ := hm
  change (⟨s.cpu.ip, s.cpu.sp, s.cpu.flags, none, s.cpu.halted, false⟩ : Cpu) = s.cpu
  rw [← hn, ← hw]

/-- R176, R382: the acknowledgment takes the line out of service. -/
theorem Delivers.eoi_master (hd : Delivers s p h) :
    { (delivered s p h).master with isr := eoiIsr (delivered s p h).master.isr } = s.master :=
  (congrArg (fun v => { s.master with irr := 0#8, isr := v }) (eoiIsr_bit8 p)).trans
    (Pic.cleared_eq_self hd.noRequest hd.idle)

/-- R190: the vector of the line is the master's alone: one acknowledgment, which brings the master back to where it was. -/
theorem Delivers.acked_eq (hd : Delivers s p h) (hm : t.master = (delivered s p h).master) (hsl : t.slave = s.slave)
    (hc : t.cfg = s.cfg) :
    acked t (lineVector s.cfg.irqBase p) =
      { t with iolog := t.iolog ++ [.output s.cfg.pic1Cmd s.cfg.eoiCmd], master := s.master } := by
  obtain ⟨hlo, _, hmod⟩ := Config.valid_base hd.valid
  have hmaster : vectorOf t.master.offset (lineVector s.cfg.irqBase p) := by
    rw [hm]
    exact hd.offset ▸ vectorOf_lineVector ((offsetOk_iff _).2 ⟨hmod, hlo⟩) p
  rw [acked_master (by rw [hsl]; exact hd.notSlave) hmaster, hc, hm, hd.eoi_master]

/-- R258: `write_string` changes the memory and the writer alone. -/
theorem writeBytes_eq (bs : List Byte) (s : State) :
    writeBytes bs s = { s with mem := (writeBytes bs s).mem, writer := (writeBytes bs s).writer } :=
  writeBytes_of_sameScreen ⟨rfl, rfl, rfl⟩ bs

/-- R202: what is left of the interrupt after a body that made the keyboard `k` and the log `l` and wrote `bs`, its
acknowledgment and the return. -/
theorem Delivers.returned (hd : Delivers s p h) (bs : List Byte) (k : Kbd) (l : List IoEvent) :
    (acked (writeBytes bs { delivered s p h with kbd := k, iolog := l }) (lineVector s.cfg.irqBase p)).setCpu
        (restoredCpu (delivered s p h) ⟨h, s.frame, none⟩) =
      { writeBytes bs s with kbd := k, iolog := l ++ [.output s.cfg.pic1Cmd s.cfg.eoiCmd] } := by
  have hout := writeBytes_sameButScreen bs { delivered s p h with kbd := k, iolog := l }
  have hscreen : SameScreen s { delivered s p h with kbd := k, iolog := l } := ⟨rfl, rfl, rfl⟩
  rw [hd.acked_eq hout.master hout.slave hout.cfg, restoredCpu_delivered hd.mainline,
    writeBytes_of_sameScreen hscreen, writeBytes_eq bs s]
  rfl

/-! ## The two cycles -/

theorem execAll_of_next {i : Instr} (is : List Instr) (hx : exec i s = .next t) : execAll (i :: is) s = execAll is t := by
  rw [execAll, hx]

theorem lineVector_zero (o : Byte) : lineVector o 0 = o := BitVec.add_zero o

/-- Settles O59: line 0 is delivered, `HRUN` is what `hrunTimer` says, and the rest of the machine is back where it was. -/
theorem timerCycle : Obligations.TimerCycle := by
  intro s hm hv hIF ha he hma hsl ho hns hr hsr hi hmask hw hp
  have hd : Delivers s 0 .timer :=
    ⟨hm, hv, hIF, ha, by rwa [lineVector_zero], by decide, (Config.valid_cascade hv).1.symm, hma, hsl, ho,
      by rwa [lineVector_zero], hr, hsr, hi, hmask⟩
  have ⟨hs, _, hh, _⟩ := hm
  have hirq : exec (.irq 0) s = .next (request .master 0 s) :=
    exec_irq_admitted hs (fun h => hd.notCascade (Fin.ext h)) (by decide)
  obtain ⟨hready, _⟩ := hrunTimer (delivered s 0 .timer) _ hs rfl hh rfl hv hw hp
  rw [execAll_of_next _ hirq, execAll_of_next _ hd.exec_inta, execAll_of_next _ (hready hma hsl)]
  have hback := hd.returned [s.cfg.heartbeat] s.kbd s.iolog
  rw [lineVector_zero] at hback
  refine congrArg Host.Outcome.next (hback.trans ?_)
  rw [← (writeByte_sameButScreen s.cfg.heartbeat s).kbd]
  rfl

/-- Settles O60: line 1 is delivered with the byte in the buffer, and `HRUN` is what `hrunKeyboard` says of a full buffer. -/
theorem keyboardCycle : Obligations.KeyboardCycle := by
  intro s b d out hm hv hIF ha he hma hsl ho hns hr hsr hi hmask hw hk hp hb hdec
  have hd : Delivers (s.setObuf (some b)) 1 .keyboard :=
    ⟨hm, hv, hIF, ha, he, by decide, (Config.valid_cascade hv).2.symm, hma, hsl, ho, hns, hr, hsr, hi, hmask⟩
  have ⟨hs, _, hh, _⟩ := hm
  obtain ⟨hfull, _⟩ := hrunKeyboard.2 (delivered (s.setObuf (some b)) 1 .keyboard) _ hs rfl hh rfl hv hk hp
  obtain ⟨hready, _⟩ := hfull b d out _ rfl hdec (.inl hw) rfl
  rw [execAll_of_next _ (exec_key_of_empty b hs hb), execAll_of_next _ hd.exec_inta,
    execAll_of_next _ (hready hma hsl)]
  have hback := hd.returned out ⟨none, d⟩ (s.iolog ++ [.input s.cfg.kbdPort b])
  have hscreen : SameScreen s (s.setObuf (some b)) := ⟨rfl, rfl, rfl⟩
  refine congrArg Host.Outcome.next (hback.trans ?_)
  rw [writeBytes_of_sameScreen hscreen, writeBytes_eq out s, List.append_assoc]
  rfl

end Sys2Proof.Machine
end

section
/-! PROOFS. The keyboard decoder's two stages as commands of mainline (R113, R211 to R215): each carries what its function does
to the decoder over to the machine. -/

namespace Sys2Proof.Machine

open Sys2Proof

variable {s : State} {b : Byte} {k : KeyId} {st : KeyState} {d : Decoder}

/-! ## The first stage -/

/-- R113, R211: the hardware's own byte runs as `ADDBYTE` of that byte. -/
theorem exec_of_scancodeByte {i : Instr}
    (hi : i = .addbyte b ∨ i = .scanPrefix b ∨ ∃ r c, i = .scanKey r c ∧ BitVec.ofBool r ++ c = b) :
    exec i s = execAddbyte b s := by
  obtain rfl | rfl | ⟨r, c, rfl, rfl⟩ := hi <;> rfl

theorem execAddbyte_of_free {ev : Option KeyEvent} (hm : s.Mainline) (hl : s.locks.kbd = .free)
    (h : (addByte s.cfg s.kbd.dec b).1 = d ∧ (addByte s.cfg s.kbd.dec b).2 = ev) :
    execAddbyte b s = .next { s with kbd := { s.kbd with dec := d }, result := some (.keyEvent ev) } := by
  obtain ⟨rfl, rfl⟩ := h
  rw [execAddbyte, whenMainline_of_mainline hm, whenFree_of_free (r := .keyboard) hl]
  rfl

theorem execAddbyte_of_held (hm : s.Mainline) (hl : s.locks.kbd = .heldByMainline) :
    execAddbyte b s = .fault (.notEnabled (.lockHeld .keyboard)) := by
  rw [execAddbyte, whenMainline_of_mainline hm, whenFree_of_held (r := .keyboard) hl]

/-- Settles O56: whichever instruction brings the byte, the three cases of the first stage (`addsByte_addByte`). -/
theorem addbyteResult : Obligations.AddbyteResult := by
  intro s b i st out hm hi hst hout
  obtain ⟨hprefix, hcode, hcont⟩ := addsByte_addByte s.cfg s.kbd.dec b st hst
  rw [exec_of_scancodeByte hi]
  simp only [hout]
  exact ⟨fun hl hd hb => execAddbyte_of_free hm hl (hprefix hd hb),
    fun hl hd hb => execAddbyte_of_free hm hl (hcode hd hb),
    fun hl hd => execAddbyte_of_free hm hl (hcont hd),
    execAddbyte_of_held hm⟩

/-! ## The second stage -/

/-- R215: the keys the tables produce, over every code of seven bits. -/
theorem producible_iff (cfg : Config) (k : KeyId) :
    producible cfg k = true ↔ ∃ c, cfg.keyMap1.lookup c = some k ∨ cfg.keyMapExt.lookup c = some k := by
  simp only [producible, List.any_eq_true, List.mem_range, Bool.or_eq_true, beq_iff_eq]
  constructor
  · rintro ⟨n, _, h⟩
    exact ⟨BitVec.ofNat 7 n, h⟩
  · rintro ⟨c, h⟩
    exact ⟨c.toNat, c.isLt, by rwa [BitVec.ofNat_toNat, BitVec.setWidth_eq]⟩

theorem exec_process_of_held (hm : s.Mainline) (hl : s.locks.kbd = .heldByMainline) :
    exec (.process k st) s = .fault (.notEnabled (.lockHeld .keyboard)) := by
  rw [exec, execProcess, whenMainline_of_mainline hm, whenFree_of_held (r := .keyboard) hl]

/-- R215: a key no table produces. -/
theorem exec_process_of_not_producible (hm : s.Mainline) (hl : s.locks.kbd = .free) (hk : ¬ producible s.cfg k = true) :
    exec (.process k st) s = .next (s.stopAt .rKeyId) := by
  rw [exec, execProcess, whenMainline_of_mainline hm, whenFree_of_free (r := .keyboard) hl, if_neg hk]

theorem exec_process_of_producible {r : Option DecodedKey} (hm : s.Mainline) (hl : s.locks.kbd = .free)
    (hk : producible s.cfg k = true)
    (h : (processKey s.cfg s.kbd.dec ⟨k, st⟩).1 = d ∧ (processKey s.cfg s.kbd.dec ⟨k, st⟩).2 = r) :
    exec (.process k st) s = .next { s with kbd := { s.kbd with dec := d }, result := some (.decoded r) } := by
  obtain ⟨rfl, rfl⟩ := h
  rw [exec, execProcess, whenMainline_of_mainline hm, whenFree_of_free (r := .keyboard) hl, if_pos hk]
  rfl

/-- Settles O57: by the lock, by whether a table produces the key, then by its role (`processesKey_processKey`) and, for a
press of a key without a role, the row of `Layout`. -/
theorem processResult : Obligations.ProcessResult := by
  refine ⟨fun s k st hm hl => exec_process_of_held hm hl, fun s k st out hm hl hout => ⟨fun hk => ?_, fun hk => ?_⟩⟩
  · exact exec_process_of_not_producible hm hl (mt (producible_iff s.cfg k).1 hk)
  · have hrun {d r} (h : (processKey s.cfg s.kbd.dec ⟨k, st⟩).1 = d ∧ (processKey s.cfg s.kbd.dec ⟨k, st⟩).2 = r) :
        exec (.process k st) s = .next (out d r) := by
      rw [hout, exec_process_of_producible hm hl ((producible_iff s.cfg k).2 hk) h]
    obtain ⟨hlshift, hrshift, hlctrl, hrctrl, hcapsPress, hcapsRelease, hrelease, hpress⟩ :=
      processesKey_processKey s.cfg s.kbd.dec ⟨k, st⟩
    refine ⟨fun h => hrun (hlshift h), fun h => hrun (hrshift h), fun h => hrun (hlctrl h), fun h => hrun (hrctrl h),
      fun h hs => hrun (hcapsPress h hs), fun h hs => hrun (hcapsRelease h hs), fun h hs => hrun (hrelease h hs),
      fun h hs => ?_⟩
    obtain ⟨hd, dk, hr, hraw, hrow⟩ := hpress h hs
    have hshown {dk'} (e : dk = dk') : exec (.process k st) s = .next (out s.kbd.dec (some dk')) :=
      hrun ⟨hd, hr.trans (congrArg some e)⟩
    refine ⟨fun hn => hshown (hraw hn), fun row h => ?_⟩
    obtain ⟨hplain, hshifted, hcapsed, hboth⟩ := hrow row h
    exact ⟨fun hs hc => hshown (hplain hs hc), fun hs hc => hshown (hshifted hs hc),
      fun hs hc => hshown (hcapsed hs hc), fun hs hc => hshown (hboth hs hc)⟩

end Sys2Proof.Machine
end

section
/-! PROOFS. The display driver's commands (R251 to R261): what each command does to the bytes and the cells, and bytes written one
after another. -/

namespace Sys2Proof.Machine

open Sys2Proof

variable {s t : State} {b : Byte}

/-! ## The commands in mainline -/

theorem exec_scroll_of_free (hm : s.Mainline) (hl : s.locks.writer = .free) : exec .scroll s = .next (scroll s) := by
  rw [exec, execScroll, whenMainline_of_mainline hm, whenFree_of_free (r := .writer) hl]

theorem exec_scroll_of_held (hm : s.Mainline) (hl : s.locks.writer = .heldByMainline) :
    exec .scroll s = .fault (.notEnabled (.lockHeld .writer)) := by
  rw [exec, execScroll, whenMainline_of_mainline hm, whenFree_of_held (r := .writer) hl]

theorem exec_wrbyte_of_free (b : Byte) (hm : s.Mainline) (hl : s.locks.writer = .free) :
    exec (.wrbyte b) s = .next (writeByte b s) := by
  rw [exec, execWrbyte, whenMainline_of_mainline hm, whenFree_of_free (r := .writer) hl]

theorem exec_wrbyte_of_held (b : Byte) (hm : s.Mainline) (hl : s.locks.writer = .heldByMainline) :
    exec (.wrbyte b) s = .fault (.notEnabled (.lockHeld .writer)) := by
  rw [exec, execWrbyte, whenMainline_of_mainline hm, whenFree_of_held (r := .writer) hl]

/-- A step that changes the screen alone, its cursor at `c`, as one update. -/
theorem SameButScreen.eq_of_col {c : Nat} (h : SameButScreen s t) (hc : t.writer.col = c) :
    t = { s with mem := t.mem, writer := { s.writer with col := c } } := by
  rw [← hc]
  exact h

/-- The driver leaves the machine in mainline. -/
theorem SameButScreen.mainline (h : SameButScreen s t) (hm : s.Mainline) : t.Mainline := by
  rw [State.Mainline, h.stop, h.cpu]
  exact hm

theorem SameButScreen.writerLock (h : SameButScreen s t) (hl : s.locks.writer = .free) : t.locks.writer = .free := by
  rw [h.locks, hl]

theorem SameButScreen.ne_newline (h : SameButScreen s t) (hb : b ≠ s.cfg.newline) : b ≠ t.cfg.newline := by
  rwa [h.cfg]

/-! ## `Scroll` -/

/-- Settles O53: the frame, the cells and the bytes outside the region are those of `scroll`. -/
theorem scrollResult : Obligations.ScrollResult := fun s hm hl =>
  ⟨scroll s, exec_scroll_of_free hm hl, (scroll_sameButScreen s).eq_of_col (scroll_col s), fbCell_scroll s,
    fun _ => fbByte_scroll_outside⟩

/-! ## `WriteByte`, byte by byte -/

/-- R67: every byte after a 16-bit write. -/
theorem fbByte_putHalf (s : State) (a c : Nat) (v : Half) :
    fbByte (putHalf s a v) c = if c = a then cellChar v else if c = a + 1 then cellAttr v else fbByte s c := by
  split_ifs with h h'
  · subst h
    rw [putHalf, fbByte_putByte_other _ _ (Nat.ne_of_lt (Nat.lt_succ_self c)), fbByte_putByte_same]
  · subst h'
    rw [putHalf, fbByte_putByte_same]
  · exact fbByte_putHalf_other s v h h'

/-- R251: with the cursor inside the row a byte other than the newline puts its glyph. -/
theorem writeByte_of_lt (hb : b ≠ s.cfg.newline) (hc : s.writer.col < Config.fbCols) :
    writeByte b s = putGlyph s (glyph s.cfg b) := by
  rw [writeByte, if_neg hb, scrollIfFull, if_neg (Nat.not_le.2 hc)]

/-- R251: every byte after a glyph is put. -/
theorem fbByte_putGlyph (s : State) (g : Byte) (a : Nat) :
    fbByte (putGlyph s g) a =
      if a = cellAddr s.cfg (Config.fbRows - 1) s.writer.col then g
      else if a = cellAddr s.cfg (Config.fbRows - 1) s.writer.col + 1 then s.writer.color else fbByte s a := by
  rw [putGlyph, fbByte_congr (State.setCol_mem ..) (State.setCol_cfg ..), putCell, fbByte_putHalf, cellChar_mkCell,
    cellAttr_mkCell]

/-- Settles O52: by the lock, then by whether the byte is the newline, then by whether the cursor is inside the row. -/
theorem wrbyteResult : Obligations.WrbyteResult := by
  refine ⟨fun s b hm hl => ⟨exec_wrbyte_of_held b hm hl, exec_scroll_of_held hm hl⟩, fun s b hm hl => ?_⟩
  rw [exec_wrbyte_of_free b hm hl, exec_scroll_of_free hm hl]
  refine ⟨fun hb => by rw [writeByte, if_pos hb], ?_, fun hb hc => ⟨scroll s, rfl, ?_⟩⟩
  · rintro hb hc g at24 rfl rfl
    rw [writeByte_of_lt hb hc]
    exact ⟨_, rfl, (putGlyph_sameButScreen ..).eq_of_col rfl, fbByte_putGlyph s _⟩
  · have hs := scroll_sameButScreen s
    rw [exec_wrbyte_of_free b (hs.mainline hm) (hs.writerLock hl), writeByte_full hb hc]

/-! ## `WriteByte`, cell by cell -/

/-- R251, R255: past the last column a byte other than the newline scrolls and goes to the first cell of the last row. -/
theorem fbCell_writeByte_full (hb : b ≠ s.cfg.newline) (hc : Config.fbCols ≤ s.writer.col) {q d : Nat}
    (hq : q < Config.fbRows) (hd : d < Config.fbCols) :
    fbCell (writeByte b s) q d =
      if q = Config.fbRows - 1 then (if d = 0 then mkCell s.writer.color (glyph s.cfg b) else blankCell s)
      else fbCell s (q + 1) d := by
  have hs := scroll_sameButScreen s
  rw [writeByte_full hb hc, fbCell_writeByte (hs.ne_newline hb) (by simp [Config.fbCols]) q d hd, fbCell_scroll s q d hq hd,
    hs.color, hs.cfg, scroll_col]
  by_cases h : q = Config.fbRows - 1 <;> simp [h]

/-- R251, R255: the cursor is then behind that first cell. -/
theorem writeByte_col_of_full (hb : b ≠ s.cfg.newline) (hc : Config.fbCols ≤ s.writer.col) :
    (writeByte b s).writer.col = 1 := by
  have hs := scroll_sameButScreen s
  rw [writeByte_full hb hc, writeByte_col_of_lt (hs.ne_newline hb) (by simp [Config.fbCols]), scroll_col]

/-- R251: the column a byte other than the newline goes to. -/
def glyphCol (s : State) : Nat := if s.writer.col < 80 then s.writer.col else 0

theorem glyphCol_lt (s : State) : glyphCol s < Config.fbCols := by
  unfold glyphCol Config.fbCols
  split <;> omega

/-- R252: the cell a byte other than the newline goes to holds its glyph in the current colour. -/
theorem fbCell_writeByte_at_cursor (hb : b ≠ s.cfg.newline) :
    fbCell (writeByte b s) (Config.fbRows - 1) (glyphCol s) = mkCell s.writer.color (glyph s.cfg b) := by
  have hd := glyphCol_lt s
  by_cases hc : s.writer.col < Config.fbCols
  · have e : glyphCol s = s.writer.col := if_pos hc
    rw [fbCell_writeByte hb hc _ _ hd, if_pos ⟨rfl, e⟩]
  · have e : glyphCol s = 0 := if_neg hc
    rw [fbCell_writeByte_full hb (Nat.not_lt.1 hc) (by decide) hd, if_pos rfl, if_pos e]

/-- R253: a printable byte is its own glyph. -/
theorem glyph_of_printable {cfg : Config} (hlo : cfg.printLo.toNat ≤ b.toNat) (hhi : b.toNat ≤ cfg.printHi.toNat) :
    glyph cfg b = b := if_pos ⟨hlo, hhi⟩

/-- R9(d): a printable byte is not the newline. -/
theorem ne_newline_of_printable {cfg : Config} (hv : cfg.valid = true) (hlo : cfg.printLo.toNat ≤ b.toNat)
    (hhi : b.toNat ≤ cfg.printHi.toNat) : b ≠ cfg.newline := by
  rintro rfl
  have := Config.valid_newline hv
  omega

/-- R283: `MR16` at a cell's offset returns the cell. -/
theorem exec_mr16_cell {r c : Nat} (hm : s.Mainline) (hr : r < Config.fbRows) (hc : c < Config.fbCols) :
    exec (.mr16 (BitVec.ofNat 12 (2 * (80 * r + c)))) s = .next (s.setResult (.half (fbCell s r c))) :=
  exec_mr16_of_mainline hm (by rw [offAddr_cell _ hr hc, memRead2_cell _ hr hc])

/-- Settles O54: the cell read is the one the byte went to (`glyphCol`), and a printable byte is its own glyph. -/
theorem writtenByteReadsBack : Obligations.WrittenByteReadsBack := by
  intro s b hm hv hl hlo hhi _
  have hread := exec_mr16_cell (r := Config.fbRows - 1) ((writeByte_sameButScreen b s).mainline hm) (by decide)
    (glyphCol_lt s)
  rw [fbCell_writeByte_at_cursor (ne_newline_of_printable hv hlo hhi), glyph_of_printable hlo hhi] at hread
  exact ⟨writeByte b s, exec_wrbyte_of_free b hm hl, hread⟩

/-! ## Bytes one after another -/

/-- R258: `WRBYTE` of each byte is `write_string`. -/
theorem execAll_wrbytes (bs : List Byte) (hm : s.Mainline) (hl : s.locks.writer = .free) :
    execAll (bs.map .wrbyte) s = .next (writeBytes bs s) := by
  induction bs generalizing s with
  | nil => rfl
  | cons b bs ih =>
    have hs := writeByte_sameButScreen b s
    rw [List.map_cons, execAll_of_next _ (exec_wrbyte_of_free b hm hl), ih (hs.mainline hm) (hs.writerLock hl)]
    rfl

theorem writeBytes_concat (bs : List Byte) (b : Byte) (s : State) :
    writeBytes (bs ++ [b]) s = writeByte b (writeBytes bs s) := List.foldl_concat ..

/-- R251: bytes that fit in the row, from its first column: the cursor and every cell after them. -/
theorem writeBytes_row (bs : List Byte) (h0 : s.writer.col = 0) (hn : ∀ b ∈ bs, b ≠ s.cfg.newline)
    (hfit : bs.length ≤ Config.fbCols) :
    (writeBytes bs s).writer.col = bs.length ∧
    ∀ q d, d < Config.fbCols → fbCell (writeBytes bs s) q d =
      if q = Config.fbRows - 1 ∧ d < bs.length then mkCell s.writer.color (glyph s.cfg (bs.getD d 0#8))
      else fbCell s q d := by
  induction bs using List.reverseRecOn with
  | nil => exact ⟨h0, by simp [writeBytes]⟩
  | append_singleton bs b ih =>
    rw [List.length_append, List.length_singleton] at hfit
    obtain ⟨hcol, hcell⟩ := ih (fun x hx => hn x (List.mem_append_left _ hx)) (by omega)
    have hs := writeBytes_sameButScreen bs s
    have hb : b ≠ (writeBytes bs s).cfg.newline := hs.ne_newline (hn b (by simp))
    have hin : (writeBytes bs s).writer.col < Config.fbCols := by omega
    rw [writeBytes_concat, List.length_append, List.length_singleton]
    refine ⟨by rw [writeByte_col_of_lt hb hin, hcol], fun q d hd => ?_⟩
    rw [fbCell_writeByte hb hin q d hd, hcell q d hd, hs.color, hs.cfg, hcol]
    rcases Nat.lt_trichotomy d bs.length with h | rfl | h
    · simp [h, Nat.ne_of_lt h, Nat.lt_succ_of_lt h]
    · simp
    · have : ¬ d < bs.length + 1 := by omega
      simp [this, Nat.ne_of_gt h, Nat.not_lt_of_gt h]

/-- Settles O55: the first 80 bytes fill the last row, and the last byte, met with the cursor past the last column, scrolls. -/
theorem eightyOneBytes : Obligations.EightyOneBytes := by
  intro s bs hm hl h0 hlen hn
  obtain ⟨row, last, rfl⟩ : ∃ row last, bs = row ++ [last] :=
    ⟨_, _, (List.dropLast_concat_getLast (List.ne_nil_of_length_pos (by omega))).symm⟩
  have hrow : row.length = 80 := by simpa using hlen
  obtain ⟨hcol, hcell⟩ := writeBytes_row row h0 (fun b hb => hn b (List.mem_append_left _ hb)) hrow.le
  have hs := writeBytes_sameButScreen row s
  have hb : last ≠ (writeBytes row s).cfg.newline := hs.ne_newline (hn last (by simp))
  have hfull : Config.fbCols ≤ (writeBytes row s).writer.col := (hcol.trans hrow).ge
  have hlast : (row ++ [last]).getD 80 0#8 = last := by simp [hrow]
  refine ⟨_, execAll_wrbytes _ hm hl, ?_, fun r c hr hc => ?_⟩
  · rw [writeBytes_concat, writeByte_col_of_full hb hfull]
  rw [writeBytes_concat, fbCell_writeByte_full hb hfull hr hc, hcell _ c hc, List.getD_append _ _ _ c (hrow ▸ hc), hlast,
    blankCell, hs.color, hs.cfg]
  have h23 : r + 1 = Config.fbRows - 1 ∧ c < row.length ↔ r = 23 := by simp [Config.fbRows, hrow, hc]
  simp only [h23, ← apply_ite (mkCell s.writer.color)]
  rfl

end Sys2Proof.Machine
end

section
/-! PROOFS. The operations of mainline and the device events (R177, R203, R286): when each kind is enabled, and the frame of every
instruction, carried through the shared operations as one relation. -/

namespace Sys2Proof.Machine

open Sys2Proof

variable {s t u : State} {ps qs : List StatePart}

/-! ## When they are enabled -/

/-- R177: outside its two refused lines `IRQ` is a request. -/
theorem exec_irq_of_running (n : Fin 16) (hs : s.stop = none) :
    exec (.irq n) s = if n.val = s.cfg.cascadeLine.val ∨ n.val = 1 then .next (s.stopAt .rLine)
      else .next (request (lineCtrl n) (lineInput n) s) :=
  whenRunning_of_running hs _

/-- Settles O14: mainline operations ask for mainline; the device events only for a running machine, `KEY` for an empty buffer
as well. -/
theorem mainlineOnly : Obligations.MainlineOnly := by
  refine ⟨fun i s t hi h => mainline_of_exec hi h, fun s n hs => ?_, fun s b hs ho => ⟨_, exec_key_of_empty b hs ho⟩⟩
  rw [exec_irq_of_running n hs]
  split
  · exact ⟨_, rfl⟩
  · exact ⟨_, rfl⟩

/-! ## Same outside some parts -/

theorem sameIn_refl (s : State) (p : StatePart) : sameIn s s p := by
  cases p
  case table | controllers | keyboardBuffer => exact ⟨rfl, rfl⟩
  case memory => exact ⟨rfl, fun _ => rfl⟩
  all_goals rfl

theorem sameIn_trans {p : StatePart} (h : sameIn s t p) (k : sameIn t u p) : sameIn s u p := by
  cases p
  case table | controllers | keyboardBuffer => exact ⟨k.1.trans h.1, k.2.trans h.2⟩
  case memory => exact ⟨k.1.trans h.1, fun a => (k.2 a).trans (h.2 a)⟩
  all_goals exact k.trans h

/-- Every part of the state that is not listed reads the same in `t` as in `s`. -/
structure SameOutside (ps : List StatePart) (s t : State) : Prop where
  same : ∀ p, p ∉ ps → sameIn s t p

theorem SameOutside.refl (s : State) : SameOutside ps s s := ⟨fun p _ => sameIn_refl s p⟩

theorem SameOutside.trans (h : SameOutside ps s t) (k : SameOutside ps t u) : SameOutside ps s u :=
  ⟨fun p hp => sameIn_trans (h.same p hp) (k.same p hp)⟩

/-- A longer list says less. -/
theorem SameOutside.mono (h : SameOutside ps s t) (hs : ps ⊆ qs := by simp [writes]) : SameOutside qs s t :=
  ⟨fun p hp => h.same p fun hm => hp (hs hm)⟩

/-! ## By what an operation changes -/

theorem stopAt_sameOutside (ps : List StatePart) (s : State) (r : StopReason) : SameOutside ps s (s.stopAt r) := by
  refine ⟨fun p _ => ?_⟩
  have same := sameIn_refl s p
  cases p <;> exact same

/-- `s` with part `p` as it is in `t`. -/
def State.takePart (s t : State) : StatePart → State
  | .cpu => { s with cpu := t.cpu }
  | .table => { s with ivt := t.ivt, ivtBuilt := t.ivtBuilt }
  | .tableActive => { s with idtActive := t.idtActive }
  | .controllers => { s with master := t.master, slave := t.slave }
  | .keyboardBuffer => { s with kbd := { s.kbd with obuf := t.kbd.obuf }, draws := t.draws }
  | .decoder => { s with kbd := { s.kbd with dec := t.kbd.dec } }
  | .memory => { s with mem := t.mem }
  | .cursor => { s with writer := { s.writer with col := t.writer.col } }
  | .locks => { s with locks := t.locks }
  | .diag => { s with diag := t.diag }
  | .iolog => { s with iolog := t.iolog }
  | .result => { s with result := t.result }

/-- The parts are apart: a change of one leaves every other. -/
theorem takePart_sameOutside (s t : State) (p : StatePart) : SameOutside [p] s (s.takePart t p) := by
  refine ⟨fun q hq => ?_⟩
  have hne : q ≠ p := by simpa using hq
  have same := sameIn_refl s q
  cases p <;> cases q <;> simp at hne <;> exact same

theorem setCpu_sameOutside (s : State) (c : Cpu) : SameOutside [.cpu] s (s.setCpu c) :=
  takePart_sameOutside s (s.setCpu c) .cpu

theorem setResult_sameOutside (s : State) (v : Result) : SameOutside [.result] s (s.setResult v) :=
  takePart_sameOutside s (s.setResult v) .result

theorem setMem_sameOutside (s : State) (m : Memory) : SameOutside [.memory] s (s.setMem m) :=
  takePart_sameOutside s (s.setMem m) .memory

theorem setCol_sameOutside (s : State) (c : Nat) : SameOutside [.cursor] s (s.setCol c) :=
  takePart_sameOutside s (s.setCol c) .cursor

theorem setObuf_sameOutside (s : State) (b : Option Byte) : SameOutside [.keyboardBuffer] s (s.setObuf b) :=
  takePart_sameOutside s (s.setObuf b) .keyboardBuffer

theorem setDec_sameOutside (s : State) (d : Decoder) : SameOutside [.decoder] s (s.setDec d) :=
  takePart_sameOutside s (s.setDec d) .decoder

theorem pushLog_sameOutside (s : State) (e : IoEvent) : SameOutside [.iolog] s (s.pushLog e) :=
  takePart_sameOutside s (s.pushLog e) .iolog

theorem pushDiag_sameOutside (s : State) (d : DiagRecord) : SameOutside [.diag] s (s.pushDiag d) :=
  takePart_sameOutside s (s.pushDiag d) .diag

/-- R293, R294: one lock changes, and nothing else of the machine. -/
theorem setLock_eq (s : State) (r : Resource) (v : LockState) :
    s.setLock r v = { s with locks := (s.setLock r v).locks } := by
  cases r <;> rfl

theorem setLock_sameOutside (s : State) (r : Resource) (v : LockState) : SameOutside [.locks] s (s.setLock r v) := by
  rw [setLock_eq]
  exact takePart_sameOutside s (s.setLock r v) .locks

theorem setTable_sameOutside (s : State) (table : Vector Entry 256) :
    SameOutside [.table] s { s with ivt := table, ivtBuilt := true } :=
  takePart_sameOutside s { s with ivt := table, ivtBuilt := true } .table

theorem setActive_sameOutside (s : State) : SameOutside [.tableActive] s { s with idtActive := true } :=
  takePart_sameOutside s { s with idtActive := true } .tableActive

/-- What port writes do: they change controllers and the log. -/
theorem SameButPic.sameOutside (h : SameButPic s t) : SameOutside [.controllers, .iolog] s t := by
  refine ⟨fun p hp => ?_⟩
  cases p with
  | controllers | iolog => simp at hp
  | cpu => exact h.cpu
  | table => exact ⟨h.ivt, h.ivtBuilt⟩
  | tableActive => exact h.idtActive
  | keyboardBuffer => exact ⟨congrArg Kbd.obuf h.kbd, h.draws⟩
  | decoder => exact congrArg Kbd.dec h.kbd
  | memory => exact ⟨h.mem, fbByte_congr h.mem h.cfg⟩
  | cursor => exact congrArg Writer.col h.writer
  | locks => exact h.locks
  | diag => exact h.diag
  | result => exact h.result

/-- What a request or an acceptance does: nothing is logged. -/
theorem SameButPic.sameOutside_unlogged (h : SameButPic s t) (hl : t.iolog = s.iolog) : SameOutside [.controllers] s t := by
  refine ⟨fun p hp => ?_⟩
  by_cases hlog : p = .iolog
  · rw [hlog]
    exact hl
  · exact h.sameOutside.same p (by simpa [hlog] using hp)

theorem SameButScreen.sameOutside (h : SameButScreen s t) : SameOutside [.memory, .cursor] s t := by
  rw [h]
  exact (setMem_sameOutside ..).mono.trans (setCol_sameOutside ..).mono

/-! ## The shared operations -/

/-- R64: the write, or the stop. -/
theorem memWrite2_sameOutside (s : State) (a : Nat) (v : Half) : SameOutside [.memory] s (memWrite2 s a v) := by
  unfold memWrite2
  split
  · exact setMem_sameOutside ..
  · exact stopAt_sameOutside ..

/-- R66: the write, or the stop. -/
theorem memWrite1_sameOutside (s : State) (a : Nat) (b : Byte) : SameOutside [.memory] s (memWrite1 s a b) := by
  unfold memWrite1
  split
  · exact setMem_sameOutside ..
  · exact stopAt_sameOutside ..

theorem kbdRead_sameOutside (s : State) : SameOutside [.keyboardBuffer, .iolog] s (kbdRead s) := by
  rw [kbdRead_eq]
  refine ⟨fun p hp => ?_⟩
  have same := sameIn_refl s p
  cases p
  case keyboardBuffer | iolog => simp at hp
  all_goals exact same

theorem portRead_sameOutside (port : Half) (s : State) :
    SameOutside [.keyboardBuffer, .iolog, .result] s (returnByte (portRead port s)) := by
  rcases portRead_cases port s with h | ⟨c, h⟩ | ⟨r, h⟩ <;> rw [h]
  · exact (kbdRead_sameOutside s).mono.trans (setResult_sameOutside ..).mono
  · exact (pushLog_sameOutside ..).mono.trans (setResult_sameOutside ..).mono
  · exact stopAt_sameOutside ..

theorem request_sameOutside (c : Ctrl) (i : Fin 8) (s : State) : SameOutside [.controllers] s (request c i s) := by
  obtain ⟨hsame, hlog, _⟩ := request_same c i s
  exact hsame.sameOutside_unlogged hlog

theorem accept_sameOutside {v : Byte} (h : accept s = some (t, v)) : SameOutside [.controllers] s t := by
  obtain ⟨hsame, hlog, _⟩ := accept_same h
  exact hsame.sameOutside_unlogged hlog

theorem trapEntry_sameOutside (v : Byte) (code : Option XWord) (s : State) : SameOutside [.cpu] s (trapEntry v code s) := by
  rcases trapEntry_frame v code s with ⟨c, e⟩ | ⟨r, e⟩ <;> rw [e]
  · exact setCpu_sameOutside ..
  · exact stopAt_sameOutside ..

theorem trapReturn_sameOutside (s : State) : SameOutside [.cpu] s (trapReturn s) := by
  unfold trapReturn
  split
  · exact .refl s
  · exact setCpu_sameOutside ..

/-- R327: the return that ends a body, unless the body stopped. -/
theorem andThen_trapReturn_sameOutside (s : State) : SameOutside [.cpu] s (s.andThen trapReturn) := by
  rcases State.andThen_cases s trapReturn with ⟨_, e⟩ | ⟨_, e⟩ <;> rw [e]
  · exact trapReturn_sameOutside s
  · exact .refl s

theorem addByteStep_sameOutside (b : Byte) (s : State) : SameOutside [.decoder, .result] s (addByteStep b s) :=
  (setDec_sameOutside ..).mono.trans (setResult_sameOutside ..).mono

/-! ## The handler bodies -/

/-- R200, R201: the end of a device handler's body: the acknowledgment, then the return. -/
theorem ackReturn_sameOutside (v : Byte) (s : State) :
    SameOutside [.controllers, .iolog, .cpu] s ((ackVector v s).andThen trapReturn) :=
  (ack_same v s).sameOutside.mono.trans (andThen_trapReturn_sameOutside ..).mono

theorem keyboardOutput_sameOutside (s : State) :
    SameOutside [.keyboardBuffer, .iolog, .decoder, .memory, .cursor] s (keyboardOutput s) :=
  ((kbdRead_sameOutside s).mono.trans (setDec_sameOutside ..).mono).trans
    (writeBytes_sameButScreen ..).sameOutside.mono

/-- R297: what any of the bodies changes. -/
theorem execHrun_sameOutside (h : execHrun s = .next t) : SameOutside (writes .hrun) s t := by
  obtain ⟨_, _, e, _, _, ⟨_, rfl⟩ | ⟨_, rfl⟩ | ⟨_, rfl⟩ | ⟨_, rfl⟩⟩ := execHrun_next h
  · exact (pushDiag_sameOutside ..).mono.trans (trapReturn_sameOutside ..).mono
  · exact (pushDiag_sameOutside ..).mono.trans (setCpu_sameOutside ..).mono
  · exact (writeByte_sameButScreen ..).sameOutside.mono.trans (ackReturn_sameOutside ..).mono
  · exact (keyboardOutput_sameOutside s).mono.trans (ackReturn_sameOutside ..).mono

/-! ## The instructions -/

theorem exec_sameOutside {i : Instr} (h : exec i s = .next t) : SameOutside (writes i) s t := by
  cases i with
  | iow => obtain ⟨_, rfl⟩ := execIow_next h; exact (portWrite_same ..).sameOutside
  | ior => obtain ⟨_, rfl⟩ := execIor_next h; exact portRead_sameOutside ..
  | mw16 => obtain ⟨_, rfl⟩ := execMw16_next h; exact memWrite2_sameOutside ..
  | mr16 =>
    obtain ⟨_, ⟨_, _, rfl⟩ | ⟨_, rfl⟩⟩ := execMr16_next h
    · exact setResult_sameOutside ..
    · exact stopAt_sameOutside ..
  | mw8 => obtain ⟨_, rfl⟩ := execMw8_next h; exact memWrite1_sameOutside ..
  | mr8 =>
    obtain ⟨_, ⟨_, _, rfl⟩ | ⟨_, rfl⟩⟩ := execMr8_next h
    · exact setResult_sameOutside ..
    · exact stopAt_sameOutside ..
  | irq =>
    obtain ⟨_, ⟨_, rfl⟩ | ⟨_, _, rfl⟩⟩ := execIrq_next h
    · exact stopAt_sameOutside ..
    · exact request_sameOutside ..
  | key => obtain ⟨_, _, rfl⟩ := execKey_next h; exact (setObuf_sameOutside ..).mono.trans (request_sameOutside ..).mono
  | exc => obtain ⟨_, rfl⟩ := execExc_next h; exact trapEntry_sameOutside ..
  | inta =>
    obtain ⟨_, _, _, _, u, v, hu, rfl⟩ := execInta_next h
    exact (accept_sameOutside hu).mono.trans (trapEntry_sameOutside ..).mono
  | hrun => exact execHrun_sameOutside h
  | cli => obtain ⟨_, rfl⟩ := execCli_next h; exact setCpu_sameOutside ..
  | sti =>
    obtain ⟨_, ⟨_, _, _, rfl⟩ | ⟨_, rfl⟩⟩ := execSti_next h
    · exact setCpu_sameOutside ..
    · exact stopAt_sameOutside ..
  | hlt => obtain ⟨_, rfl⟩ := execHlt_next h; exact setCpu_sameOutside ..
  | lock => obtain ⟨_, _, rfl⟩ := execLock_next h; exact setLock_sameOutside ..
  | unlock =>
    obtain ⟨_, ⟨_, rfl⟩ | ⟨_, rfl⟩⟩ := execUnlock_next h
    · exact setLock_sameOutside ..
    · exact stopAt_sameOutside ..
  | build =>
    obtain ⟨_, ⟨_, rfl⟩ | ⟨_, rfl⟩⟩ := execBuild_next h
    · exact stopAt_sameOutside ..
    · exact setTable_sameOutside ..
  | activate =>
    obtain ⟨_, ⟨_, rfl⟩ | ⟨_, _, rfl⟩ | ⟨_, _, rfl⟩⟩ := execActivate_next h
    · exact stopAt_sameOutside ..
    · exact stopAt_sameOutside ..
    · exact setActive_sameOutside s
  | picinit =>
    obtain ⟨_, _, ⟨_, rfl⟩ | ⟨_, rfl⟩⟩ := execPicinit_next h
    · exact (portWrites_same ..).sameOutside
    · exact stopAt_sameOutside ..
  | ack => obtain ⟨_, _, rfl⟩ := execAck_next h; exact (ack_same ..).sameOutside
  | wrbyte => obtain ⟨_, _, rfl⟩ := execWrbyte_next h; exact (writeByte_sameButScreen ..).sameOutside
  | scroll => obtain ⟨_, _, rfl⟩ := execScroll_next h; exact (scroll_sameButScreen s).sameOutside
  | addbyte => obtain ⟨_, _, rfl⟩ := execAddbyte_next h; exact addByteStep_sameOutside ..
  | process =>
    obtain ⟨_, _, ⟨_, rfl⟩ | ⟨_, rfl⟩⟩ := execProcess_next h
    · exact (setDec_sameOutside ..).mono.trans (setResult_sameOutside ..).mono
    · exact stopAt_sameOutside ..
  | icw1 => obtain ⟨_, rfl⟩ := execIcw1_next h; exact (picIcw1_effect ..).same.sameOutside
  | icw2 => obtain ⟨_, rfl⟩ := execIcw2_next h; exact (writeData_effect ..).same.sameOutside
  | icw3Master => obtain ⟨_, rfl⟩ := execIcw3Master_next h; exact (writeData_effect ..).same.sameOutside
  | icw3Slave => obtain ⟨_, rfl⟩ := execIcw3Slave_next h; exact (writeData_effect ..).same.sameOutside
  | icw4 => obtain ⟨_, rfl⟩ := execIcw4_next h; exact (writeData_effect ..).same.sameOutside
  | eoi => obtain ⟨_, rfl⟩ := execEoi_next h; exact (picEoi_effect ..).same.sameOutside
  | ocw1 => obtain ⟨_, rfl⟩ := execOcw1_next h; exact (writeData_effect ..).same.sameOutside
  | scanPrefix => obtain ⟨_, _, rfl⟩ := execScanPrefix_next h; exact addByteStep_sameOutside ..
  | scanKey => obtain ⟨_, _, rfl⟩ := execScanKey_next h; exact addByteStep_sameOutside ..

/-- Settles O18: what is listed is all that each meaning writes (`exec_sameOutside`); the rest no instruction changes. -/
theorem instructionFrames : Obligations.InstructionFrames := by
  intro i s t h
  have k := exec_keeps h
  exact ⟨(exec_sameOutside h).same, k.cfg, k.prog, k.color⟩

end Sys2Proof.Machine
end

section
/-! PROOFS. The accesses to the display memory by offset (R282 to R285) and the reads of a port (R281), in mainline. -/

namespace Sys2Proof.Machine

open Sys2Proof

variable {s : State}

/-! ## Accesses by offset, in the region and outside it -/

/-- R282, R64: a 16-bit write by offset is in the region, or stops. -/
theorem memWrite2_offAddr (s : State) (off : BitVec 12) (d : Half) :
    memWrite2 s (offAddr s.cfg off) d =
      if off.toNat % 2 = 0 ∧ off.toNat < 4000 then putHalf s (offAddr s.cfg off) d else s.stopAt .rMem := by
  simp only [memWrite2, offAddr_half, decide_eq_true_eq]

/-- R283, R63. -/
theorem memRead2_offAddr (s : State) (off : BitVec 12) :
    memRead2 s (offAddr s.cfg off) =
      if off.toNat % 2 = 0 ∧ off.toNat < 4000 then some (fbHalf s (offAddr s.cfg off)) else none := by
  simp only [memRead2, offAddr_half, decide_eq_true_eq]

/-- R284, R66. -/
theorem memWrite1_offAddr (s : State) (off : BitVec 12) (d : Byte) :
    memWrite1 s (offAddr s.cfg off) d =
      if off.toNat < 4000 then putByte s (offAddr s.cfg off) d else s.stopAt .rMem := by
  simp only [memWrite1, offAddr_byte, decide_eq_true_eq]

/-- R285, R65. -/
theorem memRead1_offAddr (s : State) (off : BitVec 12) :
    memRead1 s (offAddr s.cfg off) = if off.toNat < 4000 then some (fbByte s (offAddr s.cfg off)) else none := by
  simp only [memRead1, offAddr_byte, decide_eq_true_eq]

/-- R66: every byte after a byte is written. -/
theorem fbByte_putByte (s : State) (a c : Nat) (v : Byte) :
    fbByte (putByte s a v) c = if c = a then v else fbByte s c := by
  split_ifs with h
  · rw [h, fbByte_putByte_same]
  · exact fbByte_putByte_other s v h

theorem exec_mw8_of_mainline (hm : s.Mainline) (off : BitVec 12) (d : Byte) :
    exec (.mw8 off d) s = .next (memWrite1 s (offAddr s.cfg off) d) :=
  whenMainline_of_mainline hm _

theorem exec_mr16_of_refused {off : BitVec 12} (hm : s.Mainline) (hr : memRead2 s (offAddr s.cfg off) = none) :
    exec (.mr16 off) s = .next (s.stopAt .rMem) := by
  simp only [exec, execMr16, whenMainline_of_mainline hm, hr]

theorem exec_mr8_of_refused {off : BitVec 12} (hm : s.Mainline) (hr : memRead1 s (offAddr s.cfg off) = none) :
    exec (.mr8 off) s = .next (s.stopAt .rMem) := by
  simp only [exec, execMr8, whenMainline_of_mainline hm, hr]

/-- Settles O27: in the region the two bytes of `fbByte_putHalf`, otherwise the stop. -/
theorem mw16Result : Obligations.Mw16Result := by
  intro s off d hm
  rw [exec_mw16_of_mainline hm, memWrite2_offAddr]
  refine ⟨fun he hlt => ?_, fun h => by rw [if_neg h]; rfl⟩
  rw [if_pos ⟨he, hlt⟩]
  exact ⟨_, rfl, rfl, fun a => fbByte_putHalf s _ a d⟩

/-- Settles O28: in the region the byte of `fbByte_putByte`, otherwise the stop. -/
theorem mw8Result : Obligations.Mw8Result := by
  intro s off d hm
  rw [exec_mw8_of_mainline hm, memWrite1_offAddr]
  refine ⟨fun hlt => ?_, fun h => by rw [if_neg (Nat.not_lt.2 h)]; rfl⟩
  rw [if_pos hlt]
  exact ⟨_, rfl, rfl, fun a => fbByte_putByte s _ a d⟩

/-- Settles O29: each read gives a value just where its offset is admitted. -/
theorem memoryReadResults : Obligations.MemoryReadResults := by
  intro s off hm
  refine ⟨fun he hlt => ?_, fun h => ?_, fun hlt => ?_, fun h => ?_⟩
  · exact exec_mr16_of_mainline hm ((memRead2_offAddr s off).trans (if_pos ⟨he, hlt⟩))
  · exact exec_mr16_of_refused hm ((memRead2_offAddr s off).trans (if_neg h))
  · exact exec_mr8_of_mainline hm ((memRead1_offAddr s off).trans (if_pos hlt))
  · exact exec_mr8_of_refused hm ((memRead1_offAddr s off).trans (if_neg (Nat.not_lt.2 h)))

/-! ## Reads of a port -/

/-- R281: in mainline `IOR` is the port read, its byte returned. -/
theorem exec_ior_of_mainline (hm : s.Mainline) (p : Half) : exec (.ior p) s = .next (returnByte (portRead p s)) :=
  whenMainline_of_mainline hm _

theorem portRead_kbdPort (s : State) : portRead s.cfg.kbdPort s = (kbdRead s, some (kbdByte s)) :=
  if_pos rfl

/-- R281, R71: a read of a port outside the map stops. -/
theorem portRead_other {p : Half}
    (hp : p ∉ [s.cfg.pic1Cmd, s.cfg.pic1Data, s.cfg.pic2Cmd, s.cfg.pic2Data, s.cfg.kbdPort]) :
    portRead p s = (s.stopAt .rPort, none) := by
  simp only [List.mem_cons, not_or, List.not_mem_nil] at hp
  simp [portRead, hp]

/-- R178: a `Ready` controller's data port gives its mask. -/
theorem picDataRead_of_ready {c : Ctrl} (p : Half) (hr : (s.pic c).init = .ready) :
    picDataRead c p s = (s.pushLog (.input p (s.pic c).imr), some (s.pic c).imr) :=
  if_pos hr

theorem picDataRead_of_not_ready {c : Ctrl} (p : Half) (hr : (s.pic c).init ≠ .ready) :
    picDataRead c p s = (s.stopAt .rPicCmd, none) :=
  if_neg hr

/-- Settles O26: port by port; what a read of the keyboard port takes is told by its buffer. -/
theorem iorResult : Obligations.IorResult := by
  intro s hm hv
  simp only [exec_ior_of_mainline hm]
  refine ⟨fun b hb => ?_, fun hb => ⟨kbdByte s, ?_⟩, fun c hr => ?_, fun c hr => ?_, fun c => ?_, fun p hp => ?_⟩
  · rw [portRead_kbdPort, kbdRead, kbdTake, kbdByte, hb]
    rfl
  · rw [portRead_kbdPort, kbdRead, kbdTake, hb]
    rfl
  · rw [portRead_dataPort c hv, picDataRead_of_ready _ hr]
    rfl
  · rw [portRead_dataPort c hv, picDataRead_of_not_ready _ hr]
    rfl
  · rw [portRead_cmdPort c hv]
    rfl
  · rw [portRead_other hp]
    rfl

end Sys2Proof.Machine
end

section
/-! PROOFS. The CPU primitives (R290 to R295): the flag, the wait, the locks and the exception taken in mainline; and the deadlock
of a handler that needs a lock mainline holds (R298, R206). -/

namespace Sys2Proof.Machine

open Sys2Proof

variable {s t : State} {e : Entered}

/-! ## The flag -/

/-- R290, R291: the flags after `IF` is set or cleared, the rest as it was. -/
theorem setIF_eq (s : State) (b : Bool) :
    s.setIF b = { s with cpu := { s.cpu with flags := (s.setIF b).cpu.flags } } ∧
      ∀ j, (s.setIF b).cpu.flags.testBit j = if j = s.cfg.ifBit then b else s.cpu.flags.testBit j :=
  ⟨rfl, testBit_withIF s.cfg s.cpu.flags b⟩

/-- R296: `INTA` of a CPU that runs, with no handler entered, while interrupts are masked. -/
theorem exec_inta_of_masked (hs : s.stop = none) (hn : s.cpu.handler = none) (hh : s.cpu.halted = false)
    (hIF : s.IF = false) : exec .inta s = .fault (.notEnabled .interruptsMasked) := by
  rw [exec, execInta, whenRunning_of_running hs]
  simp [hn, hh, hIF, blocked]

/-- Settles O44: the update of `IF`, which keeps the machine in mainline and masks `INTA`. -/
theorem cliResult : Obligations.CliResult := by
  intro s hm
  have ⟨hs, hn, hh, _⟩ := hm
  obtain ⟨heq, hbits⟩ := setIF_eq s false
  exact ⟨s.setIF false, whenMainline_of_mainline hm _, heq, hbits, exec_inta_of_masked hs hn hh (setIF_IF s false)⟩

/-- R291: in mainline `STI` asks only for the startup order. -/
theorem exec_sti_of_mainline (hm : s.Mainline) :
    exec .sti s = if s.idtActive = true ∧ s.master.init = .ready ∧ s.slave.init = .ready then .next (s.setIF true)
      else .next (s.stopAt .rBootOrder) :=
  whenMainline_of_mainline hm _

/-- Settles O45: by whether the startup order is met. -/
theorem stiResult : Obligations.StiResult := by
  intro s hm
  rw [exec_sti_of_mainline hm]
  refine ⟨fun ha hma hsl => ?_, fun h => if_neg h⟩
  rw [if_pos ⟨ha, hma, hsl⟩]
  exact ⟨_, rfl, setIF_eq s true⟩

/-! ## The wait -/

/-- R292: while the CPU waits only `INTA`, the device events and a handler already entered go on. -/
theorem inta_or_hrun_or_deviceEvent_of_waiting {i : Instr} (hw : s.cpu.waiting = true) (h : exec i s = .next t) :
    i = .inta ∨ i = .hrun ∨ deviceEvent i := by
  cases i
  case irq n => exact .inr (.inr (.inl ⟨n, rfl⟩))
  case key b => exact .inr (.inr (.inr ⟨b, rfl⟩))
  case inta => exact .inl rfl
  case hrun => exact .inr (.inl rfl)
  all_goals
    obtain ⟨_, _, _, hawake⟩ := mainline_of_exec rfl h
    exact absurd (hw.symm.trans hawake) (by decide)

/-- R297: `HRUN` runs the handler entered, so there is one. -/
theorem handler_ne_none_of_hrun (h : exec .hrun s = .next t) : s.cpu.handler ≠ none := by
  obtain ⟨_, _, _, he, _⟩ := execHrun_next h
  exact fun hn => nomatch hn.symm.trans he

/-- R330: a trap entry that does not stop ends the wait. -/
theorem trapEntry_awake {v : Byte} {code : Option XWord} (h : (trapEntry v code s).stop = none) :
    (trapEntry v code s).cpu.waiting = false := by
  rcases trapEntry_cases v code s with ⟨_, e⟩ | ⟨_, _, e⟩ | ⟨_, _, _, _, e⟩ | ⟨_, _, _, e⟩ <;> rw [e] at h ⊢
  · cases h
  · cases h
  · cases h
  · rfl

/-- Settles O46: of what goes on while the CPU waits `HRUN` wants a handler, and `INTA` ends in a trap entry. -/
theorem hltResult : Obligations.HltResult := by
  rintro s t hm rfl
  have ⟨hs, hn, hh, _⟩ := hm
  refine ⟨whenMainline_of_mainline hm _, fun i u h => ?_, fun u h hu => ?_, fun hIF => ?_⟩
  · rcases inta_or_hrun_or_deviceEvent_of_waiting rfl h with hi | rfl | hi
    · exact .inl hi
    · exact (handler_ne_none_of_hrun h hn).elim
    · exact .inr hi
  · obtain ⟨_, _, _, _, w, v, _, rfl⟩ := execInta_next h
    exact trapEntry_awake hu
  · exact exec_inta_of_masked hs hn hh hIF

/-! ## The locks -/

theorem exec_lock_of_free {r : Resource} (hm : s.Mainline) (hl : s.lock r = .free) :
    exec (.lock r) s = .next (s.setLock r .heldByMainline) := by
  rw [exec, execLock, whenMainline_of_mainline hm, whenFree_of_free hl]

theorem exec_lock_of_held {r : Resource} (hm : s.Mainline) (hl : s.lock r = .heldByMainline) :
    exec (.lock r) s = .fault (.notEnabled (.lockHeld r)) := by
  rw [exec, execLock, whenMainline_of_mainline hm, whenFree_of_held hl]

theorem exec_unlock_of_held {r : Resource} (hm : s.Mainline) (hl : s.lock r = .heldByMainline) :
    exec (.unlock r) s = .next (s.setLock r .free) := by
  rw [exec, execUnlock, whenMainline_of_mainline hm, if_pos hl]

theorem exec_unlock_of_free {r : Resource} (hm : s.Mainline) (hl : s.lock r = .free) :
    exec (.unlock r) s = .next (s.stopAt .rLock) := by
  rw [exec, execUnlock, whenMainline_of_mainline hm, if_neg (by simp [hl])]

/-- Settles O47: by whether the lock is free or held. -/
theorem lockUnlockResults : Obligations.LockUnlockResults := by
  intro s r hm
  refine ⟨fun hl => ⟨?_, exec_unlock_of_free hm hl⟩, fun hl => ⟨exec_lock_of_held hm hl, ?_⟩⟩
  · exact ⟨_, exec_lock_of_free hm hl, setLock_eq s r _, fun q => s.setLock_lock r q _⟩
  · exact ⟨_, exec_unlock_of_held hm hl, setLock_eq s r _, fun q => s.setLock_lock r q _⟩

/-! ## The exception -/

theorem exec_exc_of_mainline (hm : s.Mainline) (v code : Byte) :
    exec (.exc v code) s = .next (trapEntry v (excCode v code) s) :=
  whenMainline_of_mainline hm _

/-- Settles O35: `EXC` is a trap entry with the code `excCode` gives. -/
theorem excResult : Obligations.ExcResult := by
  rintro s v code c hm rfl
  rw [exec_exc_of_mainline hm]
  exact ⟨fun ha hu hst => ⟨_, rfl, trapEntry_intoFrom ha hu hst⟩, _, rfl, trapEntry_outcome v (excCode v code) s⟩

/-! ## The deadlock -/

/-- R298: a lock among those the body needs is held. -/
theorem heldLock_of_held {rs : List Resource} {r : Resource} (hr : r ∈ rs) (hl : s.lock r = .heldByMainline) :
    ∃ q, heldLock s rs = some q := by
  refine Option.isSome_iff_exists.1 (List.find?_isSome.2 ⟨r, hr, ?_⟩)
  rw [hl]
  rfl

/-- R298: `HRUN` is not enabled while mainline holds a lock the body needs. -/
theorem exec_hrun_of_held {r : Resource} (hs : s.stop = none) (he : s.cpu.handler = some e)
    (hr : r ∈ needs e.handler s) (hl : s.lock r = .heldByMainline) :
    ∃ why, exec .hrun s = .fault (.notEnabled why) := by
  obtain ⟨q, hq⟩ := heldLock_of_held hr hl
  rw [exec, execHrun, whenRunning_of_running hs]
  by_cases hh : s.cpu.halted = true
  · exact ⟨.halted, by simp [he, hh, blocked]⟩
  · exact ⟨.lockHeld q, by simp [he, hh, hq, blocked]⟩

/-- R177, R203: a device event leaves the locks alone. -/
theorem deviceEvent_locks {i : Instr} (hi : deviceEvent i) (h : exec i s = .next t) : t.locks = s.locks := by
  obtain ⟨n, rfl⟩ | ⟨b, rfl⟩ := hi
  · exact (exec_sameOutside h).same .locks (by simp [writes])
  · exact (exec_sameOutside h).same .locks (by simp [writes])

/-- With a handler entered and `HRUN` not enabled only device events happen, and they leave the CPU and the locks. -/
theorem deviceEvent_of_hrun_blocked (he : s.cpu.handler = some e) (hb : ∃ why, exec .hrun s = .fault (.notEnabled why))
    {i : Instr} (h : exec i s = .next t) : deviceEvent i ∧ t.cpu = s.cpu ∧ t.locks = s.locks := by
  obtain ⟨why, hb⟩ := hb
  obtain rfl | hi := hrun_or_deviceEvent_of_entered he h
  · exact absurd (hb.symm.trans h) (by simp)
  · exact ⟨hi, deviceEvent_cpu hi h, deviceEvent_locks hi h⟩

/-- R206: the writer is needed while the byte to come is not known, and for a byte that shows something. -/
theorem writer_mem_needs_keyboard (h : keyboardNeedsWriter s = true) : .writer ∈ needs .keyboard s := by
  simp [needs, h]

/-- R206: the keyboard's body always needs its own lock and the controllers'. -/
theorem mem_needs_keyboard (s : State) : .keyboard ∈ needs .keyboard s ∧ .pic ∈ needs .keyboard s := by
  cases h : keyboardNeedsWriter s <;> simp [needs, h]

theorem keyboardNeedsWriter_of_shown {b : Byte} (ho : s.kbd.obuf = some b)
    (h : (decodeForDisplay s.cfg s.kbd.dec b).2 ≠ []) : keyboardNeedsWriter s = true := by
  rw [keyboardNeedsWriter, ho]
  simpa using h

theorem keyboardNeedsWriter_of_empty (ho : s.kbd.obuf = none) : keyboardNeedsWriter s = true := by
  rw [keyboardNeedsWriter, ho]

/-- R298: in a deadlock a lock the entered body needs is held. -/
theorem Deadlocked.needs_held (h : Deadlocked s) :
    s.stop = none ∧ ∃ e r, s.cpu.handler = some e ∧ r ∈ needs e.handler s ∧ s.lock r = .heldByMainline := by
  obtain ⟨hs, e, he, ⟨ht, hl⟩ | ⟨hk, hl⟩⟩ := h
  · rcases hl with hl | hl
    · exact ⟨hs, e, .writer, he, by simp [ht, needs], hl⟩
    · exact ⟨hs, e, .pic, he, by simp [ht, needs], hl⟩
  · obtain ⟨hkbd, hpic⟩ := mem_needs_keyboard s
    rw [← hk] at hkbd hpic
    rcases hl with hl | hl | ⟨hl, b, ho, hshown⟩
    · exact ⟨hs, e, .keyboard, he, hkbd, hl⟩
    · exact ⟨hs, e, .pic, he, hpic, hl⟩
    · exact ⟨hs, e, .writer, he, hk ▸ writer_mem_needs_keyboard (keyboardNeedsWriter_of_shown ho hshown), hl⟩

/-- R203: a device event leaves a byte in the keyboard's buffer, and the decoder, alone. -/
theorem deviceEvent_kbd {i : Instr} (hi : deviceEvent i) (h : exec i s = .next t) :
    t.kbd.dec = s.kbd.dec ∧ ∀ b, s.kbd.obuf = some b → t.kbd.obuf = some b := by
  obtain ⟨n, rfl⟩ | ⟨x, rfl⟩ := hi
  · have k := (exec_sameOutside h).same
    obtain ⟨hbuf, _⟩ := k .keyboardBuffer (by simp [writes])
    exact ⟨k .decoder (by simp [writes]), fun b hb => hbuf.trans hb⟩
  · obtain ⟨_, hempty, _⟩ := execKey_next h
    exact ⟨(exec_sameOutside h).same .decoder (by simp [writes]), fun b hb => nomatch hempty.symm.trans hb⟩

/-- R298: a device event that does not stop the machine leaves the deadlock in place. -/
theorem Deadlocked.deviceEvent (hd : Deadlocked s) {i : Instr} (hi : deviceEvent i) (h : exec i s = .next t)
    (ht : t.stop = none) : Deadlocked t := by
  obtain ⟨_, e, he, hlock⟩ := hd
  obtain ⟨hdec, hbuf⟩ := deviceEvent_kbd hi h
  refine ⟨ht, e, by rw [deviceEvent_cpu hi h, he], ?_⟩
  rw [deviceEvent_locks hi h, (exec_keeps h).cfg, hdec]
  refine hlock.imp_right fun ⟨hk, hl⟩ => ⟨hk, hl.imp_right (.imp_right fun ⟨hw, b, hb, hshown⟩ => ?_)⟩
  exact ⟨hw, b, hbuf b hb, hshown⟩

/-- Settles O43: `HRUN` waits for a lock the body needs; nothing but device events is left, and none of them frees a lock. -/
theorem lockDeadlock : Obligations.LockDeadlock := by
  refine ⟨fun s hd => ?_, fun s e hs he hk ho hw => ?_⟩
  · obtain ⟨hs, e, r, he, hr, hl⟩ := hd.needs_held
    have hb := exec_hrun_of_held hs he hr hl
    refine ⟨hb, fun i t h => ?_⟩
    obtain ⟨hi, hcpu, hlocks⟩ := deviceEvent_of_hrun_blocked he hb h
    exact ⟨hi, hcpu, hlocks, hd.deviceEvent hi h⟩
  · have hr : .writer ∈ needs e.handler s := hk ▸ writer_mem_needs_keyboard (keyboardNeedsWriter_of_empty ho)
    have hb := exec_hrun_of_held (r := .writer) hs he hr hw
    exact ⟨hb, fun i t h => deviceEvent_of_hrun_blocked he hb h⟩

end Sys2Proof.Machine
end

section
/-! PROOFS. Traps taken and returned from (R330 to R344), and what holds from reset on along every run (R373 to R385). -/

namespace Sys2Proof.Machine

open Sys2Proof

variable {s t : State}

/-! ## Who sets `IF` (R334) -/

/-- R330: a trap entry clears `IF` or, where it stops, leaves it alone. -/
theorem IF_of_trapEntry_IF {v : Byte} {code : Option XWord} (h : (trapEntry v code s).IF = true) : s.IF = true := by
  rcases trapEntry_cases v code s with ⟨_, he⟩ | ⟨_, _, he⟩ | ⟨_, _, _, _, he⟩ | ⟨_, _, _, he⟩ <;> rw [he] at h
  · exact h
  · exact h
  · exact h
  · exact absurd (enterHandler_IF ..) (ne_false_of_eq_true h)

/-- An instruction that does not write the CPU leaves `IF` alone. -/
theorem IF_of_cpu_not_written {i : Instr} (hi : .cpu ∉ writes i) (h : exec i s = .next t) : t.IF = s.IF :=
  IF_congr (congrArg Cpu.flags ((exec_sameOutside h).same .cpu hi)) (exec_keeps h).cfg

/-- R23, R290, R292, R330: of the operations that write the CPU, all but `STI` and `HRUN` leave `IF` at 0 where it was 0. -/
theorem IF_of_exec_IF {i : Instr} (hsti : i ≠ .sti) (hhrun : i ≠ .hrun) (h : exec i s = .next t) (ht : t.IF = true) :
    s.IF = true := by
  cases i
  case sti => exact absurd rfl hsti
  case hrun => exact absurd rfl hhrun
  case exc =>
    obtain ⟨_, rfl⟩ := execExc_next h
    exact IF_of_trapEntry_IF ht
  case inta =>
    obtain ⟨_, _, _, hIF, _⟩ := execInta_next h
    exact hIF
  case cli =>
    obtain ⟨_, rfl⟩ := execCli_next h
    exact absurd (setIF_IF s false) (ne_false_of_eq_true ht)
  case hlt =>
    obtain ⟨_, rfl⟩ := execHlt_next h
    exact ht
  all_goals exact (IF_of_cpu_not_written (by simp [writes]) h).symm.trans ht

/-- R333, R334: a handler body that comes out with `IF` set, entered with `IF` clear, has restored the interrupted context. -/
theorem hrun_restores_of_IF (h : exec .hrun s = .next t) (hs : s.IF = false) (ht : t.IF = true) :
    ∃ e, s.cpu.handler = some e ∧ t.cpu = restoredCpu s e := by
  obtain ⟨_, _, e, he, _⟩ := execHrun_next h
  have same (hf : t.cpu.flags = s.cpu.flags) : False :=
    absurd (ht.symm.trans ((IF_congr hf (exec_keeps h).cfg).trans hs)) (by decide)
  obtain hc | hc | hc := hrun_cpu he h
  · exact (same (by rw [hc])).elim
  · exact (same (by rw [hc])).elim
  · exact ⟨e, he, hc⟩

/-- Settles O16: `STI` asks for mainline, `HRUN` sets `IF` only by its return, and no other instruction sets it. -/
theorem reenabledOnlyByReturnOrSti : Obligations.ReenabledOnlyByReturnOrSti := by
  intro i s t h hs ht
  by_cases hsti : i = .sti
  · subst hsti
    exact .inl ⟨rfl, mainline_of_exec rfl h⟩
  by_cases hhrun : i = .hrun
  · subst hhrun
    exact .inr ⟨rfl, hrun_restores_of_IF h hs ht⟩
  · exact absurd (IF_of_exec_IF hsti hhrun h ht) (ne_true_of_eq_false hs)

/-! ## The breakpoint (R344) -/

/-- R333: in mainline the return undoes the entry. -/
theorem restoredCpu_enterHandler (hm : s.Mainline) (h : HandlerId) (code : Option XWord) :
    restoredCpu (enterHandler s h code) ⟨h, s.frame, code⟩ = s.cpu := by
  obtain ⟨_, hn, _, hw⟩ := hm
  change (⟨s.cpu.ip, s.cpu.sp, s.cpu.flags, none, s.cpu.halted, false⟩ : Cpu) = s.cpu
  rw [← hn, ← hw]

/-- Settles O38: the breakpoint's entry is entered, and its body gives one report and returns to the entry's own CPU. -/
theorem breakpointResumes : Obligations.BreakpointResumes := by
  intro s hm ha he
  have ⟨hs, _, hh, _⟩ := hm
  have hexc : exec (.exc 3#8 0#8) s = .next (enterHandler s .breakpoint none) :=
    (exec_exc_of_mainline hm ..).trans (congrArg _ (trapEntry_of_entry ha he (by decide)))
  have hrun := hrunBreakpoint (enterHandler s .breakpoint none) _ hs rfl hh rfl
  have hcpu := restoredCpu_enterHandler hm .breakpoint none
  rw [restoredCpu] at hcpu
  rw [execAll_of_next _ hexc, execAll_of_next _ hrun, hcpu]
  rfl

/-! ## Every reachable state (R382) -/

/-- The two invariants hold of every state a run from reset comes to, under parameters that meet R9. -/
theorem Reachable.invariants {cfg : Config} (hv : cfg.valid = true) (h : Reachable cfg s) :
    s.cfg = cfg ∧ MachineInv s ∧ ServiceInv s := by
  induction h with
  | start l p hl => exact ⟨rfl, machineInv_atReset p hl, serviceInv_atReset cfg l p⟩
  | next s t _ hstep ih =>
    obtain ⟨hcfg, hi, hsv⟩ := ih
    have hvs : s.cfg.valid = true := by rw [hcfg]; exact hv
    exact ⟨(step_keeps hstep).cfg.trans hcfg, invariantKeptByStep s t hvs hi hstep,
      serviceInvariantKeptByStep s t hvs hi hsv hstep⟩

/-- Settles O11: with no handler entered `ServiceInv` says it of every controller that has met its first byte. -/
theorem nothingInServiceInMainline : Obligations.NothingInServiceInMainline := by
  intro cfg s hv h hs hn c hc
  obtain ⟨_, _, hsv⟩ := h.invariants hv
  exact noneInService_ready (hsv.noneInService hs hn) hc

/-! ## The keyboard's buffer after its handler (R385) -/

/-- R201: "the read must happen unconditionally": the body reads the port whatever comes after. -/
theorem keyboardBody_obuf (s : State) : (keyboardBody s).kbd.obuf = none := by
  obtain ⟨hbuf, _⟩ := (ackReturn_sameOutside s.cfg.vecKeyboard (keyboardOutput s)).same .keyboardBuffer (by decide)
  rw [keyboardBody, hbuf, (keyboardOutput_eq s).kbd]

/-- Settles O42: the body has emptied the buffer, which with a running machine is all `KEY` asks. -/
theorem keyboardBodyEmptiesBuffer : Obligations.KeyboardBodyEmptiesBuffer := by
  intro s t e he hk h
  obtain ⟨_, _, e', he', _, hbody⟩ := execHrun_next h
  obtain rfl : e = e' := Option.some.inj (he.symm.trans he')
  obtain rfl : t = keyboardBody s := by simpa [hk] using hbody
  have ho := keyboardBody_obuf s
  exact ⟨ho, fun hs b => ⟨_, exec_key_of_empty b hs ho⟩⟩

/-! ## The boot sequence (R373, R375) -/

/-- R131: `s` with `table` as the table built. -/
def withTable (s : State) (table : Vector Entry 256) : State := { s with ivt := table, ivtBuilt := true }

/-- R133: `s` with the table active. -/
def tableActivated (s : State) : State := { s with idtActive := true }

/-- R185: `s` with both controllers `Ready` at `IRQ_BASE`, and the eight writes logged. -/
def picsReady (s : State) : State :=
  s.withPics ⟨s.cfg.irqBase, .ready, 0#8, 0#8, 0#8, icw3Byte s.cfg .master, s.cfg.icw4Mode⟩
    ⟨s.cfg.irqBase + 8#8, .ready, 0#8, 0#8, 0#8, icw3Byte s.cfg .slave, s.cfg.icw4Mode⟩
    ((picInitWrites s.cfg s.cfg.irqBase).map fun w => .output w.1 w.2)

/-- R375: `s` booted: `table` built and active, the controllers `Ready`, interrupts enabled. -/
def bootEnd (s : State) (table : Vector Entry 256) : State :=
  (tableActivated (picsReady (withTable s table))).setIF true

theorem bootEnd_IF (s : State) (table : Vector Entry 256) : (bootEnd s table).IF = true := setIF_IF _ true

/-- R185 at `IRQ_BASE`, from two `Uninit` controllers. -/
theorem exec_picinit_of_uninit (hm : s.Mainline) (hv : s.cfg.valid = true) (hl : s.locks.pic = .free)
    (hma : s.master.init = .uninit) (hsl : s.slave.init = .uninit) :
    exec (.picinit s.cfg.irqBase) s = .next (picsReady s) := by
  have hb := Config.valid_base hv
  rw [exec_picinit_of_base hm hl hb, portWrites_picInit hv hm.1 hb hma hsl, picsReady]

/-- R291: `STI` with the startup order met. -/
theorem exec_sti_of_booted (hm : s.Mainline) (hb : booted s) : exec .sti s = .next (s.setIF true) :=
  (exec_sti_of_mainline hm).trans (if_pos hb)

/-- Mainline as reset leaves it: nothing active or initialised, interrupts masked, the controllers' lock free (R44). -/
structure Unbooted (s : State) : Prop where
  mainline : s.Mainline
  masked : s.IF = false
  inactive : s.idtActive = false
  master : s.master.init = .uninit
  slave : s.slave.init = .uninit
  picFree : s.locks.pic = .free

theorem unbooted_atReset (cfg : Config) (l : Launch) : Unbooted (State.atReset cfg l) :=
  ⟨⟨rfl, rfl, rfl, rfl⟩, flagsAtReset_IF cfg l.flags, rfl, rfl, rfl, rfl⟩

/-- R373, R375: the canonical order, and the order with `ACTIVATE` before `PICINIT`. -/
theorem Unbooted.execAll_boot (h : Unbooted s) (hv : s.cfg.valid = true) :
    execAll [.build, .picinit s.cfg.irqBase, .activate, .sti] s = .next (bootEnd s (builtTable s.cfg)) ∧
    execAll [.build, .activate, .picinit s.cfg.irqBase, .sti] s = .next (bootEnd s (builtTable s.cfg)) := by
  have ⟨hm, hIF, ha, hma, hsl, hl⟩ := h
  have hbuild : exec .build s = .next (withTable s (builtTable s.cfg)) := exec_build_of_inactive hm ha
  generalize builtTable s.cfg = table at hbuild ⊢
  have hsti := exec_sti_of_booted (s := tableActivated (picsReady (withTable s table))) hm ⟨rfl, rfl, rfl⟩
  constructor
  · have hpicinit : exec (.picinit s.cfg.irqBase) (withTable s table) = .next (picsReady (withTable s table)) :=
      exec_picinit_of_uninit (s := withTable s table) hm hv hl hma hsl
    have hactivate : exec .activate (picsReady (withTable s table)) =
        .next (tableActivated (picsReady (withTable s table))) := exec_activate_of_built hm rfl hIF
    rw [execAll_of_next _ hbuild, execAll_of_next _ hpicinit, execAll_of_next _ hactivate, execAll_of_next _ hsti]
    rfl
  · have hactivate : exec .activate (withTable s table) = .next (tableActivated (withTable s table)) :=
      exec_activate_of_built hm rfl hIF
    have hpicinit : exec (.picinit s.cfg.irqBase) (tableActivated (withTable s table)) =
        .next (tableActivated (picsReady (withTable s table))) :=
      exec_picinit_of_uninit (s := tableActivated (withTable s table)) hm hv hl hma hsl
    rw [execAll_of_next _ hbuild, execAll_of_next _ hactivate, execAll_of_next _ hpicinit, execAll_of_next _ hsti]
    rfl

/-- Settles O58: both orders come to `bootEnd`, whose flags are those of `STI` and whose table is that of `BUILD`. -/
theorem bootSequence : Obligations.BootSequence := by
  rintro cfg l _ _ hv rfl rfl
  obtain ⟨hcanonical, hother⟩ := (unbooted_atReset cfg l).execAll_boot hv
  refine ⟨_, hcanonical, hother, rfl, bootEnd_IF .., fun j hj => ?_, entry_of_builtTable hv rfl⟩
  exact (testBit_withIF cfg (State.atReset cfg l).cpu.flags true j).trans (if_neg hj)

end Sys2Proof.Machine
end
